-- ==== Sys2Proof/Word.lean ====
section
/-! DEFINITION. The word types of the hardware (00_scope.md R14, 30_encoding.md R140, R145). -/

namespace Sys2Proof

/-- A byte of VideoMemoryRegion or of a ROM region. -/
abbrev Byte := BitVec 8

/-- A 16-bit register value, scanline number or pen. -/
abbrev U16 := BitVec 16

/-- A 32-bit counter or seed. -/
abbrev U32 := BitVec 32

/-- A register id (10_state.md R33). -/
abbrev RegId := BitVec 16

/-- A tilemap number: the two bits of field T (30_encoding.md R141, R143), and NT is at most 4 (R9). -/
abbrev TileId := BitVec 2

/-- The 30-bit ADDR field (30_encoding.md R141). -/
abbrev Addr := BitVec 30

/-- A 12-bit clip bound (30_encoding.md R143). -/
abbrev Bound := BitVec 12

/-- A 64-bit command word (30_encoding.md R140). -/
abbrev Cmd := BitVec 64

end Sys2Proof
end

