-- ==== Sys2Proof/Syntax.lean ====
section
/-! DEFINITION. The fourteen commands of the opcode map (30_encoding.md R146). Each operand has the exact width that
30_encoding.md R145 gives it. -/

namespace Sys2Proof

/-- One constructor per row of spec/opcode_table.json. -/
inductive Instr where
  /-- NOP: the bus idles (46_interface.md R400). -/
  | nop
  /-- WMEM: `write_memory(a, d)` (R401). -/
  | wmem (a : Addr) (d : Byte)
  /-- WREG: `write_register(a, d)` (R402). -/
  | wreg (a : Addr) (d : U16)
  /-- RREG: `read_register(a)` (R403). -/
  | rreg (a : Addr)
  /-- TICK: one activation of the scanline scheduler (R406). -/
  | tick
  /-- GETFB: `get_frame_buffer()` (R405). -/
  | getfb
  /-- RESET: re-initialisation, keeping `mem` (R407). -/
  | reset
  /-- MARKD: `mark_dirty(t, i)` (R410). -/
  | markd (t : TileId) (i : Addr)
  /-- MARKA: `mark_all_dirty(t)` (R411). -/
  | marka (t : TileId)
  /-- REDRAW: `redraw(t, clip)` with the applied latch's values (R414). -/
  | redraw (t : TileId) (x0 x1 y0 y1 : Bound)
  /-- SPRITES: `draw_sprites(clip)` (R415). -/
  | sprites (x0 x1 y0 y1 : Bound)
  /-- COMPOSE: `compose(clip)` (R416). -/
  | compose (x0 x1 y0 y1 : Bound)
  /-- LWRITE: the latch's `write(r, d)` (R412). -/
  | lwrite (r : RegId) (d : U16)
  /-- BOUNDARY: `on_scanline_boundary(n)` (R413). -/
  | boundary (n : U16)
deriving DecidableEq, Repr, Inhabited

end Sys2Proof
end

