-- ==== Sys2Proof/Decode.lean ====
section
/-! DEFINITION. The decoder and the encoder of command words (30_encoding.md R140 to R162). The decoder follows R147:
a word w is command C when w AND mask(C) equals match(C). The encoder is written from the formats of R141 to R143. -/

namespace Sys2Proof

/-- The mnemonics of the opcode map (R146). -/
inductive Op where
  | nop | wmem | wreg | rreg | tick | getfb | reset
  | markd | marka | redraw | sprites | compose | lwrite | boundary
deriving DecidableEq, Repr

/-- A row of the match and mask table (R147). -/
structure OpRow where
  op : Op
  word : Cmd
  mask : Cmd
deriving DecidableEq, Repr

/-- The table of R147. -/
def opRows : List OpRow :=
  [⟨.nop, 0x0000000000000000, 0xFFFFFFFFFFFFFFFF⟩,
   ⟨.wmem, 0x0100000000000000, 0xFFC0000000FFFF00⟩,
   ⟨.wreg, 0x0200000000000000, 0xFFC0000000FF0000⟩,
   ⟨.rreg, 0x0300000000000000, 0xFFC0000000FFFFFF⟩,
   ⟨.tick, 0x0400000000000000, 0xFFFFFFFFFFFFFFFF⟩,
   ⟨.getfb, 0x0500000000000000, 0xFFFFFFFFFFFFFFFF⟩,
   ⟨.reset, 0x0600000000000000, 0xFFFFFFFFFFFFFFFF⟩,
   ⟨.markd, 0x1000000000000000, 0xFF00000000FFFFFF⟩,
   ⟨.marka, 0x1100000000000000, 0xFF3FFFFFFFFFFFFF⟩,
   ⟨.redraw, 0x1200000000000000, 0xFF3F000000000000⟩,
   ⟨.sprites, 0x1300000000000000, 0xFFFF000000000000⟩,
   ⟨.compose, 0x1400000000000000, 0xFFFF000000000000⟩,
   ⟨.lwrite, 0x1500000000000000, 0xFFFFFF0000FF0000⟩,
   ⟨.boundary, 0x1600000000000000, 0xFFFFFF0000FFFFFF⟩]

/-- Field OP, bits 63:56 (R144). -/
def fieldOp (w : Cmd) : BitVec 8 := w.extractLsb' 56 8

/-- Field T, bits 55:54 (R144). -/
def fieldT (w : Cmd) : TileId := w.extractLsb' 54 2

/-- Field ADDR, bits 53:24 (R144). -/
def fieldAddr (w : Cmd) : Addr := w.extractLsb' 24 30

/-- ADDR[15:0], a register id or a scanline number (R145). -/
def fieldAddr16 (w : Cmd) : U16 := w.extractLsb' 24 16

/-- Field DATA, bits 15:0 (R144). -/
def fieldData (w : Cmd) : U16 := w.extractLsb' 0 16

/-- DATA[7:0], a memory datum (R145). -/
def fieldData8 (w : Cmd) : Byte := w.extractLsb' 0 8

/-- Field X0, bits 47:36 (R144). -/
def fieldX0 (w : Cmd) : Bound := w.extractLsb' 36 12

/-- Field X1, bits 35:24 (R144). -/
def fieldX1 (w : Cmd) : Bound := w.extractLsb' 24 12

/-- Field Y0, bits 23:12 (R144). -/
def fieldY0 (w : Cmd) : Bound := w.extractLsb' 12 12

/-- Field Y1, bits 11:0 (R144). -/
def fieldY1 (w : Cmd) : Bound := w.extractLsb' 0 12

/-- Operand assembly (R144, R145): every field is zero-extended, none is scaled or shifted. -/
def Op.operands (o : Op) (w : Cmd) : Instr :=
  match o with
  | .nop => .nop
  | .wmem => .wmem (fieldAddr w) (fieldData8 w)
  | .wreg => .wreg (fieldAddr w) (fieldData w)
  | .rreg => .rreg (fieldAddr w)
  | .tick => .tick
  | .getfb => .getfb
  | .reset => .reset
  | .markd => .markd (fieldT w) (fieldAddr w)
  | .marka => .marka (fieldT w)
  | .redraw => .redraw (fieldT w) (fieldX0 w) (fieldX1 w) (fieldY0 w) (fieldY1 w)
  | .sprites => .sprites (fieldX0 w) (fieldX1 w) (fieldY0 w) (fieldY1 w)
  | .compose => .compose (fieldX0 w) (fieldX1 w) (fieldY0 w) (fieldY1 w)
  | .lwrite => .lwrite (fieldAddr16 w) (fieldData w)
  | .boundary => .boundary (fieldAddr16 w)

/-- Why no row matches a word (R160 case (a), R161). -/
inductive DecodeError where
  /-- OP is unassigned: 0x07..0x0F or 0x17..0xFF. -/
  | reservedOpcode (op : BitVec 8)
  /-- OP is assigned and a field that must be 0 is not. -/
  | mustBeZero (op : Op)
deriving DecidableEq, Repr

/-- What a 64-bit word decodes to (R162): one of the fourteen commands, or Illegal. -/
inductive Decoded where
  | command (i : Instr)
  | illegal (e : DecodeError)
deriving DecidableEq, Repr

/-- `w & mask = match` (R147). -/
def OpRow.matches (r : OpRow) (w : Cmd) : Bool := decide (w &&& r.mask = r.word)

/-- The row whose OP byte is the word's. -/
def rowOfOp (w : Cmd) : Option OpRow := opRows.find? fun r => decide (fieldOp r.word = fieldOp w)

/-- The total decoder (R162). The refusals by value of R160 (b) and (c) need the configuration: `Instr.legal`. -/
def decode (w : Cmd) : Decoded :=
  match opRows.find? fun r => r.matches w with
  | some r => .command (r.op.operands w)
  | none =>
    match rowOfOp w with
    | some r => .illegal (.mustBeZero r.op)
    | none => .illegal (.reservedOpcode (fieldOp w))

/-- A word of format A (R141), with RSV = 0. -/
def formatA (op : BitVec 8) (t : TileId) (addr : Addr) (data : U16) : Cmd :=
  op ++ t ++ addr ++ 0#8 ++ data

/-- A word of format N (R142), with Z = 0. -/
def formatN (op : BitVec 8) : Cmd := op ++ 0#56

/-- A word of format R (R143), with RRSV = 0. -/
def formatR (op : BitVec 8) (t : TileId) (x0 x1 y0 y1 : Bound) : Cmd :=
  op ++ t ++ 0#6 ++ x0 ++ x1 ++ y0 ++ y1

/-- The word of a command (R146). -/
def encode : Instr → Cmd
  | .nop => formatN 0x00
  | .wmem a d => formatA 0x01 0 a (d.setWidth 16)
  | .wreg a d => formatA 0x02 0 a d
  | .rreg a => formatA 0x03 0 a 0
  | .tick => formatN 0x04
  | .getfb => formatN 0x05
  | .reset => formatN 0x06
  | .markd t i => formatA 0x10 t i 0
  | .marka t => formatA 0x11 t 0 0
  | .redraw t x0 x1 y0 y1 => formatR 0x12 t x0 x1 y0 y1
  | .sprites x0 x1 y0 y1 => formatR 0x13 0 x0 x1 y0 y1
  | .compose x0 x1 y0 y1 => formatR 0x14 0 x0 x1 y0 y1
  | .lwrite r d => formatA 0x15 0 (r.setWidth 30) d
  | .boundary n => formatA 0x16 0 (n.setWidth 30) 0

/-- A command word from the number that spec/opcode_table.json gives its bits, bit 0 the least significant. Bits at and
above `nbits` are 0. -/
def tableWord (nbits w : Nat) : Cmd := BitVec.ofNat 64 (w % 2 ^ nbits)

/-- The command the decoder reads from a word of the opcode table, none where it refuses. -/
def decodeTableWord (nbits w : Nat) : Option Instr :=
  match decode (tableWord nbits w) with
  | .command i => some i
  | .illegal _ => none

end Sys2Proof
end

