-- ==== Sys2Proof/Config.lean ====
section
/-! DEFINITION. The configuration record (00_scope.md R8 to R13): every per-machine parameter, as plain data.
A parameter that the spec describes as a function is held as an expression (log 2). The file also declares the
free value of register reads (46_interface.md R404). -/

namespace Sys2Proof

/-- DESIGN CHOICE (log 2). An expression over natural numbers: how a per-machine FUNCTION of 00_scope.md R9 to R13
is written as plain data. `var i` is the i-th argument. Every function on a finite domain has such an expression
(`ite` and `eq` alone give its table). Its value is `Expr.eval`. -/
inductive Expr where
  | lit (n : Nat)
  | var (i : Nat)
  | add (a b : Expr)
  | sub (a b : Expr)
  | mul (a b : Expr)
  | div (a b : Expr)
  | mod (a b : Expr)
  | and (a b : Expr)
  | or (a b : Expr)
  | xor (a b : Expr)
  | lt (a b : Expr)
  | eq (a b : Expr)
  | ite (c a b : Expr)
  | table (i : Expr) (values : List Nat)
deriving DecidableEq, Repr, Inhabited

/-- One value for each tilemap number 0..3. -/
structure Quad (α : Type) where
  t0 : α
  t1 : α
  t2 : α
  t3 : α
deriving DecidableEq, Repr, Inhabited

/-- LATCH_PERIOD (R9). -/
inductive LatchPeriod where
  | perScanline
  | perFrame
deriving DecidableEq, Repr, Inhabited

/-- PAL_KIND (R11). -/
inductive PalKind where
  | staticProm
  | dynamicRam
deriving DecidableEq, Repr, Inhabited

/-- SPR_X_SIGN and SPR_Y_SIGN (R12): +1 or -1. -/
inductive Sign where
  | plus
  | minus
deriving DecidableEq, Repr, Inhabited

/-- The number by which a ROM region is named (R10, R11, R41). -/
abbrev RegionId := Nat

/-- A partial per-machine function: where `defined` evaluates to 0 it gives `none` (REG_DECODE of R9, OVERLAY of R13). -/
structure PartialFn where
  defined : Expr
  value : Expr
deriving DecidableEq, Repr, Inhabited

/-- A plane of BACKING[t] (R10): `(base, nbytes)`. -/
structure Plane where
  base : Nat
  nbytes : Nat
deriving DecidableEq, Repr, Inhabited

/-- GFX_SRC[t] (R10): a ROM region, or an inclusive address range of VideoMemoryRegion. -/
inductive GfxSrc where
  | rom (region : RegionId)
  | charRam (lo hi : Nat)
deriving DecidableEq, Repr, Inhabited

/-- GFX_PIXEL[t] and SGFX_PIXEL (R10, R12): `reads` are the indices of the source bytes the pixel depends on,
computed from the arguments. `value` combines the arguments and, after them, those bytes. -/
structure PixelFn where
  reads : List Expr
  value : Expr
deriving DecidableEq, Repr, Inhabited

/-- TILE_INFO[t] (R10): one expression per field of a TileEntry (41_tilemap.md R234), over the arguments
tile index, GFX_BANK, and then the backing bytes in plane order. A flag is 1 where its expression is not 0. -/
structure TileInfoFn where
  code : Expr
  color : Expr
  flipX : Expr
  flipY : Expr
  priority : Expr
deriving DecidableEq, Repr, Inhabited

/-- The parameters of one tilemap (R10). -/
structure TilemapCfg where
  /-- COLS, ROWS. -/
  cols : Nat
  rows : Nat
  /-- TILE_W, TILE_H. -/
  tileW : Nat
  tileH : Nat
  /-- SCAN over the arguments column, row. -/
  scan : Expr
  /-- BACKING. -/
  backing : List Plane
  /-- TILE_INFO. -/
  tileInfo : TileInfoFn
  /-- GFX_SRC. -/
  gfxSrc : GfxSrc
  /-- NUM_CODES. -/
  numCodes : Nat
  /-- TILE_BPP. -/
  bpp : Nat
  /-- GFX_PIXEL over the arguments code, px, py. -/
  gfxPixel : PixelFn
  /-- TILE_TPEN. -/
  tpen : Option Nat
  /-- BLANK_TILE over the arguments px, py. -/
  blank : Expr
  /-- TILE_PEN_BASE. -/
  penBase : Nat
  /-- SCROLL_NX, SCROLL_NY. -/
  scrollNX : Nat
  scrollNY : Nat
  /-- ROWSCROLL_GROUP. -/
  rowscrollGroup : Nat
deriving DecidableEq, Repr, Inhabited

/-- An entry `(k, bit, weight)` of CH_TABLE[c] (R11). -/
structure ChWeight where
  k : Nat
  bit : Nat
  weight : Int
deriving DecidableEq, Repr, Inhabited

/-- The palette parameters (R11). -/
structure PalCfg where
  /-- PAL_KIND. -/
  kind : PalKind
  /-- NUM_PAL_BANKS. -/
  numBanks : Nat
  /-- PAL_BANK_SIZE. -/
  bankSize : Nat
  /-- PAL_BYTES. -/
  bytes : Nat
  /-- PAL_ENTRY_STRIDE, PAL_PLANE_STRIDE: integers of either sign. R11 gives them no bound, and a number without a width is
  an integer (R14). -/
  entryStride : Int
  planeStride : Int
  /-- CH_TABLE[R], CH_TABLE[G], CH_TABLE[B]. -/
  chR : List ChWeight
  chG : List ChWeight
  chB : List ChWeight
  /-- The ROM region that holds PROM. -/
  promRegion : RegionId
  /-- PROM_LEN_MIN. -/
  promLenMin : Nat
  /-- PAL_RAM_BASE. -/
  ramBase : Nat
deriving DecidableEq, Repr, Inhabited

/-- A segment `(byte, hi, lo)` of SPR_FIELD[f] (R12). -/
structure Seg where
  byte : Nat
  hi : Nat
  lo : Nat
deriving DecidableEq, Repr, Inhabited

/-- SPR_FIELD (R12): per field, `none` for Absent, or its segments with the most significant first. -/
structure SprFields where
  code : Option (List Seg)
  color : Option (List Seg)
  x : Option (List Seg)
  y : Option (List Seg)
  size : Option (List Seg)
  flipX : Option (List Seg)
  flipY : Option (List Seg)
  priority : Option (List Seg)
  bank : Option (List Seg)
  enable : Option (List Seg)
deriving DecidableEq, Repr, Inhabited

/-- An item of a listed draw order (log 2, log 8): `index` is drawn where `shown` does not evaluate to 0. -/
structure SeqItem where
  shown : Expr
  index : Nat
deriving DecidableEq, Repr, Inhabited

/-- SPR_SEQ (R12, 42_sprites.md R285): the two standard orders, a stable sort by a key of each record, or any
function of the records as a list of guarded indices (log 2, log 8). In `sortBy` the arguments are a record's ten
fields in the order of SPR_FIELD; in `listed` they are the fields of all records, ten per record. -/
inductive SprSeq where
  | ascending
  | descending
  | sortBy (key : Expr)
  | listed (items : List SeqItem)
deriving DecidableEq, Repr, Inhabited

/-- The sprite parameters (R12). -/
structure SprCfg where
  /-- NUM_SPRITES. -/
  num : Nat
  /-- SPR_BASE, SPR_STRIDE. -/
  base : Nat
  stride : Nat
  /-- SPR_FIELD. -/
  fields : SprFields
  /-- SPR_SEQ. -/
  seq : SprSeq
  /-- SPR_X_SIGN, SPR_Y_SIGN. -/
  xSign : Sign
  ySign : Sign
  /-- SPR_X_OFF, SPR_Y_OFF. -/
  xOff : Int
  yOff : Int
  /-- SIZE_TABLE. -/
  sizes : List (Nat × Nat)
  /-- CELL_W, CELL_H. -/
  cellW : Nat
  cellH : Nat
  /-- CELL_CODE over the arguments code, size class, cx, cy. -/
  cellCode : Expr
  /-- NUM_SPR_BANKS. -/
  numBanks : Nat
  /-- SPR_CODES. -/
  codes : Nat
  /-- SPR_BPP. -/
  bpp : Nat
  /-- The sprite graphics ROM region behind SGFX_PIXEL (R481). -/
  gfxRegion : RegionId
  /-- SGFX_PIXEL over the arguments bank, code, px, py. -/
  gfxPixel : PixelFn
  /-- SPR_TPEN, SPR_MASK_PEN, SPR_PEN_BASE. -/
  tpen : Nat
  maskPen : Option Nat
  penBase : Nat
  /-- SPR_WRAP_X, SPR_WRAP_Y, SPR_WRAP_W, SPR_WRAP_H. -/
  wrapX : Bool
  wrapY : Bool
  wrapW : Nat
  wrapH : Nat
  /-- SPR_FLIP_W, SPR_FLIP_H. -/
  flipW : Nat
  flipH : Nat
deriving DecidableEq, Repr, Inhabited

/-- Which pixels a `Tile` slot contributes (45_compositor.md R380). -/
inductive TileSel where
  | back
  | front
  | any
deriving DecidableEq, Repr, Inhabited

/-- The priorities a `Sprite` slot shows (R380, R381): every one, or a set. -/
inductive PrioSet where
  | any
  | only (values : List Nat)
deriving DecidableEq, Repr, Inhabited

/-- An entry of SLOTS (45_compositor.md R380). -/
inductive Slot where
  | tile (t : TileId) (sel : TileSel)
  | sprite (set : PrioSet)
  | overlay
deriving DecidableEq, Repr, Inhabited

/-- OVERLAY (R13): the default generator OVERLAY_XS (45_compositor.md R385), or a per-machine function of
the arguments seed, frame_count, y, x. -/
inductive Overlay where
  | xs
  | custom (f : PartialFn)
deriving DecidableEq, Repr, Inhabited

/-- The whole configuration (R8), with the ROM regions given at initialisation (R41, R480). -/
structure Config where
  /-- NT. -/
  nt : Nat
  /-- MEM_SIZE. -/
  memSize : Nat
  /-- FB_W, FB_H. -/
  fbW : Nat
  fbH : Nat
  /-- PIXEL_CLOCK in Hz. -/
  pixelClock : Nat
  /-- The reset values of the timing registers. -/
  htotalRst : U16
  vtotalRst : U16
  visTopRst : U16
  visBottomRst : U16
  visLeftRst : U16
  visRightRst : U16
  /-- LATCH_PERIOD. -/
  latchPeriod : LatchPeriod
  /-- REG_DECODE over the argument bus address. -/
  regDecode : PartialFn
  /-- VEC_VBLANK, VEC_RASTER. -/
  vecVblank : U16
  vecRaster : U16
  /-- The parameters of R10, for each tilemap number. -/
  tilemaps : Quad TilemapCfg
  /-- The parameters of R11. -/
  pal : PalCfg
  /-- The parameters of R12. -/
  spr : SprCfg
  /-- SLOTS, lowest priority first. -/
  slots : List Slot
  /-- BG_PEN. -/
  bgPen : Nat
  /-- OVERLAY_EN, OVERLAY, STAR_SEED. -/
  overlayEn : Bool
  overlay : Overlay
  starSeed : U32
  /-- The ROM regions that are present, by name. -/
  regions : List (RegionId × List Byte)
deriving DecidableEq, Repr, Inhabited

/-- FREE VALUE (log 5; 46_interface.md R404, 93_implementation_defined.md 1.2). The n-th 16-bit value that a read
of the light pen, or of an id with no read-back, returns when the host has supplied none. Nothing constrains it. -/
opaque Config.freeDraw : Nat → U16

end Sys2Proof
end

