-- ==== Sys2Proof/Machine/Collections.lean ====
section
/-! DEFINITION. The containers of the state: one value per tilemap (Quad), and sparse maps that list only what
differs from a default, in one canonical form (log 10). -/

namespace Sys2Proof

/-- The entry of tilemap `t`. -/
def Quad.get {α : Type} (q : Quad α) (t : TileId) : α :=
  if t = 0 then q.t0 else if t = 1 then q.t1 else if t = 2 then q.t2 else q.t3

/-- `q` with the entry of tilemap `t` replaced. -/
def Quad.set {α : Type} (q : Quad α) (t : TileId) (v : α) : Quad α :=
  if t = 0 then { q with t0 := v } else if t = 1 then { q with t1 := v }
  else if t = 2 then { q with t2 := v } else { q with t3 := v }

/-- The same value for every tilemap number. -/
def Quad.all {α : Type} (v : α) : Quad α := ⟨v, v, v, v⟩

/-- A value computed from each tilemap's. -/
def Quad.map {α β : Type} (f : α → β) (q : Quad α) : Quad β := ⟨f q.t0, f q.t1, f q.t2, f q.t3⟩

/-- The order of addresses and indices. -/
def natLt (a b : Nat) : Bool := decide (a < b)

/-- The order of register ids. -/
def idLt (a b : RegId) : Bool := decide (a.toNat < b.toNat)

/-- The order of pixels `(y, x)`: by row, then by column. -/
def posLt (a b : Nat × Nat) : Bool := decide (a.1 < b.1) || (decide (a.1 = b.1) && decide (a.2 < b.2))

/-- The value listed for `k`, if any. -/
def Sparse.find {κ α : Type} [DecidableEq κ] : List (κ × α) → κ → Option α
  | [], _ => none
  | e :: m, k => if e.1 = k then some e.2 else Sparse.find m k

/-- The value at `k`, which is `d` where nothing is listed. -/
def Sparse.getD {κ α : Type} [DecidableEq κ] (d : α) (m : List (κ × α)) (k : κ) : α :=
  (Sparse.find m k).getD d

/-- List `v` for `k`, at its place in the order `lt`. -/
def Sparse.insert {κ α : Type} [DecidableEq κ] (lt : κ → κ → Bool) : List (κ × α) → κ → α → List (κ × α)
  | [], k, v => [(k, v)]
  | e :: m, k, v =>
    if k = e.1 then (k, v) :: m
    else if lt k e.1 then (k, v) :: e :: m
    else e :: Sparse.insert lt m k v

/-- List nothing for `k`. -/
def Sparse.erase {κ α : Type} [DecidableEq κ] (m : List (κ × α)) (k : κ) : List (κ × α) :=
  m.filter fun e => !decide (e.1 = k)

/-- Write `v` at `k`: the default is written by listing nothing, which keeps the form canonical. -/
def Sparse.put {κ α : Type} [DecidableEq κ] [DecidableEq α] (lt : κ → κ → Bool) (d : α) (m : List (κ × α))
    (k : κ) (v : α) : List (κ × α) :=
  if v = d then Sparse.erase m k else Sparse.insert lt m k v

/-- Write every pair of `es`, first to last. -/
def Sparse.putAll {κ α : Type} [DecidableEq κ] [DecidableEq α] (lt : κ → κ → Bool) (d : α) (m : List (κ × α))
    (es : List (κ × α)) : List (κ × α) :=
  es.foldl (fun m e => Sparse.put lt d m e.1 e.2) m

/-- List every pair of `es`, first to last (for a map that has no default). -/
def Sparse.insertAll {κ α : Type} [DecidableEq κ] (lt : κ → κ → Bool) (m : List (κ × α))
    (es : List (κ × α)) : List (κ × α) :=
  es.foldl (fun m e => Sparse.insert lt m e.1 e.2) m

/-- The keys rise strictly. -/
def Sparse.sorted {κ α : Type} (lt : κ → κ → Bool) : List (κ × α) → Bool
  | [] => true
  | e :: m => m.all (fun f => lt e.1 f.1) && Sparse.sorted lt m

/-- The canonical form: rising keys, and no entry equal to the default. -/
def Sparse.canonical {κ α : Type} [DecidableEq α] (lt : κ → κ → Bool) (d : α) (m : List (κ × α)) : Bool :=
  Sparse.sorted lt m && m.all fun e => !decide (e.2 = d)

end Sys2Proof
end

