-- ==== Sys2Proof/Machine/Memory.lean ====
section
/-! DEFINITION. VideoMemoryRegion (10_state.md R40, 20_memory.md R100, R101): bytes by address, as a canonical list
of (address, byte) pairs. Every access is one byte. -/

namespace Sys2Proof.Machine

/-- The contents of VideoMemoryRegion: the listed bytes. -/
abbrev Memory := List Host.Cell

/-- DESIGN CHOICE (log 4), unsafe: what a byte that is not listed reads as. -/
def Memory.unlisted : Byte := 0

/-- `MemRead(a, 1)` (00_scope.md R14). -/
def Memory.read (m : Memory) (a : Nat) : Byte := Sparse.getD Memory.unlisted m a

/-- `MemWrite(a, 1, v)` (00_scope.md R14). -/
def Memory.write (m : Memory) (a : Nat) (v : Byte) : Memory := Sparse.put natLt Memory.unlisted m a v

/-- The canonical form: addresses rise strictly and no entry equals what an unlisted address reads as. -/
def Memory.wf (m : Memory) : Bool := Sparse.canonical natLt Memory.unlisted m

/-- Every listed address exists (R40: MEM_SIZE bytes). -/
def Memory.within (memSize : Nat) (m : Memory) : Bool := m.all fun e => decide (e.1 < memSize)

end Sys2Proof.Machine
end

