-- ==== Sys2Proof/Machine/Expr.lean ====
section
/-! DEFINITION. The value of a per-machine function written as data (log 2). -/

namespace Sys2Proof

/-- 1 for true and 0 for false (00_scope.md R14). -/
def boolNat (b : Bool) : Nat := if b then 1 else 0

/-- The value of an expression whose arguments are `env`. A missing argument or table entry is 0. Subtraction stops at 0,
and division by 0 gives 0. -/
def Expr.eval (env : List Nat) : Expr → Nat
  | .lit n => n
  | .var i => env.getD i 0
  | .add a b => a.eval env + b.eval env
  | .sub a b => a.eval env - b.eval env
  | .mul a b => a.eval env * b.eval env
  | .div a b => a.eval env / b.eval env
  | .mod a b => a.eval env % b.eval env
  | .and a b => a.eval env &&& b.eval env
  | .or a b => a.eval env ||| b.eval env
  | .xor a b => a.eval env ^^^ b.eval env
  | .lt a b => boolNat (decide (a.eval env < b.eval env))
  | .eq a b => boolNat (decide (a.eval env = b.eval env))
  | .ite c a b => if c.eval env = 0 then b.eval env else a.eval env
  | .table i values => values.getD (i.eval env) 0

/-- The value of a partial function. -/
def PartialFn.eval (f : PartialFn) (env : List Nat) : Option Nat :=
  if f.defined.eval env = 0 then none else some (f.value.eval env)

/-- Every source byte the pixel function reads at these arguments lies in a source of `len` bytes
(the "defined for" of 00_scope.md R10 and R12). -/
def PixelFn.definedAt (f : PixelFn) (len : Nat) (args : List Nat) : Bool :=
  f.reads.all fun e => decide (e.eval args < len)

/-- The pixel value in [0, 2^bpp) (log 7): `value` over the arguments and then the source bytes read. -/
def PixelFn.eval (f : PixelFn) (src : Nat → Byte) (bpp : Nat) (args : List Nat) : Nat :=
  f.value.eval (args ++ f.reads.map fun e => (src (e.eval args)).toNat) % 2 ^ bpp

end Sys2Proof
end

