-- ==== Sys2Proof/Machine/Params.lean ====
section
/-! DEFINITION. The parameters of 00_scope.md R9 to R13 that are functions or derived values, read off the configuration,
and the check of a command against them (30_encoding.md R160). -/

namespace Sys2Proof

/-- The parameters of tilemap `t`. -/
def Config.tm (c : Config) (t : TileId) : TilemapCfg := c.tilemaps.get t

/-- The tilemap numbers t < NT, in rising order. -/
def Config.tileIds (c : Config) : List TileId := [0, 1, 2, 3].filter fun t => decide (t.toNat < c.nt)

/-- TM_W (R10). -/
def TilemapCfg.tmW (g : TilemapCfg) : Nat := g.cols * g.tileW

/-- TM_H (R10). -/
def TilemapCfg.tmH (g : TilemapCfg) : Nat := g.rows * g.tileH

/-- NTILES (R10). -/
def TilemapCfg.nTiles (g : TilemapCfg) : Nat := g.cols * g.rows

/-- SCAN(col, row) (R10). -/
def TilemapCfg.scanAt (g : TilemapCfg) (col row : Nat) : Nat := g.scan.eval [col, row]

/-- The cells (col, row) of the grid. -/
def TilemapCfg.cells (g : TilemapCfg) : List (Nat × Nat) :=
  (List.range g.rows).flatMap fun row => (List.range g.cols).map fun col => (col, row)

/-- The addresses of the backing bytes of tile `i`, in plane order and rising within a plane (R10, 20_memory.md R102). -/
def TilemapCfg.backingAddrs (g : TilemapCfg) (i : Nat) : List Nat :=
  g.backing.flatMap fun p => (List.range p.nbytes).map fun k => p.base + i * p.nbytes + k

/-- The tiles that address `a` backs, one per plane that holds it (46_interface.md R401). -/
def TilemapCfg.backedTiles (g : TilemapCfg) (a : Nat) : List Nat :=
  (g.backing.filter fun p => decide (p.base ≤ a) && decide (a < p.base + g.nTiles * p.nbytes)).map
    fun p => (a - p.base) / p.nbytes

/-- GFX_SRC = CHARRAM(lo, hi) with lo ≤ a ≤ hi. -/
def TilemapCfg.inCharRam (g : TilemapCfg) (a : Nat) : Bool :=
  match g.gfxSrc with
  | .rom _ => false
  | .charRam lo hi => decide (lo ≤ a) && decide (a ≤ hi)

/-- BLANK_TILE(px, py) (R10). -/
def TilemapCfg.blankAt (g : TilemapCfg) (px py : Nat) : Nat := g.blank.eval [px, py]

/-- A tile as the TileInfoProvider describes it (41_tilemap.md R234). -/
structure TileEntry where
  code : U16
  colorIndex : Byte
  flipX : Bool
  flipY : Bool
  priority : Bool
deriving DecidableEq, Repr

/-- TILE_INFO(i, bytes, gfx_bank) (R10): a `u16` code and a `u8` colour (log 7). -/
def TileInfoFn.eval (f : TileInfoFn) (i : Nat) (bytes : List Byte) (gfxBank : U16) : TileEntry :=
  let env := i :: gfxBank.toNat :: bytes.map (·.toNat)
  { code := BitVec.ofNat 16 (f.code.eval env)
    colorIndex := BitVec.ofNat 8 (f.color.eval env)
    flipX := decide (f.flipX.eval env ≠ 0)
    flipY := decide (f.flipY.eval env ≠ 0)
    priority := decide (f.priority.eval env ≠ 0) }

/-- REG_DECODE(a) (R9): the register id of a bus address, or none. -/
def Config.regDecodeAt (c : Config) (a : Addr) : Option RegId :=
  (c.regDecode.eval [a.toNat]).map (BitVec.ofNat 16)

/-- PAL_ENTRIES (R11). -/
def PalCfg.entries (p : PalCfg) : Nat := p.numBanks * p.bankSize

/-- `off(i, k)` (40_palette.md R200). -/
def PalCfg.off (p : PalCfg) (i k : Nat) : Int := (i : Int) * p.entryStride + (k : Int) * p.planeStride

/-- PAL_RAM_BASE + off(i, k) (40_palette.md R200), in signed integers. -/
def PalCfg.ramPos (p : PalCfg) (i k : Nat) : Int := (p.ramBase : Int) + p.off i k

/-- The address of byte `k` of entry `i` in palette RAM (40_palette.md R200). -/
def PalCfg.ramAddr (p : PalCfg) (i k : Nat) : Nat := (p.ramPos i k).toNat

/-- Every pair (i, k) of a palette entry and a byte number. -/
def PalCfg.pairs (p : PalCfg) : List (Nat × Nat) :=
  (List.range p.entries).flatMap fun i => (List.range p.bytes).map fun k => (i, k)

/-- The palette entry of which address `a` is a byte, when palette RAM exists (20_memory.md R105, 40_palette.md R204). -/
def PalCfg.entryAt (p : PalCfg) (a : Nat) : Option Nat :=
  match p.kind with
  | .staticProm => none
  | .dynamicRam =>
    (List.range p.entries).find? fun i =>
      (List.range p.bytes).any fun k => decide ((a : Int) = p.ramPos i k)

/-- The bytes of a ROM region, or none where it is absent (70_reset_and_hazards.md R481). -/
def Config.region (c : Config) (g : RegionId) : Option (List Byte) := Sparse.find c.regions g

/-- The byte at `i` of a ROM region. -/
def Config.romByte (c : Config) (g : RegionId) (i : Nat) : Byte := ((c.region g).getD []).getD i 0

/-- The colour PROM (R11). -/
def Config.prom (c : Config) : List Byte := (c.region c.pal.promRegion).getD []

/-- The ROM regions the configuration names (R481): one per GFX_SRC[t] = ROM, the sprite graphics, and PROM for
STATIC_PROM. -/
def Config.namedRegions (c : Config) : List RegionId :=
  (c.tileIds.filterMap fun t =>
    match (c.tm t).gfxSrc with
    | .rom g => some g
    | .charRam _ _ => none)
  ++ [c.spr.gfxRegion]
  ++ (match c.pal.kind with
      | .staticProm => [c.pal.promRegion]
      | .dynamicRam => [])

/-- The number of a sign. -/
def Sign.toInt : Sign → Int
  | .plus => 1
  | .minus => -1

/-- CELL_CODE(code, size class, cx, cy) (R12). -/
def SprCfg.cellCodeAt (p : SprCfg) (code size cx cy : Nat) : Nat := p.cellCode.eval [code, size, cx, cy]

/-- The number of a register id that names SCROLL_X[t][i] (30_encoding.md R148). -/
def scrollXId (t : TileId) (i : Nat) : RegId := BitVec.ofNat 16 (0x1000 + 0x400 * t.toNat + i)

/-- The number of a register id that names SCROLL_Y[t][i] (30_encoding.md R148). -/
def scrollYId (t : TileId) (i : Nat) : RegId := BitVec.ofNat 16 (0x2000 + 0x400 * t.toNat + i)

/-- `r` names an assigned SCROLL_X entry: t < NT and i < SCROLL_NX[t] (30_encoding.md R148). -/
def Config.scrollXAssigned (c : Config) (r : RegId) : Bool :=
  decide (0x1000 ≤ r.toNat) && decide (r.toNat ≤ 0x1FFF) &&
  decide ((r.toNat - 0x1000) / 0x400 < c.nt) &&
  decide ((r.toNat - 0x1000) % 0x400 < (c.tm (BitVec.ofNat 2 ((r.toNat - 0x1000) / 0x400))).scrollNX)

/-- `r` names an assigned SCROLL_Y entry: t < NT and i < SCROLL_NY[t] (30_encoding.md R148). -/
def Config.scrollYAssigned (c : Config) (r : RegId) : Bool :=
  decide (0x2000 ≤ r.toNat) && decide (r.toNat ≤ 0x2FFF) &&
  decide ((r.toNat - 0x2000) / 0x400 < c.nt) &&
  decide ((r.toNat - 0x2000) % 0x400 < (c.tm (BitVec.ofNat 2 ((r.toNat - 0x2000) / 0x400))).scrollNY)

/-- `r` is a writable id of 10_state.md R33: ids 0x0000 to 0x0009 and the assigned scroll ids. -/
def Config.writable (c : Config) (r : RegId) : Bool :=
  decide (r.toNat ≤ 0x0009) || c.scrollXAssigned r || c.scrollYAssigned r

/-- A command is legal on a configuration unless it is one of the refusals by value of 30_encoding.md R160:
(b) T ≥ NT on MARKD, MARKA or REDRAW, or (c) ADDR ≥ NTILES[T] on MARKD. -/
def Instr.legal (c : Config) : Instr → Bool
  | .markd t i => decide (t.toNat < c.nt) && decide (i.toNat < (c.tm t).nTiles)
  | .marka t => decide (t.toNat < c.nt)
  | .redraw t _ _ _ _ => decide (t.toNat < c.nt)
  | .nop => true
  | .wmem _ _ => true
  | .wreg _ _ => true
  | .rreg _ => true
  | .tick => true
  | .getfb => true
  | .reset => true
  | .sprites _ _ _ _ => true
  | .compose _ _ _ _ => true
  | .lwrite _ _ => true
  | .boundary _ => true

end Sys2Proof
end

