-- ==== Sys2Proof/Machine/Registers.lean ====
section
/-! DEFINITION. The applied values of the writable registers (10_state.md R33), each under its own name, and their
reset values. -/

namespace Sys2Proof.Machine

/-- PALETTE_BANK. -/
def idPaletteBank : RegId := 0x0000
/-- GFX_BANK. -/
def idGfxBank : RegId := 0x0001
/-- MODE_FLAGS. -/
def idModeFlags : RegId := 0x0002
/-- IRQ_LINE. -/
def idIrqLine : RegId := 0x0003
/-- VTOTAL. -/
def idVtotal : RegId := 0x0004
/-- HTOTAL. -/
def idHtotal : RegId := 0x0005
/-- VIS_TOP. -/
def idVisTop : RegId := 0x0006
/-- VIS_BOTTOM. -/
def idVisBottom : RegId := 0x0007
/-- VIS_LEFT. -/
def idVisLeft : RegId := 0x0008
/-- VIS_RIGHT. -/
def idVisRight : RegId := 0x0009
/-- SCANLINE, read only. -/
def idScanline : RegId := 0x0010
/-- LIGHTPEN_X, read only. -/
def idLightpenX : RegId := 0x0011
/-- LIGHTPEN_Y, read only. -/
def idLightpenY : RegId := 0x0012

/-- `active` (10_state.md R30, R33): the applied values. `scroll` holds SCROLL_X and SCROLL_Y by register id
(30_encoding.md R148), listing those that are not 0. -/
structure Regs where
  paletteBank : U16
  gfxBank : U16
  modeFlags : U16
  irqLine : U16
  vtotal : U16
  htotal : U16
  visTop : U16
  visBottom : U16
  visLeft : U16
  visRight : U16
  scroll : List (RegId × U16)
deriving DecidableEq, Repr

/-- The reset values of 10_state.md R33. -/
def Regs.atReset (c : Config) : Regs where
  paletteBank := 0
  gfxBank := 0
  modeFlags := 0
  irqLine := 0
  vtotal := c.vtotalRst
  htotal := c.htotalRst
  visTop := c.visTopRst
  visBottom := c.visBottomRst
  visLeft := c.visLeftRst
  visRight := c.visRightRst
  scroll := []

/-- `active[r]` for a writable id. -/
def Regs.get (g : Regs) (r : RegId) : U16 :=
  if r = idPaletteBank then g.paletteBank
  else if r = idGfxBank then g.gfxBank
  else if r = idModeFlags then g.modeFlags
  else if r = idIrqLine then g.irqLine
  else if r = idVtotal then g.vtotal
  else if r = idHtotal then g.htotal
  else if r = idVisTop then g.visTop
  else if r = idVisBottom then g.visBottom
  else if r = idVisLeft then g.visLeft
  else if r = idVisRight then g.visRight
  else Sparse.getD 0 g.scroll r

/-- `active[r] <- v` for a writable id. -/
def Regs.set (g : Regs) (r : RegId) (v : U16) : Regs :=
  if r = idPaletteBank then { g with paletteBank := v }
  else if r = idGfxBank then { g with gfxBank := v }
  else if r = idModeFlags then { g with modeFlags := v }
  else if r = idIrqLine then { g with irqLine := v }
  else if r = idVtotal then { g with vtotal := v }
  else if r = idHtotal then { g with htotal := v }
  else if r = idVisTop then { g with visTop := v }
  else if r = idVisBottom then { g with visBottom := v }
  else if r = idVisLeft then { g with visLeft := v }
  else if r = idVisRight then { g with visRight := v }
  else { g with scroll := Sparse.put idLt 0 g.scroll r v }

/-- Write the buffered values, keyed by register id, over the applied ones (43_latch.md R326). -/
def Regs.apply (g : Regs) (pending : List (RegId × U16)) : Regs :=
  pending.foldr (fun e g => g.set e.1 e.2) g

/-- SX: `active[SCROLL_X[t][·]]` (41_tilemap.md R238). -/
def Regs.scrollX (g : Regs) (c : Config) (t : TileId) : List U16 :=
  (List.range (c.tm t).scrollNX).map fun i => g.get (scrollXId t i)

/-- SY: `active[SCROLL_Y[t][·]]` (41_tilemap.md R238). -/
def Regs.scrollY (g : Regs) (c : Config) (t : TileId) : List U16 :=
  (List.range (c.tm t).scrollNY).map fun i => g.get (scrollYId t i)

end Sys2Proof.Machine
end

