-- ==== Sys2Proof/Machine/TestConfig.lean ====
section
/-! DEFINITION. The test configuration TC and its variants (95_test_vectors.md section 1), the one configuration the
spec writes out. State.reset is the machine built on TC (log 1). -/

namespace Sys2Proof

/-- The ROM region "tiles". -/
def regionTiles : RegionId := 0

/-- The ROM region "sprites". -/
def regionSprites : RegionId := 1

/-- The ROM region "prom" of TC-P. -/
def regionProm : RegionId := 2

/-- TILE_ROM: the pixel of code c at (px, py) is byte 4c + 2py + px. -/
def tcTileRom : List Byte :=
  [0, 0, 0, 0,
   1, 2, 3, 0,
   3, 3, 3, 3,
   0, 1, 0, 1]

/-- SPR_ROM: the pixel of code c at (px, py) is byte 4c + 2py + px. -/
def tcSpriteRom : List Byte :=
  [0, 0, 0, 0,
   1, 2, 1, 0,
   2, 2, 2, 2,
   3, 3, 0, 0,
   1, 1, 1, 1,
   2, 0, 0, 2,
   1, 2, 1, 2,
   2, 1, 2, 1]

/-- The index 4·code + 2·py + px, from the positions of the three arguments. -/
def tcPixelIndex (code px py : Nat) : Expr :=
  .add (.add (.mul (.lit 4) (.var code)) (.mul (.lit 2) (.var py))) (.var px)

/-- Tilemap 0 of TC. -/
def tcTilemap : TilemapCfg where
  cols := 4
  rows := 4
  tileW := 2
  tileH := 2
  scan := .add (.mul (.lit 4) (.var 1)) (.var 0)
  backing := [⟨0x00, 1⟩, ⟨0x10, 1⟩]
  tileInfo :=
    { code := .add (.var 2) (.mul (.lit 2) (.var 1))
      color := .and (.var 3) (.lit 3)
      flipX := .and (.var 3) (.lit 0x10)
      flipY := .and (.var 3) (.lit 0x20)
      priority := .and (.var 3) (.lit 0x80) }
  gfxSrc := .rom regionTiles
  numCodes := 4
  bpp := 2
  gfxPixel := { reads := [tcPixelIndex 0 1 2], value := .var 3 }
  tpen := some 0
  blank := .lit 0
  penBase := 0
  scrollNX := 8
  scrollNY := 1
  rowscrollGroup := 1

/-- The palette of TC. -/
def tcPal : PalCfg where
  kind := .dynamicRam
  numBanks := 2
  bankSize := 16
  bytes := 1
  entryStride := 1
  planeStride := 0
  chR := [⟨0, 0, 0x21⟩, ⟨0, 1, 0x47⟩, ⟨0, 2, 0x97⟩]
  chG := [⟨0, 3, 0x21⟩, ⟨0, 4, 0x47⟩, ⟨0, 5, 0x97⟩]
  chB := [⟨0, 6, 0x51⟩, ⟨0, 7, 0xAE⟩]
  promRegion := regionProm
  promLenMin := 256
  ramBase := 0x80

/-- The sprites of TC. -/
def tcSpr : SprCfg where
  num := 2
  base := 0x40
  stride := 4
  fields :=
    { code := some [⟨2, 7, 0⟩]
      color := some [⟨3, 3, 2⟩]
      x := some [⟨1, 7, 0⟩]
      y := some [⟨0, 7, 0⟩]
      size := some [⟨3, 4, 4⟩]
      flipX := some [⟨3, 0, 0⟩]
      flipY := some [⟨3, 1, 1⟩]
      priority := some [⟨3, 5, 5⟩]
      bank := some [⟨3, 6, 6⟩]
      enable := some [⟨3, 7, 7⟩] }
  seq := .descending
  xSign := .plus
  ySign := .plus
  xOff := 0
  yOff := 0
  sizes := [(2, 2), (4, 4)]
  cellW := 2
  cellH := 2
  cellCode := .add (.add (.var 0) (.var 2)) (.mul (.lit 2) (.var 3))
  numBanks := 1
  codes := 8
  bpp := 2
  gfxRegion := regionSprites
  gfxPixel := { reads := [tcPixelIndex 1 2 3], value := .var 4 }
  tpen := 0
  maskPen := some 3
  penBase := 8
  wrapX := true
  wrapY := true
  wrapW := 8
  wrapH := 8
  flipW := 8
  flipH := 8

/-- The test configuration TC. -/
def tc : Config where
  nt := 1
  memSize := 256
  fbW := 8
  fbH := 8
  pixelClock := 128
  htotalRst := 16
  vtotalRst := 10
  visTopRst := 0
  visBottomRst := 7
  visLeftRst := 0
  visRightRst := 7
  latchPeriod := .perScanline
  regDecode := { defined := .lt (.var 0) (.lit 0x10000), value := .var 0 }
  vecVblank := 0x10
  vecRaster := 0x11
  tilemaps := Quad.all tcTilemap
  pal := tcPal
  spr := tcSpr
  slots := [.tile 0 .back, .sprite .any, .tile 0 .front]
  bgPen := 0
  overlayEn := false
  overlay := .xs
  starSeed := 0x12345678
  regions := [(regionTiles, tcTileRom), (regionSprites, tcSpriteRom)]

/-- The variant TC-F: LATCH_PERIOD = PER_FRAME. -/
def tcF : Config := { tc with latchPeriod := .perFrame }

/-- The variant TC-P: a static palette from the given PROM. -/
def tcP (prom : List Byte) : Config :=
  { tc with
    pal := { tcPal with kind := .staticProm }
    regions := tc.regions ++ [(regionProm, prom)] }

/-- The variant TC-256: a screen of 256 by 1 pixels and opaque sprites of 16 by 1. -/
def tc256 : Config :=
  { tc with
    fbW := 256
    fbH := 1
    visRightRst := 255
    visBottomRst := 0
    spr := { tcSpr with
      wrapW := 256
      flipW := 256
      sizes := [(16, 1), (16, 1)]
      cellW := 16
      cellH := 1
      gfxPixel := { reads := [], value := .lit 1 } } }

end Sys2Proof
end

