-- ==== Sys2Proof/Machine/State.lean ====
section
/-! DEFINITION. The state of one machine instance (10_state.md R30) as plain data, the reasons the model can stop, and the
state after reset. -/

namespace Sys2Proof.Machine

/-- An element of the tile cache or of a layer buffer (10_state.md R50, R52). -/
structure CachePixel where
  pen : U16
  opaq : Bool
  prio : Bool
deriving DecidableEq, Repr

/-- An element of the sprite layer (10_state.md R54). `blank` is the spec's `None`. -/
inductive SprPixel where
  | blank
  | pix (pen prio : U16)
  | mask (prio : U16)
deriving DecidableEq, Repr

/-- A colour (10_state.md R56, R58). -/
structure Rgb where
  r : Byte
  g : Byte
  b : Byte
deriving DecidableEq, Repr

/-- A map from pixels (y, x) to values, listing what differs from a default (log 10). -/
abbrev PixMap (α : Type) := List ((Nat × Nat) × α)

/-- A FrameBuffer or a snapshot of one (10_state.md R58, R59): the pixels that are not (0, 0, 0). -/
abbrev Frame := PixMap Rgb

/-- The state of one tilemap (10_state.md R48 to R52). -/
structure Tilemap where
  /-- `dirty[t]`: the tile indices whose bit is 1. -/
  dirty : List (Nat × Bool)
  /-- `all_dirty[t]`. -/
  allDirty : Bool
  /-- `cache[t]`, by (Y, X) in tilemap space. What is not listed holds no value (R51, log 6). -/
  cache : PixMap CachePixel
  /-- `layer[t]`, by (y, x) in screen space. -/
  layer : PixMap CachePixel
deriving DecidableEq, Repr

/-- The reset value of every layer element (10_state.md R52). -/
def CachePixel.zero : CachePixel := ⟨0, false, false⟩

/-- The reset value of every palette entry and FrameBuffer pixel (70_reset_and_hazards.md R480). -/
def Rgb.black : Rgb := ⟨0, 0, 0⟩

/-- A tilemap after initialise: no bit dirty, all dirty, no cached value, an empty layer (70_reset_and_hazards.md R480). -/
def Tilemap.atReset : Tilemap := ⟨[], true, [], []⟩

/-- The interrupt lines (60_exceptions.md R450). -/
inductive IrqLine where
  /-- Line 0. -/
  | vblank
  /-- Line 1. -/
  | raster
deriving DecidableEq, Repr

/-- The number of an interrupt line (60_exceptions.md R450). -/
def IrqLine.number : IrqLine → Nat
  | .vblank => 0
  | .raster => 1

/-- An event of the output trace (10_state.md R70). -/
inductive Event where
  /-- `Interrupt(line, vector)`. -/
  | interrupt (line : IrqLine) (vector : U16)
  /-- `ReadData(v)`. -/
  | readData (v : U16)
  /-- `Frame(f)`. -/
  | frame (f : Option Frame)
  /-- `PartialRedraw(N)`. -/
  | partialRedraw (n : U16)
deriving DecidableEq, Repr

/-- The fatal errors (60_exceptions.md R440). -/
inductive FatalError where
  | invalidPromSize
  | missingGraphicsRegion
  | schedulerReentrancyViolation
deriving DecidableEq, Repr

/-- The code of a fatal error (60_exceptions.md R440). -/
def FatalError.code : FatalError → Byte
  | .invalidPromSize => 1
  | .missingGraphicsRegion => 2
  | .schedulerReentrancyViolation => 3

/-- The state record of 10_state.md R30, and four fields of the model's own: `cfg`, `stream`, `hostDraws`, `draws`. -/
structure State where
  /-- MODEL (log 1): the configuration this machine was built on (00_scope.md R8). No step writes it. -/
  cfg : Config
  /-- `mem` (R40). -/
  mem : Memory
  /-- `active` (R33). -/
  active : Regs
  /-- `pending` (R34): the buffered writes, by register id. What is not listed is `⊥`. -/
  pending : List (RegId × U16)
  /-- `irq_armed` (R36). -/
  irqArmed : Bool
  /-- `latch_irq` (R37). -/
  latchIrq : Bool
  /-- `last_boundary` (R38). -/
  lastBoundary : Option U16
  /-- `counter` (R31). -/
  counter : U16
  /-- `frame_count` (R39). -/
  frameCount : U32
  /-- `dirty[t]`, `all_dirty[t]`, `cache[t]`, `layer[t]` (R48 to R52). -/
  tilemaps : Quad Tilemap
  /-- `spr` (R54). -/
  spr : PixMap SprPixel
  /-- `pal` (R56): the entries that are not (0, 0, 0). -/
  pal : List (Nat × Rgb)
  /-- `fb` (R58). -/
  fb : Frame
  /-- `completed` (R59). -/
  completed : Option Frame
  /-- `halted` (R60). -/
  halted : Bool
  /-- `fatal_code` (R60). -/
  fatalCode : Option Byte
  /-- `refused` (R61). -/
  refused : Bool
  /-- `trace` (R70), oldest event first. -/
  trace : List Event
  /-- MODEL (log 3): the command words still to be executed, the next one first (46_interface.md R430). -/
  stream : List Cmd
  /-- MODEL (log 5): the values the host has ready for the next drawn reads (46_interface.md R404). -/
  hostDraws : List U16
  /-- MODEL (log 5): how many free values have been drawn. -/
  draws : Nat
deriving DecidableEq, Repr

/-- The reasons a step stops with a fault. -/
inductive Fault where
  /-- A redraw would read a tile cache pixel that holds no value (10_state.md R51). Raised by REDRAW and TICK only, and
  never from a well-formed configuration whose clean cells are decoded. Safe: the model stops. -/
  | unwrittenCachePixel
deriving DecidableEq, Repr

/-- The reasons for a refusal. -/
inductive Refusal where
  /-- An instruction without a meaning. No arm raises it: every command has its meaning. Safe. -/
  | notModelled (mnemonic : String)
  /-- A configuration or launch memory that fails 70_reset_and_hazards.md R481 step 1: no machine is built. Raised by
  `State.build` only, by no step. Safe. -/
  | configRejected
deriving DecidableEq, Repr

/-- The machine right after reset (70_reset_and_hazards.md R480, R483), on the configuration TC (log 1) with a launch
memory of zeros (log 4) and an empty command stream (log 3). -/
def State.reset : State where
  cfg := tc
  mem := []
  active := Regs.atReset tc
  pending := []
  irqArmed := false
  latchIrq := false
  lastBoundary := none
  counter := tc.vtotalRst - 1
  frameCount := 0
  tilemaps := Quad.all Tilemap.atReset
  spr := []
  pal := []
  fb := []
  completed := none
  halted := false
  fatalCode := none
  refused := false
  trace := []
  stream := []
  hostDraws := []
  draws := 0

end Sys2Proof.Machine
end

