-- ==== Sys2Proof/WellFormed.lean ====
section
/-! DEFINITION. The checks on a configuration (70_reset_and_hazards.md R481 step 1: every constraint of 00_scope.md R9
to R13 and the extra checks). Constraints that the TYPE of a parameter already says (16-bit values, a sign of +1 or
-1, LATCH_PERIOD) need no check. The check on a command (30_encoding.md R160 cases (b) and (c)) is `Instr.legal` in
Machine/Params.lean. -/

namespace Sys2Proof

/-- The named checks of R481 step 1. -/
inductive ConfigCheck where
  /-- R9: 1 ≤ NT ≤ 4. -/
  | ntRange
  /-- R9: 1 ≤ MEM_SIZE ≤ 2^30. -/
  | memSizeRange
  /-- R9: 1 ≤ FB_W, FB_H ≤ 4096. -/
  | fbRange
  /-- R9: PIXEL_CLOCK > 0. -/
  | pixelClockPositive
  /-- R9: 1 ≤ HTOTAL_RST, VTOTAL_RST. -/
  | totalsPositive
  /-- R10: COLS, ROWS ≥ 1 and COLS·ROWS ≤ 2^30. -/
  | gridRange
  /-- R10: TILE_W, TILE_H ≥ 1 and TM_W, TM_H ≤ 65536. -/
  | tileRange
  /-- R10: SCAN is a bijection onto [0, NTILES). -/
  | scanBijective
  /-- R10: every plane has nbytes ≥ 1 and every backing byte is below MEM_SIZE. -/
  | backingInMemory
  /-- R10: CHARRAM(lo, hi) is an address range of VideoMemoryRegion. -/
  | charRamInMemory
  /-- R10: NUM_CODES ≥ 1. -/
  | numCodesPositive
  /-- R10: 1 ≤ TILE_BPP ≤ 8. -/
  | tileBppRange
  /-- R10, R481: GFX_PIXEL is defined for every code, px and py (on a region that is present). -/
  | gfxPixelDefined
  /-- R10: every value of BLANK_TILE is below 2^TILE_BPP. -/
  | blankTileRange
  /-- R10: TILE_PEN_BASE < PAL_BANK_SIZE. -/
  | tilePenBaseRange
  /-- R10: 1 ≤ SCROLL_NX, SCROLL_NY ≤ 1024. -/
  | scrollCountRange
  /-- R10: ROWSCROLL_GROUP ≥ 1. -/
  | rowscrollGroupPositive
  /-- R11: NUM_PAL_BANKS, PAL_BANK_SIZE ≥ 1. -/
  | palBanksPositive
  /-- R11: PAL_ENTRIES ≤ 65536. -/
  | palEntriesRange
  /-- R11: 1 ≤ PAL_BYTES ≤ 4. -/
  | palBytesRange
  /-- R11: the map (i, k) to offset is injective. -/
  | palOffsetsInjective
  /-- R11: every CH_TABLE entry has k < PAL_BYTES and a bit position 0..7. -/
  | chTableRange
  /-- R11: PROM_LEN_MIN ≥ 1. -/
  | promLenPositive
  /-- R481: every palette offset lies below PROM_LEN_MIN, or inside VideoMemoryRegion. -/
  | palOffsetsInside
  /-- R12: every sprite record byte is below MEM_SIZE. -/
  | sprRecordsInMemory
  /-- R12: every SPR_FIELD segment has byte < SPR_STRIDE and 7 ≥ hi ≥ lo. -/
  | sprSegmentsRange
  /-- R12: every index that SPR_SEQ can give is below NUM_SPRITES. -/
  | sprSeqRange
  /-- R12: every SIZE_TABLE entry is a positive multiple of the cell size. -/
  | sizesAreCells
  /-- R12: CELL_W, CELL_H ≥ 1. -/
  | cellPositive
  /-- R12: NUM_SPR_BANKS, SPR_CODES ≥ 1. -/
  | sprCodesPositive
  /-- R12: 1 ≤ SPR_BPP ≤ 8. -/
  | sprBppRange
  /-- R12, R481: SGFX_PIXEL is defined for every bank, code, px and py (on a region that is present). -/
  | sgfxPixelDefined
  /-- R12: SPR_TPEN < 2^SPR_BPP. -/
  | sprTpenRange
  /-- R12: SPR_MASK_PEN is not SPR_TPEN. -/
  | maskPenDistinct
  /-- R12: SPR_PEN_BASE < PAL_BANK_SIZE. -/
  | sprPenBaseRange
  /-- R12: SPR_WRAP_W, SPR_WRAP_H ≥ 1. -/
  | wrapPositive
  /-- R12: SPR_FLIP_W, SPR_FLIP_H ≥ 1. -/
  | flipPositive
  /-- R13: at least one slot. -/
  | slotsNonempty
  /-- R481: every slot names a tilemap t < NT. -/
  | slotsNameTilemaps
  /-- R13: BG_PEN < PAL_BANK_SIZE. -/
  | bgPenRange
deriving DecidableEq, Repr

/-- Every named check, in the order of the tables. -/
def ConfigCheck.list : List ConfigCheck :=
  [.ntRange, .memSizeRange, .fbRange, .pixelClockPositive, .totalsPositive,
   .gridRange, .tileRange, .scanBijective, .backingInMemory, .charRamInMemory, .numCodesPositive, .tileBppRange,
   .gfxPixelDefined, .blankTileRange, .tilePenBaseRange, .scrollCountRange, .rowscrollGroupPositive,
   .palBanksPositive, .palEntriesRange, .palBytesRange, .palOffsetsInjective, .chTableRange, .promLenPositive,
   .palOffsetsInside,
   .sprRecordsInMemory, .sprSegmentsRange, .sprSeqRange, .sizesAreCells, .cellPositive, .sprCodesPositive,
   .sprBppRange, .sgfxPixelDefined, .sprTpenRange, .maskPenDistinct, .sprPenBaseRange, .wrapPositive, .flipPositive,
   .slotsNonempty, .slotsNameTilemaps, .bgPenRange]

/-- `lo ≤ v ≤ hi`. -/
def between (lo v hi : Nat) : Bool := decide (lo ≤ v) && decide (v ≤ hi)

/-- SCAN is a bijection from the cells onto [0, NTILES): every value is in range and no two cells share one. -/
def TilemapCfg.scanBijective (g : TilemapCfg) : Bool :=
  g.cells.all (fun p => decide (g.scanAt p.1 p.2 < g.nTiles)) &&
  g.cells.all fun p => g.cells.all fun q => decide (g.scanAt p.1 p.2 = g.scanAt q.1 q.2 → p = q)

/-- The number of source bytes of GFX_SRC, or none where its ROM region is absent. -/
def Config.gfxLength (c : Config) (g : TilemapCfg) : Option Nat :=
  match g.gfxSrc with
  | .rom r => (c.region r).map (·.length)
  | .charRam lo hi => some (hi + 1 - lo)

/-- GFX_PIXEL is defined for code < NUM_CODES, px < TILE_W, py < TILE_H. An absent region is left to the region check. -/
def Config.gfxPixelDefined (c : Config) (g : TilemapCfg) : Bool :=
  match c.gfxLength g with
  | none => true
  | some len =>
    (List.range g.numCodes).all fun code =>
      (List.range g.tileW).all fun px => (List.range g.tileH).all fun py => g.gfxPixel.definedAt len [code, px, py]

/-- SGFX_PIXEL is defined for bank < NUM_SPR_BANKS, code < SPR_CODES, px < CELL_W, py < CELL_H. -/
def Config.sgfxPixelDefined (c : Config) : Bool :=
  match c.region c.spr.gfxRegion with
  | none => true
  | some rom =>
    (List.range c.spr.numBanks).all fun bank => (List.range c.spr.codes).all fun code =>
      (List.range c.spr.cellW).all fun px => (List.range c.spr.cellH).all fun py =>
        c.spr.gfxPixel.definedAt rom.length [bank, code, px, py]

/-- BLANK_TILE(px, py) < 2^TILE_BPP for px < TILE_W, py < TILE_H. -/
def TilemapCfg.blankInRange (g : TilemapCfg) : Bool :=
  (List.range g.tileW).all fun px => (List.range g.tileH).all fun py => decide (g.blankAt px py < 2 ^ g.bpp)

/-- Every index that SPR_SEQ can give is below NUM_SPRITES. The standard orders and a sort give no other index. -/
def SprCfg.seqInRange (p : SprCfg) : Bool :=
  match p.seq with
  | .ascending => true
  | .descending => true
  | .sortBy _ => true
  | .listed items => items.all fun f => decide (f.index < p.num)

/-- The segments of every field of SPR_FIELD. -/
def SprFields.segments (f : SprFields) : List Seg :=
  [f.code, f.color, f.x, f.y, f.size, f.flipX, f.flipY, f.priority, f.bank, f.enable].flatMap fun o => o.getD []

/-- What a named check asks of a configuration. -/
def ConfigCheck.holds (c : Config) : ConfigCheck → Bool
  | .ntRange => between 1 c.nt 4
  | .memSizeRange => between 1 c.memSize (2 ^ 30)
  | .fbRange => between 1 c.fbW 4096 && between 1 c.fbH 4096
  | .pixelClockPositive => decide (0 < c.pixelClock)
  | .totalsPositive => decide (1 ≤ c.htotalRst.toNat) && decide (1 ≤ c.vtotalRst.toNat)
  | .gridRange => c.tileIds.all fun t =>
      decide (1 ≤ (c.tm t).cols) && decide (1 ≤ (c.tm t).rows) && decide ((c.tm t).nTiles ≤ 2 ^ 30)
  | .tileRange => c.tileIds.all fun t =>
      decide (1 ≤ (c.tm t).tileW) && decide (1 ≤ (c.tm t).tileH) &&
      decide ((c.tm t).tmW ≤ 65536) && decide ((c.tm t).tmH ≤ 65536)
  | .scanBijective => c.tileIds.all fun t => (c.tm t).scanBijective
  | .backingInMemory => c.tileIds.all fun t => (c.tm t).backing.all fun p =>
      decide (1 ≤ p.nbytes) && decide (p.base + (c.tm t).nTiles * p.nbytes ≤ c.memSize)
  | .charRamInMemory => c.tileIds.all fun t =>
      match (c.tm t).gfxSrc with
      | .rom _ => true
      | .charRam lo hi => decide (lo ≤ hi) && decide (hi < c.memSize)
  | .numCodesPositive => c.tileIds.all fun t => decide (1 ≤ (c.tm t).numCodes)
  | .tileBppRange => c.tileIds.all fun t => between 1 (c.tm t).bpp 8
  | .gfxPixelDefined => c.tileIds.all fun t => c.gfxPixelDefined (c.tm t)
  | .blankTileRange => c.tileIds.all fun t => (c.tm t).blankInRange
  | .tilePenBaseRange => c.tileIds.all fun t => decide ((c.tm t).penBase < c.pal.bankSize)
  | .scrollCountRange => c.tileIds.all fun t => between 1 (c.tm t).scrollNX 1024 && between 1 (c.tm t).scrollNY 1024
  | .rowscrollGroupPositive => c.tileIds.all fun t => decide (1 ≤ (c.tm t).rowscrollGroup)
  | .palBanksPositive => decide (1 ≤ c.pal.numBanks) && decide (1 ≤ c.pal.bankSize)
  | .palEntriesRange => decide (c.pal.entries ≤ 65536)
  | .palBytesRange => between 1 c.pal.bytes 4
  | .palOffsetsInjective => c.pal.pairs.all fun p => c.pal.pairs.all fun q =>
      decide (c.pal.off p.1 p.2 = c.pal.off q.1 q.2 → p = q)
  | .chTableRange => (c.pal.chR ++ c.pal.chG ++ c.pal.chB).all fun w =>
      decide (w.k < c.pal.bytes) && decide (w.bit ≤ 7)
  | .promLenPositive => decide (1 ≤ c.pal.promLenMin)
  | .palOffsetsInside =>
      match c.pal.kind with
      | .staticProm => c.pal.pairs.all fun p => decide (0 ≤ c.pal.off p.1 p.2) && decide (c.pal.off p.1 p.2 < c.pal.promLenMin)
      | .dynamicRam => c.pal.pairs.all fun p =>
          decide (0 ≤ c.pal.ramPos p.1 p.2) && decide (c.pal.ramPos p.1 p.2 < c.memSize)
  | .sprRecordsInMemory => decide (c.spr.num = 0) || decide (c.spr.base + c.spr.num * c.spr.stride ≤ c.memSize)
  | .sprSegmentsRange => c.spr.fields.segments.all fun g =>
      decide (g.byte < c.spr.stride) && decide (g.lo ≤ g.hi) && decide (g.hi ≤ 7)
  | .sprSeqRange => c.spr.seqInRange
  | .sizesAreCells => c.spr.sizes.all fun p =>
      decide (1 ≤ p.1) && decide (1 ≤ p.2) && decide (p.1 % c.spr.cellW = 0) && decide (p.2 % c.spr.cellH = 0)
  | .cellPositive => decide (1 ≤ c.spr.cellW) && decide (1 ≤ c.spr.cellH)
  | .sprCodesPositive => decide (1 ≤ c.spr.numBanks) && decide (1 ≤ c.spr.codes)
  | .sprBppRange => between 1 c.spr.bpp 8
  | .sgfxPixelDefined => c.sgfxPixelDefined
  | .sprTpenRange => decide (c.spr.tpen < 2 ^ c.spr.bpp)
  | .maskPenDistinct => decide (c.spr.maskPen ≠ some c.spr.tpen)
  | .sprPenBaseRange => decide (c.spr.penBase < c.pal.bankSize)
  | .wrapPositive => decide (1 ≤ c.spr.wrapW) && decide (1 ≤ c.spr.wrapH)
  | .flipPositive => decide (1 ≤ c.spr.flipW) && decide (1 ≤ c.spr.flipH)
  | .slotsNonempty => !c.slots.isEmpty
  | .slotsNameTilemaps => c.slots.all fun
      | .tile t _ => decide (t.toNat < c.nt)
      | .sprite _ => true
      | .overlay => true
  | .bgPenRange => decide (c.bgPen < c.pal.bankSize)

/-- `check_config` (R481): every named check holds. -/
def Config.wf (c : Config) : Bool := ConfigCheck.list.all fun k => k.holds c

end Sys2Proof
end

