-- ==== Sys2Proof/Machine/Ops.lean ====
section
/-! DEFINITION. The named operations over the state that the blocks share: events, refusal, the fatal halt (this hardware's
only exception, 60_exceptions.md R441; there is no return from it, R448), per-tilemap access, drawn values, and
the dispatch of one command (46_interface.md R430). -/

namespace Sys2Proof.Machine

/-- The outcome of a step. -/
abbrev Out := Host.Outcome State Fault Refusal

/-- Run `f` where `o` answers a next state. -/
def andThen (o : Out) (f : State → Out) : Out :=
  match o with
  | .next s => f s
  | .fault r => .fault r
  | .refused r => .refused r

/-- `emit e`: append an event to the trace (10_state.md R70). -/
def State.emit (e : Event) (s : State) : State := { s with trace := s.trace ++ [e] }

/-- The refusal of an illegal command word (30_encoding.md R160): the mark, and nothing else. -/
def State.refuse (s : State) : State := { s with refused := true }

/-- `raise Fatal(code)` (60_exceptions.md R441): the halt and its code. The command that raises it ends here. -/
def State.raiseFatal (e : FatalError) (s : State) : State :=
  { s with halted := true, fatalCode := some e.code }

/-- The state of tilemap `t`. -/
def State.tm (s : State) (t : TileId) : Tilemap := s.tilemaps.get t

/-- `s` with the state of tilemap `t` replaced. -/
def State.setTm (t : TileId) (v : Tilemap) (s : State) : State := { s with tilemaps := s.tilemaps.set t v }

/-- Apply `f` to the tilemaps of `ids`, first to last. -/
def mapTilemaps (f : TileId → Tilemap → Tilemap) (ids : List TileId) (q : Quad Tilemap) : Quad Tilemap :=
  ids.foldl (fun q t => q.set t (f t (q.get t))) q

/-- The value of the next drawn read (46_interface.md R404; log 5): the host's next value, or a free one. -/
def State.drawValue (s : State) : U16 :=
  match s.hostDraws with
  | v :: _ => v
  | [] => Config.freeDraw s.draws

/-- The state after a value has been drawn (log 5). -/
def State.afterDraw (s : State) : State :=
  match s.hostDraws with
  | _ :: rest => { s with hostDraws := rest }
  | [] => { s with draws := s.draws + 1 }

/-- One decoded command (46_interface.md R430): an illegal one is refused, a halted machine ignores it (R432),
and otherwise it has its effect. -/
def command (i : Instr) (effect : State → Out) (s : State) : Out :=
  if i.legal s.cfg then
    if s.halted then .next s else effect s
  else .next s.refuse

end Sys2Proof.Machine
end

