-- ==== Sys2Proof/Machine/Palette.lean ====
section
/-! DEFINITION. The palette and colour decoder (40_palette.md). -/

namespace Sys2Proof.Machine

/-- `clamp(v, lo, hi)` (00_scope.md R14). -/
def clampInt (v lo hi : Int) : Int := min (max v lo) hi

/-- `chan(c)` of R202: the exact weighted sum of the selected bits, clamped to [0, 255]. -/
def chan (table : List ChWeight) (b : List Byte) : Byte :=
  BitVec.ofInt 8 (clampInt ((table.map fun w => if (b.getD w.k 0).getLsbD w.bit then w.weight else 0).sum) 0 255)

/-- `entry_rgb` (R202). -/
def entryRgb (p : PalCfg) (b : List Byte) : Rgb := ⟨chan p.chR b, chan p.chG b, chan p.chB b⟩

/-- `raw(i, k)` (R200). -/
def rawByte (c : Config) (m : Memory) (i k : Nat) : Byte :=
  match c.pal.kind with
  | .staticProm => c.prom.getD (c.pal.off i k).toNat 0
  | .dynamicRam => m.read (c.pal.ramAddr i k)

/-- `raw(i, 0), ..., raw(i, PAL_BYTES-1)` (R200). -/
def rawBytes (c : Config) (m : Memory) (i : Nat) : List Byte :=
  (List.range c.pal.bytes).map fun k => rawByte c m i k

/-- The palette in which every entry is the decode of its raw bytes (R201, R205). -/
def decodePalette (c : Config) (m : Memory) : List (Nat × Rgb) :=
  Sparse.putAll natLt Rgb.black [] ((List.range c.pal.entries).map fun i => (i, entryRgb c.pal (rawBytes c m i)))

/-- `write_dynamic(i, b)` (R203): entry `i` only. -/
def writeDynamic (p : PalCfg) (i : Nat) (b : List Byte) (pal : List (Nat × Rgb)) : List (Nat × Rgb) :=
  Sparse.put natLt Rgb.black pal i (entryRgb p b)

/-- The palette write path (R204): what a write to address `a` does to `pal`, with `m` the memory after the store. -/
def paletteAfterWrite (c : Config) (m : Memory) (a : Nat) (pal : List (Nat × Rgb)) : List (Nat × Rgb) :=
  match c.pal.entryAt a with
  | some i => writeDynamic c.pal i (rawBytes c m i) pal
  | none => pal

/-- `bank_base` (R206). -/
def bankBase (c : Config) (g : Regs) : Nat := (g.paletteBank.toNat % c.pal.numBanks) * c.pal.bankSize

/-- `pen_of(base, color, bpp, v)` (R206). -/
def penOf (c : Config) (g : Regs) (base color bpp v : Nat) : U16 :=
  BitVec.ofNat 16 (bankBase c g + (base + color * 2 ^ bpp + v) % c.pal.bankSize)

/-- `rgb(p) = pal[p]` (R207). -/
def State.rgb (s : State) (pen : Nat) : Rgb := Sparse.getD Rgb.black s.pal pen

/-- `decode_static(PROM)` (R201): a PROM that is too short is fatal before any entry is written. -/
def State.decodeStatic (s : State) : State :=
  if s.cfg.prom.length < s.cfg.pal.promLenMin then s.raiseFatal .invalidPromSize
  else { s with pal := decodePalette s.cfg s.mem }

/-- Step 4 of initialisation (70_reset_and_hazards.md R480): the palette by PAL_KIND (R201, R205). -/
def State.initPalette (s : State) : State :=
  match s.cfg.pal.kind with
  | .staticProm => s.decodeStatic
  | .dynamicRam => { s with pal := decodePalette s.cfg s.mem }

end Sys2Proof.Machine
end

