-- ==== Sys2Proof/Machine/Init.lean ====
section
/-! DEFINITION. Initialisation (70_reset_and_hazards.md): building a machine, and the RESET command's share of it. -/

namespace Sys2Proof.Machine

/-- Step 2 of `initialise` (R480): every field at its reset value. `mem`, `halted`, `fatal_code`, `refused` and `trace` are
written only when `keepMem` is false. -/
def State.initFields (launch : Memory) (keepMem : Bool) (s : State) : State :=
  { s with
    mem := if keepMem then s.mem else launch
    active := Regs.atReset s.cfg
    pending := []
    irqArmed := false
    latchIrq := false
    lastBoundary := none
    counter := s.cfg.vtotalRst - 1
    frameCount := 0
    tilemaps := Quad.all Tilemap.atReset
    spr := []
    pal := []
    fb := []
    completed := none
    halted := if keepMem then s.halted else false
    fatalCode := if keepMem then s.fatalCode else none
    refused := if keepMem then s.refused else false
    trace := if keepMem then s.trace else [] }

/-- `check_regions` (R481): every ROM region the configuration names is present. -/
def regionsPresent (c : Config) : Bool := c.namedRegions.all fun g => (c.region g).isSome

/-- Steps 2 to 4 of `initialise(launch_mem, keep_mem)` (R480): the fields, the region check, the palette. -/
def State.initialise (launch : Memory) (keepMem : Bool) (s : State) : State :=
  if regionsPresent s.cfg then (s.initFields launch keepMem).initPalette
  else (s.initFields launch keepMem).raiseFatal .missingGraphicsRegion

/-- The launch memory is one of MEM_SIZE bytes (R481), in the canonical form. -/
def launchOk (c : Config) (launch : Memory) : Bool := launch.wf && launch.within c.memSize

/-- Build a machine instance (R480, R482): a configuration that fails step 1 is refused and builds none. -/
def State.build (c : Config) (launch : Memory) : Out :=
  if c.wf && launchOk c launch then .next ({ State.reset with cfg := c }.initialise launch false)
  else .refused .configRejected

end Sys2Proof.Machine
end

