-- ==== Sys2Proof/Machine/Operands.lean ====
section
/-! DEFINITION. Operand forms: the clip rectangle (00_scope.md R14, 30_encoding.md R144) and the values a register read
finds (46_interface.md R404). -/

namespace Sys2Proof.Machine

/-- A clip rectangle with inclusive bounds (00_scope.md R14). -/
structure Clip where
  x0 : Nat
  x1 : Nat
  y0 : Nat
  y1 : Nat
deriving DecidableEq, Repr

/-- EMPTY (44_scheduler.md R352). -/
def Clip.emptyClip : Clip := ⟨1, 0, 1, 0⟩

/-- The clip of a command's fields (30_encoding.md R144). -/
def Clip.ofBounds (x0 x1 y0 y1 : Bound) : Clip := ⟨x0.toNat, x1.toNat, y0.toNat, y1.toNat⟩

/-- The pixel (y, x) is in the clip: inside the rectangle and inside the FrameBuffer (00_scope.md R14). -/
def Clip.contains (c : Config) (k : Clip) (p : Nat × Nat) : Bool :=
  decide (k.x0 ≤ p.2) && decide (p.2 ≤ k.x1) && decide (p.2 < c.fbW) &&
  decide (k.y0 ≤ p.1) && decide (p.1 ≤ k.y1) && decide (p.1 < c.fbH)

/-- The numbers v with lo ≤ v ≤ hi and v < bound, in rising order. -/
def boundedRange (lo hi bound : Nat) : List Nat :=
  (List.range bound).filter fun v => decide (lo ≤ v) && decide (v ≤ hi)

/-- The pixels (y, x) of the clip, row by row. -/
def Clip.pixels (c : Config) (k : Clip) : List (Nat × Nat) :=
  (boundedRange k.y0 k.y1 c.fbH).flatMap fun y => (boundedRange k.x0 k.x1 c.fbW).map fun x => (y, x)

/-- What a read of a decoded register id finds (46_interface.md R404): SCANLINE reads `counter`; every other id, and an
address REG_DECODE does not map, is a draw. -/
def State.readValue (s : State) (id : Option RegId) : U16 :=
  if id = some idScanline then s.counter else s.drawValue

/-- The state after the read of a decoded register id: nothing changes but what the model counts of draws (log 5). -/
def State.afterRead (s : State) (id : Option RegId) : State :=
  if id = some idScanline then s else s.afterDraw

end Sys2Proof.Machine
end

