-- ==== Sys2Proof/Machine/Compositor.lean ====
section
/-! DEFINITION. The frame compositor (45_compositor.md). -/

namespace Sys2Proof.Machine

/-- xs32 (R385): Marsaglia's xorshift32. PRESUMED by the spec itself ("from general knowledge, not in source"). -/
def xs32 (v : U32) : U32 :=
  let v1 := v ^^^ (v <<< 13)
  let v2 := v1 ^^^ (v1 >>> 17)
  v2 ^^^ (v2 <<< 5)

/-- OVERLAY_XS(s, f, y, x) (R385). -/
def overlayXs (s f : U32) (y x : Nat) : Option Nat :=
  let v := s ^^^ (f <<< 16) ^^^ BitVec.ofNat 32 (y * 2 ^ 8) ^^^ BitVec.ofNat 32 x
  let v := xs32 (xs32 (xs32 (if v = 0 then 1 else v)))
  if v.toNat % 64 = 0 then some (v.toNat / 64 % 8) else none

/-- OVERLAY(seed, frame_count, y, x) (00_scope.md R13). -/
def overlayAt (c : Config) (f : U32) (y x : Nat) : Option Nat :=
  match c.overlay with
  | .xs => overlayXs c.starSeed f y x
  | .custom g => g.eval [c.starSeed.toNat, f.toNat, y, x]

/-- What a slot contributes to a pixel (R381, R382). -/
inductive Contrib where
  | pen (p : Nat)
  | mask
deriving DecidableEq, Repr

/-- `in_set(S, p)` (R381). -/
def inSet (set : PrioSet) (p : U16) : Bool :=
  match set with
  | .any => true
  | .only values => values.contains p.toNat

/-- `contrib(Sprite(S), x, y)` (R381). -/
def spriteContrib (set : PrioSet) (p : SprPixel) : Option Contrib :=
  match p with
  | .blank => none
  | .pix q prio => if inSet set prio then some (.pen q.toNat) else none
  | .mask prio => if inSet set prio then some .mask else none

/-- `contrib(Tile(t, sel), x, y)` (R382). -/
def tileContrib (sel : TileSel) (p : CachePixel) : Option Contrib :=
  let shown : Bool :=
    match sel with
    | .any => true
    | .back => !p.prio
    | .front => p.prio
  if p.opaq && shown then some (.pen p.pen.toNat) else none

/-- `contrib(Overlay, x, y)` (R382). -/
def State.overlayContrib (s : State) (p : Nat × Nat) : Option Contrib :=
  if s.cfg.overlayEn then
    (overlayAt s.cfg s.frameCount p.1 p.2).map fun o => .pen (bankBase s.cfg s.active + o % s.cfg.pal.bankSize)
  else none

/-- `contrib(s, x, y)` for the pixel p = (y, x) (R381, R382). -/
def State.contrib (s : State) (p : Nat × Nat) (slot : Slot) : Option Contrib :=
  match slot with
  | .tile t sel => tileContrib sel (Sparse.getD CachePixel.zero (s.tm t).layer p)
  | .sprite set => spriteContrib set (Sparse.getD .blank s.spr p)
  | .overlay => s.overlayContrib p

/-- The contributor of the highest slot that contributes (R383). -/
def State.best (s : State) (p : Nat × Nat) : Option Contrib :=
  s.cfg.slots.foldl (fun best slot => (s.contrib p slot).or best) none

/-- What `compose` writes at a pixel (R383), or none where a mask keeps the prior frame's pixel. -/
def State.composed (s : State) (p : Nat × Nat) : Option Rgb :=
  match s.best p with
  | some .mask => none
  | some (.pen q) => some (s.rgb q)
  | none => some (s.rgb (bankBase s.cfg s.active + s.cfg.bgPen))

/-- The FrameBuffer after `compose(clip)` (R383). -/
def State.composedFrame (s : State) (k : Clip) : Frame :=
  Sparse.putAll posLt Rgb.black s.fb
    ((k.pixels s.cfg).filterMap fun p => (s.composed p).map fun v => (p, v))

/-- `compose(clip)` (R383). -/
def State.compose (k : Clip) (s : State) : State := { s with fb := s.composedFrame k }

end Sys2Proof.Machine
end

