-- ==== Sys2Proof/Machine/Flags.lean ====
section
/-! DEFINITION. The hardware has no condition codes (10_state.md R32). Its Boolean state that rules compute with: the mode
bits of MODE_FLAGS (R33), the latch phase (R34, 43_latch.md R324), and the forced-dirty comparison (43_latch.md R327). -/

namespace Sys2Proof.Machine

/-- FX: MODE_FLAGS bit 0 (10_state.md R33). -/
def Regs.flipX (g : Regs) : Bool := g.modeFlags.getLsbD 0

/-- FY: MODE_FLAGS bit 1 (10_state.md R33). -/
def Regs.flipY (g : Regs) : Bool := g.modeFlags.getLsbD 1

/-- RS: MODE_FLAGS bit 2+t, ROWSCROLL_EN[t] (10_state.md R33). -/
def Regs.rowscroll (g : Regs) (t : TileId) : Bool := g.modeFlags.getLsbD (2 + t.toNat)

/-- The latch phases that rest between commands (43_latch.md R324). -/
inductive Phase where
  | idle
  | buffering
deriving DecidableEq, Repr

/-- `phase`: Idle when every `pending[r]` is `⊥` (43_latch.md R324). -/
def State.phase (s : State) : Phase := if s.pending = [] then .idle else .buffering

/-- The stored values whose change forces every tilemap dirty (43_latch.md R326, R327). -/
def Regs.globals (g : Regs) : U16 × U16 × U16 := (g.gfxBank, g.paletteBank, g.modeFlags)

end Sys2Proof.Machine
end

