-- ==== Sys2Proof/Machine/Tilemap.lean ====
section
/-! DEFINITION. The tilemap engine (41_tilemap.md). -/

namespace Sys2Proof.Machine

/-- `dirty[t][i]` (10_state.md R48). -/
def Tilemap.isDirty (m : Tilemap) (i : Nat) : Bool := Sparse.getD false m.dirty i

/-- `mark_dirty` (R230). -/
def Tilemap.markDirty (i : Nat) (m : Tilemap) : Tilemap :=
  { m with dirty := Sparse.put natLt false m.dirty i true }

/-- `mark_all_dirty` (R231). -/
def Tilemap.markAll (m : Tilemap) : Tilemap := { m with allDirty := true }

/-- Lazy expansion (R232). -/
def Tilemap.expand (nTiles : Nat) (m : Tilemap) : Tilemap :=
  if m.allDirty then
    { m with
      dirty := Sparse.putAll natLt false m.dirty ((List.range nTiles).map fun i => (i, true))
      allDirty := false }
  else m

/-- `tile_info(t, i)` (R235): the provider reads the backing bytes of the tile and the applied GFX_BANK. -/
def State.tileInfo (s : State) (t : TileId) (i : Nat) : TileEntry :=
  (s.cfg.tm t).tileInfo.eval i (((s.cfg.tm t).backingAddrs i).map s.mem.read) s.active.gfxBank

/-- Byte `k` of `gfx_bytes(t)` (R236): the ROM region, or character RAM as it is now. -/
def State.gfxByte (s : State) (t : TileId) (k : Nat) : Byte :=
  match (s.cfg.tm t).gfxSrc with
  | .rom r => s.cfg.romByte r k
  | .charRam lo _ => s.mem.read (lo + k)

/-- `tile_pix(t, e, px, py)` (R236): a code out of range shows the blank tile (OutOfRangeTileCode, recovered). -/
def State.tilePix (s : State) (t : TileId) (e : TileEntry) (px py : Nat) : Nat :=
  let g := s.cfg.tm t
  if e.code.toNat < g.numCodes then g.gfxPixel.eval (s.gfxByte t) g.bpp [e.code.toNat, px, py]
  else g.blankAt px py

/-- `v` counted from the other end of [0, n) when `flip`. -/
def mirror (flip : Bool) (n v : Nat) : Nat := if flip then n - 1 - v else v

/-- The cache pixel that `decode_cell` writes at (px, py) of the cell's block (R237), with `e` the cell's tile. -/
def State.cellPixel (s : State) (t : TileId) (fx fy : Bool) (e : TileEntry) (px py : Nat) : CachePixel :=
  let g := s.cfg.tm t
  let v := s.tilePix t e (mirror (xor e.flipX fx) g.tileW px) (mirror (xor e.flipY fy) g.tileH py)
  { pen := penOf s.cfg s.active g.penBase e.colorIndex.toNat g.bpp v
    opaq := decide (g.tpen ≠ some v)
    prio := e.priority }

/-- The block of cache pixels that `decode_cell` writes (R237), by (Y, X). -/
def State.cellBlock (s : State) (t : TileId) (fx fy : Bool) (col row : Nat) : List ((Nat × Nat) × CachePixel) :=
  let g := s.cfg.tm t
  let e := s.tileInfo t (g.scanAt col row)
  let dc := mirror fx g.cols col
  let dr := mirror fy g.rows row
  (List.range g.tileH).flatMap fun py => (List.range g.tileW).map fun px =>
    ((dr * g.tileH + py, dc * g.tileW + px), s.cellPixel t fx fy e px py)

/-- `decode_cell(t, col, row, FX, FY)` (R237): the cell's block of the cache, and its dirty bit. -/
def State.decodeCell (s : State) (t : TileId) (fx fy : Bool) (m : Tilemap) (cell : Nat × Nat) : Tilemap :=
  { m with
    cache := Sparse.insertAll posLt m.cache (s.cellBlock t fx fy cell.1 cell.2)
    dirty := Sparse.put natLt false m.dirty ((s.cfg.tm t).scanAt cell.1 cell.2) false }

/-- The arguments of `redraw` beside the tilemap and the clip (R238). -/
structure RedrawArgs where
  sx : List U16
  sy : List U16
  fx : Bool
  fy : Bool
  rs : Bool
deriving DecidableEq, Repr

/-- The arguments that the tick and the REDRAW command pass: the applied latch's values (R238). -/
def State.redrawArgs (s : State) (t : TileId) : RedrawArgs where
  sx := s.active.scrollX s.cfg t
  sy := s.active.scrollY s.cfg t
  fx := s.active.flipX
  fy := s.active.flipY
  rs := s.active.rowscroll t

/-- The scroll entry of an output row (R241): `j mod n` of the array, with j = 0 when row scroll is off. -/
def scrollEntry (a : List U16) (n group : Nat) (rs : Bool) (y : Nat) : Nat :=
  (a.getD ((if rs then y / group else 0) % n) 0).toNat

/-- `src(t, x, y, SX, SY, RS)` (R241), for the screen pixel p = (y, x) and as the cache position (Y, X). -/
def srcPos (g : TilemapCfg) (a : RedrawArgs) (p : Nat × Nat) : Nat × Nat :=
  ((p.1 + scrollEntry a.sy g.scrollNY g.rowscrollGroup a.rs p.1) % g.tmH,
   (p.2 + scrollEntry a.sx g.scrollNX g.rowscrollGroup a.rs p.1) % g.tmW)

/-- The grid cell (col, row) whose block holds the cache position (Y, X) (R239). -/
def cellOf (g : TilemapCfg) (fx fy : Bool) (p : Nat × Nat) : Nat × Nat :=
  (mirror fx g.cols (p.2 / g.tileW), mirror fy g.rows (p.1 / g.tileH))

/-- `visible_cells` (R239). A cell that several pixels see is listed once for each. -/
def visibleCells (c : Config) (t : TileId) (k : Clip) (a : RedrawArgs) : List (Nat × Nat) :=
  (k.pixels c).map fun p => cellOf (c.tm t) a.fx a.fy (srcPos (c.tm t) a p)

/-- Decode the cell if it is dirty (R238). -/
def State.decodeIfDirty (s : State) (t : TileId) (a : RedrawArgs) (m : Tilemap) (cell : Nat × Nat) : Tilemap :=
  if m.isDirty ((s.cfg.tm t).scanAt cell.1 cell.2) then s.decodeCell t a.fx a.fy m cell else m

/-- The tilemap after the expansion and the decode of every visible dirty cell (R238). -/
def State.decodeVisible (s : State) (t : TileId) (k : Clip) (a : RedrawArgs) : Tilemap :=
  (visibleCells s.cfg t k a).foldl (s.decodeIfDirty t a) ((s.tm t).expand (s.cfg.tm t).nTiles)

/-- Every cache pixel that the clip reads holds a value (10_state.md R51). -/
def blitDefined (c : Config) (t : TileId) (k : Clip) (a : RedrawArgs) (m : Tilemap) : Bool :=
  (k.pixels c).all fun p => (Sparse.find m.cache (srcPos (c.tm t) a p)).isSome

/-- The blit (R240): each clip pixel copies the cache pixel of its source position. -/
def blit (c : Config) (t : TileId) (k : Clip) (a : RedrawArgs) (m : Tilemap) : Tilemap :=
  { m with
    layer := Sparse.putAll posLt CachePixel.zero m.layer
      ((k.pixels c).map fun p => (p, Sparse.getD CachePixel.zero m.cache (srcPos (c.tm t) a p))) }

/-- `redraw(t, clip, ...)` (R238). The read of a cache pixel that holds no value is a fault (10_state.md R51, log 6). -/
def State.redraw (t : TileId) (k : Clip) (a : RedrawArgs) (s : State) : Out :=
  if blitDefined s.cfg t k a (s.decodeVisible t k a) then
    .next (s.setTm t (blit s.cfg t k a (s.decodeVisible t k a)))
  else .fault .unwrittenCachePixel

/-- The redraw of every tilemap of `ids`, first to last (44_scheduler.md R350 step 3). -/
def redrawEach (k : Clip) : List TileId → State → Out
  | [], s => .next s
  | t :: ids, s => andThen (s.redraw t k (s.redrawArgs t)) (redrawEach k ids)

/-- What a write that changes the byte at `a` marks in tilemap `t` (20_memory.md R106, 46_interface.md R401). -/
def Tilemap.markWrite (g : TilemapCfg) (a : Nat) (m : Tilemap) : Tilemap :=
  let m1 := (g.backedTiles a).foldl (fun m i => m.markDirty i) m
  if g.inCharRam a then m1.markAll else m1

end Sys2Proof.Machine
end

