-- ==== Sys2Proof/Machine/Latch.lean ====
section
/-! DEFINITION. The register latch state machine (43_latch.md). -/

namespace Sys2Proof.Machine

/-- `pending[r]` (10_state.md R34): none is `⊥`. -/
def State.pendingAt (s : State) (r : RegId) : Option U16 := Sparse.find s.pending r

/-- `write(register_id, value, current_scanline)` (R321): the last write wins, and a write to a read-only or
unassigned id has no effect (R322). The current scanline is ignored. -/
def State.latchWrite (r : RegId) (v : U16) (s : State) : State :=
  if s.cfg.writable r then { s with pending := Sparse.insert idLt s.pending r v } else s

/-- The effective vertical total, `max(1, active[VTOTAL])` (R323, 44_scheduler.md R351). -/
def Regs.vtEff (g : Regs) : Nat := max 1 g.vtotal.toNat

/-- `succ(L)` under a vertical total (R323, 44_scheduler.md R351). -/
def succLine (vt : Nat) (l : U16) : U16 := if l.toNat + 1 ≥ vt then 0 else l + 1

/-- The ordering check of `on_scanline_boundary(N)` (R323): the first boundary accepts any N. -/
def State.boundaryInOrder (s : State) (n : U16) : Bool :=
  match s.lastBoundary with
  | none => true
  | some l => decide (n = succLine s.active.vtEff l)

/-- This boundary applies the pending writes: PER_SCANLINE, or line 0 in PER_FRAME (R326). -/
def State.appliesAt (s : State) (n : U16) : Bool :=
  match s.cfg.latchPeriod with
  | .perScanline => true
  | .perFrame => decide (n = 0)

/-- `forced_dirty(old)` (R327): every tilemap t < NT is marked all dirty when a global register changed. -/
def State.forcedDirty (old : U16 × U16 × U16) (s : State) : State :=
  if s.active.globals = old then s
  else { s with tilemaps := mapTilemaps (fun _ m => m.markAll) s.cfg.tileIds s.tilemaps }

/-- The application of the pending writes (R326): values, forced-dirty marks, and the arming by an IRQ_LINE write. -/
def State.applyPending (s : State) : State :=
  let applied := { s with active := s.active.apply s.pending, pending := [] }
  let marked := applied.forcedDirty s.active.globals
  if (s.pendingAt idIrqLine).isSome then { marked with irqArmed := true } else marked

/-- `latch_irq` for line N (R328). -/
def State.fires (s : State) (n : U16) : Bool := s.irqArmed && decide (n = s.active.irqLine)

/-- The raster interrupt's arm and fire step (R328). -/
def State.armAndFire (n : U16) (s : State) : State :=
  { s with latchIrq := s.fires n, irqArmed := s.irqArmed && !s.fires n }

/-- The ScanlineRegisterLatch that a boundary returns (R329): a snapshot of the applied values. -/
structure ScanlineLatch where
  scrollX : List (List U16)
  scrollY : List (List U16)
  paletteBank : U16
  gfxBank : U16
  modeFlags : U16
  irqFire : Bool
deriving DecidableEq, Repr

/-- The snapshot that a boundary returns in this state (R329). -/
def State.latch (s : State) : ScanlineLatch where
  scrollX := s.cfg.tileIds.map (s.active.scrollX s.cfg)
  scrollY := s.cfg.tileIds.map (s.active.scrollY s.cfg)
  paletteBank := s.active.paletteBank
  gfxBank := s.active.gfxBank
  modeFlags := s.active.modeFlags
  irqFire := s.latchIrq

/-- The boundary of line N once R323 has accepted it (R326 to R328). -/
def State.passBoundary (n : U16) (s : State) : State :=
  let s1 := { s with lastBoundary := some n }
  (if s1.appliesAt n then s1.applyPending else s1).armAndFire n

/-- The state after `on_scanline_boundary(N)` (R323 to R329): check-and-fatal, then the application. -/
def State.afterBoundary (n : U16) (s : State) : State :=
  if s.boundaryInOrder n then s.passBoundary n else s.raiseFatal .schedulerReentrancyViolation

/-- What `on_scanline_boundary(N)` returns (R329), none where the check is fatal. -/
def State.boundaryLatch (n : U16) (s : State) : Option ScanlineLatch :=
  if s.boundaryInOrder n then some (s.passBoundary n).latch else none

end Sys2Proof.Machine
end

