-- ==== Sys2Proof/Machine/Sprites.lean ====
section
/-! DEFINITION. The sprite compositor (42_sprites.md). -/

namespace Sys2Proof.Machine

/-- A decoded sprite record (R283). -/
structure SpriteRecord where
  code : Nat
  color : Nat
  x : Nat
  y : Nat
  size : Nat
  flipX : Bool
  flipY : Bool
  priority : Nat
  bank : Nat
  enable : Bool
deriving DecidableEq, Repr

/-- `v[hi:lo]` of a byte (00_scope.md R14). -/
def bitsOf (v : Byte) (hi lo : Nat) : Nat := v.toNat / 2 ^ lo % 2 ^ (hi + 1 - lo)

/-- `field(j, f)` (R282): the segments of the field, first-listed most significant. An absent field reads `absent`. -/
def spriteField (c : Config) (m : Memory) (j : Nat) (field : Option (List Seg)) (absent : Nat) : Nat :=
  match field with
  | none => absent
  | some segs =>
    segs.foldl (fun acc g =>
      acc * 2 ^ (g.hi + 1 - g.lo) + bitsOf (m.read (c.spr.base + j * c.spr.stride + g.byte)) g.hi g.lo) 0

/-- `decode_record(j)` (R282, R283). -/
def decodeRecord (c : Config) (m : Memory) (j : Nat) : SpriteRecord :=
  let f := c.spr.fields
  { code := spriteField c m j f.code 0
    color := spriteField c m j f.color 0
    x := spriteField c m j f.x 0
    y := spriteField c m j f.y 0
    size := spriteField c m j f.size 0
    flipX := decide (spriteField c m j f.flipX 0 ≠ 0)
    flipY := decide (spriteField c m j f.flipY 0 ≠ 0)
    priority := spriteField c m j f.priority 0
    bank := spriteField c m j f.bank 0
    enable := decide (spriteField c m j f.enable 1 ≠ 0) }

/-- The records of sprite RAM, re-read at every draw (R280, R281). -/
def decodeRecords (c : Config) (m : Memory) : List SpriteRecord :=
  (List.range c.spr.num).map (decodeRecord c m)

/-- A record as the arguments of a per-machine order (R285). -/
def SpriteRecord.args (r : SpriteRecord) : List Nat :=
  [r.code, r.color, r.x, r.y, r.size, boolNat r.flipX, boolNat r.flipY, r.priority, r.bank, boolNat r.enable]

/-- Insert an index before the first one with a greater key. -/
def insertByKey (key : Nat → Nat) (j : Nat) : List Nat → List Nat
  | [] => [j]
  | i :: is => if key j < key i then j :: i :: is else i :: insertByKey key j is

/-- The indices in rising key order, equal keys in the order given. -/
def sortByKey (key : Nat → Nat) (js : List Nat) : List Nat :=
  js.foldl (fun acc j => insertByKey key j acc) []

/-- The index an item of a listed order gives, if its guard holds (log 2). -/
def SeqItem.eval (f : SeqItem) (env : List Nat) : Option Nat := if f.shown.eval env = 0 then none else some f.index

/-- `SPR_SEQ(recs)` (R285). -/
def spriteOrder (c : Config) (recs : List SpriteRecord) : List Nat :=
  match c.spr.seq with
  | .ascending => List.range recs.length
  | .descending => (List.range recs.length).reverse
  | .sortBy key =>
    sortByKey (fun j => key.eval (((recs[j]?).map SpriteRecord.args).getD [])) (List.range recs.length)
  | .listed items => items.filterMap fun f => SeqItem.eval f (recs.flatMap SpriteRecord.args)

/-- `drawable(r)` (R284): an out-of-range bank (OutOfRangeSpriteBank) and a size class with no entry skip the record. -/
def drawable (c : Config) (r : SpriteRecord) : Bool :=
  r.enable && decide (r.bank < c.spr.numBanks) && decide (r.size < c.spr.sizes.length)

/-- `(w, h) = SIZE_TABLE[r.size]` (R287). -/
def sizeOf (c : Config) (r : SpriteRecord) : Nat × Nat := c.spr.sizes.getD r.size (0, 0)

/-- The screen position `(sx, sy)` (R286), in signed integers. -/
def position (c : Config) (r : SpriteRecord) (fx fy : Bool) : Int × Int :=
  let sx0 : Int := c.spr.xSign.toInt * (r.x : Int) + c.spr.xOff
  let sy0 : Int := c.spr.ySign.toInt * (r.y : Int) + c.spr.yOff
  (if fx then (c.spr.flipW : Int) - ((sizeOf c r).1 : Int) - sx0 else sx0,
   if fy then (c.spr.flipH : Int) - ((sizeOf c r).2 : Int) - sy0 else sy0)

/-- `SGFX_PIXEL(bank, code, px, py)` (00_scope.md R12), from the sprite graphics ROM region. -/
def sgfxPixel (c : Config) (bank code px py : Nat) : Nat :=
  c.spr.gfxPixel.eval (c.romByte c.spr.gfxRegion) c.spr.bpp [bank, code, px, py]

/-- `spr_pix(r, u, v)` (R288): a cell code outside the bank gives none. -/
def sprPix (c : Config) (r : SpriteRecord) (u v : Nat) : Option Nat :=
  let code := c.spr.cellCodeAt r.code r.size (u / c.spr.cellW) (v / c.spr.cellH)
  if code < c.spr.codes then some (sgfxPixel c r.bank code (u % c.spr.cellW) (v % c.spr.cellH)) else none

/-- What `plot` stores for a pixel value (R290), or none where it writes nothing: a missing pixel and the transparent
pen. The priority is stored in 16 bits (10_state.md R54, log 9). -/
def plotValue (c : Config) (g : Regs) (r : SpriteRecord) (p : Option Nat) : Option SprPixel :=
  match p with
  | none => none
  | some v =>
    if v = c.spr.tpen then none
    else if c.spr.maskPen = some v then some (.mask (BitVec.ofNat 16 r.priority))
    else some (.pix (penOf c g c.spr.penBase r.color c.spr.bpp v) (BitVec.ofNat 16 r.priority))

/-- KX and KY (R289): the shifts of the wrap copies, in drawing order. -/
def wrapShifts (enabled : Bool) : List Int := if enabled then [-1, 0, 1] else [0]

/-- The index counted from the other end when flipped (R289). -/
def flipIndex (flip : Bool) (n i : Nat) : Nat := if flip then n - 1 - i else i

/-- The pixel (y, x) at signed coordinates, when it is in the clip (R289). -/
def clipPixel (c : Config) (k : Clip) (y x : Int) : Option (Nat × Nat) :=
  if 0 ≤ y ∧ 0 ≤ x ∧ k.contains c (y.toNat, x.toNat) then some (y.toNat, x.toNat) else none

/-- What one copy of a sprite writes (R289), row by row, with (ox, oy) its top left corner. -/
def copyWrites (c : Config) (g : Regs) (k : Clip) (r : SpriteRecord) (fx fy : Bool) (ox oy : Int) :
    List ((Nat × Nat) × SprPixel) :=
  let w := (sizeOf c r).1
  let h := (sizeOf c r).2
  (List.range h).flatMap fun (j : Nat) => (List.range w).filterMap fun (i : Nat) =>
    match clipPixel c k (oy + (j : Int)) (ox + (i : Int)) with
    | none => none
    | some p =>
      (plotValue c g r (sprPix c r (flipIndex (xor r.flipX fx) w i) (flipIndex (xor r.flipY fy) h j))).map
        fun v => (p, v)

/-- `draw_one` (R289): the pixels written by the copies of a sprite, in drawing order. -/
def drawOne (c : Config) (g : Regs) (k : Clip) (fx fy : Bool) (r : SpriteRecord) : List ((Nat × Nat) × SprPixel) :=
  (wrapShifts c.spr.wrapY).flatMap fun ky => (wrapShifts c.spr.wrapX).flatMap fun kx =>
    copyWrites c g k r fx fy ((position c r fx fy).1 + kx * (c.spr.wrapW : Int))
      ((position c r fx fy).2 + ky * (c.spr.wrapH : Int))

/-- Every sprite pixel that `draw_sprites` writes, in drawing order (R280). -/
def spriteWrites (c : Config) (g : Regs) (m : Memory) (k : Clip) (fx fy : Bool) : List ((Nat × Nat) × SprPixel) :=
  let recs := decodeRecords c m
  (spriteOrder c recs).flatMap fun j =>
    match recs[j]? with
    | none => []
    | some r => if drawable c r then drawOne c g k fx fy r else []

/-- The sprite layer with the clip cleared (R280). -/
def clearClip (c : Config) (k : Clip) (spr : PixMap SprPixel) : PixMap SprPixel :=
  spr.filter fun e => !k.contains c e.1

/-- The sprite layer after `draw_sprites` (R280). -/
def State.drawnSprites (s : State) (k : Clip) (fx fy : Bool) : PixMap SprPixel :=
  Sparse.putAll posLt .blank (clearClip s.cfg k s.spr) (spriteWrites s.cfg s.active s.mem k fx fy)

/-- `draw_sprites(sprite_ram, clip, flip_screen)` (R280). -/
def State.drawSprites (k : Clip) (fx fy : Bool) (s : State) : State := { s with spr := s.drawnSprites k fx fy }

end Sys2Proof.Machine
end

