-- ==== Sys2Proof/Machine/Scheduler.lean ====
section
/-! DEFINITION. The scanline scheduler (44_scheduler.md). -/

namespace Sys2Proof.Machine

/-- The line that the next tick starts (R350 step 1, R351). -/
def State.nextLine (s : State) : U16 := succLine s.active.vtEff s.counter

/-- Step 1 of the tick (R350, R351): the counter, and the frame count when line 0 starts. -/
def State.advance (s : State) : State :=
  { s with
    counter := s.nextLine
    frameCount := if s.nextLine = 0 then s.frameCount + 1 else s.frameCount }

/-- `visible_row(N)` (R352). -/
def State.visibleRow (s : State) (n : U16) : Bool :=
  decide (s.active.visTop.toNat ≤ n.toNat) && decide (n.toNat ≤ s.active.visBottom.toNat) &&
  decide (n.toNat < s.cfg.fbH)

/-- `line_clip(N)` (R352). -/
def State.lineClip (s : State) (n : U16) : Clip :=
  if s.visibleRow n then
    ⟨s.active.visLeft.toNat, min s.active.visRight.toNat (s.cfg.fbW - 1), n.toNat, n.toNat⟩
  else Clip.emptyClip

/-- The raster interrupt of the tick (R354). -/
def State.signalRaster (fire : Bool) (s : State) : State :=
  if fire then s.emit (.interrupt .raster s.cfg.vecRaster) else s

/-- Step 4 of the tick (R350, R355): the completed frame and the vblank interrupt, after line VIS_BOTTOM. -/
def State.endLine (n : U16) (s : State) : State :=
  if n = s.active.visBottom then
    { s with completed := some s.fb }.emit (.interrupt .vblank s.cfg.vecVblank)
  else s

/-- Step 3 of the tick for line N (R350, R352): redraw every tilemap, draw the sprites and compose, over one clip. -/
def State.renderLine (n : U16) (s : State) : Out :=
  andThen (redrawEach (s.lineClip n) s.cfg.tileIds s) fun s1 =>
    .next ((s1.drawSprites (s.lineClip n) s.active.flipX s.active.flipY).compose (s.lineClip n))

/-- Steps 3 and 4 of the tick, after a boundary that returned `latch` (R350, R353 to R355). -/
def State.tickLine (n : U16) (latch : ScanlineLatch) (s : State) : Out :=
  andThen (((s.signalRaster latch.irqFire).emit (.partialRedraw n)).renderLine n) fun s1 => .next (s1.endLine n)

/-- `tick()` (R350). A boundary out of order is fatal and ends the tick after step 1. -/
def State.tick (s : State) : Out :=
  match s.advance.boundaryLatch s.nextLine with
  | none => .next (s.advance.afterBoundary s.nextLine)
  | some latch => (s.advance.afterBoundary s.nextLine).tickLine s.nextLine latch

/-- `HTOTAL_eff = max(1, active[HTOTAL])` (R372). -/
def Regs.htEff (g : Regs) : Nat := max 1 g.htotal.toNat

/-- The scanline period in seconds (R372). No step reads it. PRESUMED by the spec itself (log 12). -/
def State.linePeriod (s : State) : Rat := (s.active.htEff : Rat) / (s.cfg.pixelClock : Rat)

/-- The frame period in seconds (R372). No step reads it. PRESUMED by the spec itself (log 12). -/
def State.framePeriod (s : State) : Rat := (s.active.vtEff : Rat) * s.linePeriod

end Sys2Proof.Machine
end

