-- ==== Sys2Proof/Machine/Bus.lean ====
section
/-! DEFINITION. The bus commands (46_interface.md section 2). -/

namespace Sys2Proof.Machine

/-- NOP (R400). -/
def execNop (s : State) : Out := command .nop (fun s => .next s) s

/-- `write_memory(a, d)` (R401): the store, the marks of R106 when the byte changes, and the palette entry. -/
def State.writeMemory (a : Nat) (d : Byte) (s : State) : State :=
  if a < s.cfg.memSize then
    { s with
      mem := s.mem.write a d
      tilemaps :=
        if d = s.mem.read a then s.tilemaps
        else mapTilemaps (fun t m => m.markWrite (s.cfg.tm t) a) s.cfg.tileIds s.tilemaps
      pal := paletteAfterWrite s.cfg (s.mem.write a d) a s.pal }
  else s

/-- WMEM (R401): an address at or above MEM_SIZE has no effect (20_memory.md R104). -/
def execWmem (a : Addr) (d : Byte) (s : State) : Out :=
  command (.wmem a d) (fun s => .next (s.writeMemory a.toNat d)) s

/-- WREG (R402): the decoded id goes to the latch, and an address that decodes to none has no effect. -/
def execWreg (a : Addr) (d : U16) (s : State) : Out :=
  command (.wreg a d)
    (fun s =>
      match s.cfg.regDecodeAt a with
      | none => .next s
      | some r => .next (s.latchWrite r d)) s

/-- RREG (R403, R404): the value read goes to the trace. -/
def execRreg (a : Addr) (s : State) : Out :=
  command (.rreg a)
    (fun s => .next ((s.afterRead (s.cfg.regDecodeAt a)).emit (.readData (s.readValue (s.cfg.regDecodeAt a))))) s

/-- TICK (R406, 44_scheduler.md R350). -/
def execTick (s : State) : Out := command .tick State.tick s

/-- GETFB (R405): the last completed frame, or none. -/
def execGetfb (s : State) : Out := command .getfb (fun s => .next (s.emit (.frame s.completed))) s

/-- RESET (R407): `initialise(keep_mem = 1)`. -/
def execReset (s : State) : Out := command .reset (fun s => .next (s.initialise [] true)) s

end Sys2Proof.Machine
end

