-- ==== Sys2Proof/Machine/TestPort.lean ====
section
/-! DEFINITION. The test-port commands (46_interface.md section 3). -/

namespace Sys2Proof.Machine

/-- MARKD (R410, 41_tilemap.md R230). -/
def execMarkd (t : TileId) (i : Addr) (s : State) : Out :=
  command (.markd t i) (fun s => .next (s.setTm t ((s.tm t).markDirty i.toNat))) s

/-- MARKA (R411, 41_tilemap.md R231). -/
def execMarka (t : TileId) (s : State) : Out :=
  command (.marka t) (fun s => .next (s.setTm t (s.tm t).markAll)) s

/-- REDRAW (R414, 41_tilemap.md R238), with the applied latch's values. -/
def execRedraw (t : TileId) (x0 x1 y0 y1 : Bound) (s : State) : Out :=
  command (.redraw t x0 x1 y0 y1) (fun s => s.redraw t (Clip.ofBounds x0 x1 y0 y1) (s.redrawArgs t)) s

/-- SPRITES (R415, 42_sprites.md R280), with the applied flips. -/
def execSprites (x0 x1 y0 y1 : Bound) (s : State) : Out :=
  command (.sprites x0 x1 y0 y1)
    (fun s => .next (s.drawSprites (Clip.ofBounds x0 x1 y0 y1) s.active.flipX s.active.flipY)) s

/-- COMPOSE (R416, 45_compositor.md R383). -/
def execCompose (x0 x1 y0 y1 : Bound) (s : State) : Out :=
  command (.compose x0 x1 y0 y1) (fun s => .next (s.compose (Clip.ofBounds x0 x1 y0 y1))) s

/-- LWRITE (R412, 43_latch.md R321, R322). -/
def execLwrite (r : RegId) (d : U16) (s : State) : Out :=
  command (.lwrite r d) (fun s => .next (s.latchWrite r d)) s

/-- BOUNDARY (R413, 43_latch.md R323 to R329). The returned latch is not placed in the trace. -/
def execBoundary (n : U16) (s : State) : Out :=
  command (.boundary n) (fun s => .next (s.afterBoundary n)) s

end Sys2Proof.Machine
end

