-- ==== Sys2Proof/Machine/Dispatch.lean ====
section
/-! DEFINITION. One arm per command: its meaning. -/

namespace Sys2Proof.Machine

def exec (i : Instr) (s : State) : Host.Outcome State Fault Refusal :=
  match i with
  | .nop => Sys2Proof.Machine.execNop s
  | .wmem a d => Sys2Proof.Machine.execWmem a d s
  | .wreg a d => Sys2Proof.Machine.execWreg a d s
  | .rreg a => Sys2Proof.Machine.execRreg a s
  | .tick => Sys2Proof.Machine.execTick s
  | .getfb => Sys2Proof.Machine.execGetfb s
  | .reset => Sys2Proof.Machine.execReset s
  | .markd t k => Sys2Proof.Machine.execMarkd t k s
  | .marka t => Sys2Proof.Machine.execMarka t s
  | .redraw t x0 x1 y0 y1 => Sys2Proof.Machine.execRedraw t x0 x1 y0 y1 s
  | .sprites x0 x1 y0 y1 => Sys2Proof.Machine.execSprites x0 x1 y0 y1 s
  | .compose x0 x1 y0 y1 => Sys2Proof.Machine.execCompose x0 x1 y0 y1 s
  | .lwrite r d => Sys2Proof.Machine.execLwrite r d s
  | .boundary n => Sys2Proof.Machine.execBoundary n s

end Sys2Proof.Machine
end

