-- ==== Sys2Proof/Machine/Step.lean ====
section
/-! DEFINITION. One step (46_interface.md R430): the next word of the command stream is taken, decoded and executed. -/

namespace Sys2Proof.Machine

/-- A step of the machine. An illegal word is refused (30_encoding.md R160). When the stream has ended there is no command, and
no state changes (46_interface.md R431, 44_scheduler.md R358; log 3). -/
def step (s : State) : Host.Outcome State Fault Refusal :=
  match s.stream with
  | [] => .next s
  | w :: rest =>
    match decode w with
    | .illegal _ => .next { s with stream := rest }.refuse
    | .command i => exec i { s with stream := rest }

/-- `s` with the word of the opcode table as the next command of the stream (log 3). -/
def State.withFetchWord (s : State) (nbits w : Nat) : State :=
  { s with stream := tableWord nbits w :: s.stream.tail }

end Sys2Proof.Machine
end

