-- ==== Sys2Proof/Machine/Asm.lean ====
section
/-! DEFINITION. The text form of a command stream (30_encoding.md R170) and its pseudo-instructions (R171): how a line becomes
command words. No step reads it; a program's words come to the machine through its stream (log 3). -/

namespace Sys2Proof.Machine

/-- A line of the text form: a command, or a pseudo-instruction of R171. -/
inductive AsmLine where
  | command (i : Instr)
  | ticks (n : Nat)
  | fill (a : Addr) (n : Nat) (d : Byte)
  | scrollx (t : TileId) (i : Nat) (v : U16)
  | scrolly (t : TileId) (i : Nat) (v : U16)
  | setmode (fx fy : BitVec 1) (rs : BitVec 4)
  | word (w : Cmd)
deriving DecidableEq, Repr

/-- The words a line stands for (R171). -/
def AsmLine.words : AsmLine → List Cmd
  | .command i => [encode i]
  | .ticks n => List.replicate n (encode .tick)
  | .fill a n d => (List.range n).map fun k => encode (.wmem (a + BitVec.ofNat 30 k) d)
  | .scrollx t i v => [encode (.lwrite (scrollXId t i) v)]
  | .scrolly t i v => [encode (.lwrite (scrollYId t i) v)]
  | .setmode fx fy rs =>
    [encode (.lwrite idModeFlags (BitVec.ofNat 16 (fx.toNat + 2 * fy.toNat + 4 * rs.toNat)))]
  | .word w => [w]

/-- The value of a digit in base 16. -/
def digitValue (ch : Char) : Option Nat :=
  let n := ch.toNat
  if 48 ≤ n ∧ n ≤ 57 then some (n - 48)
  else if 97 ≤ n ∧ n ≤ 102 then some (n - 87)
  else if 65 ≤ n ∧ n ≤ 70 then some (n - 55)
  else none

/-- The digits of a number in a base, most significant first. -/
def parseDigits (base : Nat) : Nat → List Char → Option Nat
  | acc, [] => some acc
  | acc, ch :: rest =>
    match digitValue ch with
    | some d => if d < base then parseDigits base (acc * base + d) rest else none
    | none => none

/-- A number (R170): decimal, or hexadecimal after 0x. -/
def parseNumber : List Char → Option Nat
  | [] => none
  | '0' :: 'x' :: ch :: rest => parseDigits 16 0 (ch :: rest)
  | ch :: rest => parseDigits 10 0 (ch :: rest)

/-- A number that fits in `w` bits. -/
def parseBits (w : Nat) (cs : List Char) : Option (BitVec w) :=
  (parseNumber cs).bind fun n => if n < 2 ^ w then some (BitVec.ofNat w n) else none

/-- A count of at least 1 (R171). -/
def parseCount (cs : List Char) : Option Nat :=
  (parseNumber cs).bind fun n => if 1 ≤ n then some n else none

/-- A space or a tab. -/
def isBlank (ch : Char) : Bool := ch == ' ' || ch == '\t'

/-- The characters without the blanks at both ends. -/
def trimChars (cs : List Char) : List Char := ((cs.dropWhile isBlank).reverse.dropWhile isBlank).reverse

/-- The line without its comment, which a semicolon starts (R170). -/
def stripComment (cs : List Char) : List Char := cs.takeWhile fun ch => ch != ';'

/-- Cut at the commas that stand in no parentheses. `cur` holds the current part in reverse. -/
def splitOperands (depth : Nat) (cur : List Char) : List Char → List (List Char)
  | [] => [cur.reverse]
  | ch :: rest =>
    if ch == ',' && depth == 0 then cur.reverse :: splitOperands depth [] rest
    else if ch == '(' then splitOperands (depth + 1) (ch :: cur) rest
    else if ch == ')' then splitOperands (depth - 1) (ch :: cur) rest
    else splitOperands depth (ch :: cur) rest

/-- The operands of a line, each without blanks around it. No text is no operand. -/
def parseOperands (cs : List Char) : List (List Char) :=
  if trimChars cs = [] then [] else (splitOperands 0 [] cs).map trimChars

/-- The register names that stand alone (R170). -/
def registerNames : List (List Char × RegId) :=
  [("PALETTE_BANK".toList, idPaletteBank), ("GFX_BANK".toList, idGfxBank), ("MODE_FLAGS".toList, idModeFlags),
   ("IRQ_LINE".toList, idIrqLine), ("VTOTAL".toList, idVtotal), ("HTOTAL".toList, idHtotal),
   ("VIS_TOP".toList, idVisTop), ("VIS_BOTTOM".toList, idVisBottom), ("VIS_LEFT".toList, idVisLeft),
   ("VIS_RIGHT".toList, idVisRight)]

/-- The two numbers of `(t,i)`: a tilemap number and an index below 0x400. -/
def parseIndexPair (cs : List Char) : Option (TileId × Nat) :=
  match cs with
  | '(' :: rest =>
    if rest.getLast? = some ')' then
      match (splitOperands 0 [] rest.dropLast).map trimChars with
      | [a, b] =>
        (parseBits 2 a).bind fun t => (parseNumber b).bind fun i => if i < 0x400 then some (t, i) else none
      | _ => none
    else none
  | _ => none

/-- The operand REG of `lwrite` (R170): a number, a register name, `SCROLL_X(t,i)` or `SCROLL_Y(t,i)`. -/
def parseRegister (cs : List Char) : Option RegId :=
  match registerNames.find? fun e => e.1 == cs with
  | some e => some e.2
  | none =>
    if cs.take 8 = "SCROLL_X".toList then (parseIndexPair (cs.drop 8)).map fun p => scrollXId p.1 p.2
    else if cs.take 8 = "SCROLL_Y".toList then (parseIndexPair (cs.drop 8)).map fun p => scrollYId p.1 p.2
    else parseBits 16 cs

/-- A line with a mnemonic and its operands (R170, R171). -/
def parseCommand (name : List Char) (ops : List (List Char)) : Option AsmLine :=
  match ops with
  | [] =>
    if name = "nop".toList then some (.command .nop)
    else if name = "tick".toList then some (.command .tick)
    else if name = "getfb".toList then some (.command .getfb)
    else if name = "reset".toList then some (.command .reset)
    else none
  | [a] =>
    if name = "rreg".toList then (parseBits 30 a).map fun a => .command (.rreg a)
    else if name = "marka".toList then (parseBits 2 a).map fun t => .command (.marka t)
    else if name = "boundary".toList then (parseBits 16 a).map fun n => .command (.boundary n)
    else if name = "ticks".toList then (parseCount a).map fun n => .ticks n
    else if name = ".word".toList then (parseBits 64 a).map fun w => .word w
    else none
  | [a, b] =>
    if name = "wmem".toList then
      (parseBits 30 a).bind fun a => (parseBits 8 b).map fun d => .command (.wmem a d)
    else if name = "wreg".toList then
      (parseBits 30 a).bind fun a => (parseBits 16 b).map fun d => .command (.wreg a d)
    else if name = "markd".toList then
      (parseBits 2 a).bind fun t => (parseBits 30 b).map fun i => .command (.markd t i)
    else if name = "lwrite".toList then
      (parseRegister a).bind fun r => (parseBits 16 b).map fun d => .command (.lwrite r d)
    else none
  | [a, b, d] =>
    if name = "fill".toList then
      (parseBits 30 a).bind fun a => (parseCount b).bind fun n => (parseBits 8 d).map fun d => .fill a n d
    else if name = "scrollx".toList then
      (parseBits 2 a).bind fun t => (parseNumber b).bind fun i => (parseBits 16 d).bind fun v =>
        if i < 0x400 then some (.scrollx t i v) else none
    else if name = "scrolly".toList then
      (parseBits 2 a).bind fun t => (parseNumber b).bind fun i => (parseBits 16 d).bind fun v =>
        if i < 0x400 then some (.scrolly t i v) else none
    else if name = "setmode".toList then
      (parseBits 1 a).bind fun fx => (parseBits 1 b).bind fun fy => (parseBits 4 d).map fun rs => .setmode fx fy rs
    else none
  | [a, b, d, e] =>
    (parseBits 12 a).bind fun x0 => (parseBits 12 b).bind fun x1 => (parseBits 12 d).bind fun y0 =>
      (parseBits 12 e).bind fun y1 =>
        if name = "sprites".toList then some (.command (.sprites x0 x1 y0 y1))
        else if name = "compose".toList then some (.command (.compose x0 x1 y0 y1))
        else none
  | [a, b, d, e, f] =>
    if name = "redraw".toList then
      (parseBits 2 a).bind fun t => (parseBits 12 b).bind fun x0 => (parseBits 12 d).bind fun x1 =>
        (parseBits 12 e).bind fun y0 => (parseBits 12 f).map fun y1 => .command (.redraw t x0 x1 y0 y1)
    else none
  | _ => none

/-- The words of one line of text (R170): none where the line is no line of the text form. A blank line or a comment
alone stands for no word. -/
def assembleLine (line : List Char) : Option (List Cmd) :=
  let cs := trimChars (stripComment line)
  if cs = [] then some []
  else
    let name := cs.takeWhile fun ch => !isBlank ch
    (parseCommand name (parseOperands (cs.drop name.length))).map AsmLine.words

/-- The command stream of a program text, one line after another (R170). -/
def assemble : List (List Char) → Option (List Cmd)
  | [] => some []
  | l :: ls => (assembleLine l).bind fun ws => (assemble ls).map fun rest => ws ++ rest

end Sys2Proof.Machine
end

