-- ==== Sys2Proof/Machine/Persist.lean ====
section
/-! DEFINITION. The persisted state that a save-state collaborator reads and restores (10_state.md R90). The spec models no
save or load command, so no step calls these (log 13). -/

namespace Sys2Proof.Machine

/-- The persisted state (R90). The palette RAM is a list of (address, byte), one per byte of each entry. -/
structure Persisted where
  active : Regs
  latchIrq : Bool
  dirty : Quad (List (Nat × Bool))
  allDirty : Quad Bool
  counter : U16
  palRam : List Host.Cell
  pending : List (RegId × U16)
  irqArmed : Bool
  lastBoundary : Option U16
  frameCount : U32
deriving DecidableEq, Repr

/-- The addresses of palette RAM (20_memory.md R105); there is none when PAL_KIND = STATIC_PROM. -/
def palRamAddrs (c : Config) : List Nat :=
  match c.pal.kind with
  | .staticProm => []
  | .dynamicRam => c.pal.pairs.map fun p => c.pal.ramAddr p.1 p.2

/-- What a save-state collaborator reads (R90). -/
def State.persisted (s : State) : Persisted where
  active := s.active
  latchIrq := s.latchIrq
  dirty := Quad.map Tilemap.dirty s.tilemaps
  allDirty := Quad.map Tilemap.allDirty s.tilemaps
  counter := s.counter
  palRam := (palRamAddrs s.cfg).map fun a => (a, s.mem.read a)
  pending := s.pending
  irqArmed := s.irqArmed
  lastBoundary := s.lastBoundary
  frameCount := s.frameCount

/-- A tilemap after a restore (R90): the saved dirty bits, everything marked dirty, and no cached value. -/
def Tilemap.restored (dirty : List (Nat × Bool)) (m : Tilemap) : Tilemap :=
  { m with dirty := dirty, allDirty := true, cache := [] }

/-- The memory with the saved palette RAM bytes written back. -/
def Memory.restorePalRam (m : Memory) (cells : List Host.Cell) : Memory :=
  cells.foldl (fun m e => m.write e.1 e.2) m

/-- What a save-state collaborator restores (R90): the persisted fields, `all_dirty` set for every tilemap, the caches
without value, and a dynamic palette decoded again from the restored palette RAM (40_palette.md R205). -/
def State.restored (p : Persisted) (s : State) : State :=
  let mem := s.mem.restorePalRam p.palRam
  { s with
    mem := mem
    active := p.active
    latchIrq := p.latchIrq
    tilemaps := ⟨s.tilemaps.t0.restored p.dirty.t0, s.tilemaps.t1.restored p.dirty.t1,
      s.tilemaps.t2.restored p.dirty.t2, s.tilemaps.t3.restored p.dirty.t3⟩
    pal :=
      match s.cfg.pal.kind with
      | .staticProm => s.pal
      | .dynamicRam => decodePalette s.cfg mem
    counter := p.counter
    pending := p.pending
    irqArmed := p.irqArmed
    lastBoundary := p.lastBoundary
    frameCount := p.frameCount }

end Sys2Proof.Machine
end

