-- ==== Sys2Proof/Safety.lean ====
section
/-! DEFINITION. What claims about the machine speak of: the invariants of its state, a configuration a machine can be built
on, the normal command stream, runs of ticks, and the must-be-zero fields of the encoding. -/

namespace Sys2Proof

/-- Field RSV, bits 23:16 (30_encoding.md R144). -/
def fieldRsv (w : Cmd) : BitVec 8 := w.extractLsb' 16 8

/-- Field RRSV, bits 53:48 (30_encoding.md R144). -/
def fieldRrsv (w : Cmd) : BitVec 6 := w.extractLsb' 48 6

/-- Field Z, bits 55:0 (30_encoding.md R144). -/
def fieldZ (w : Cmd) : BitVec 56 := w.extractLsb' 0 56

/-- ADDR[29:16] (30_encoding.md R145). -/
def fieldAddrHigh (w : Cmd) : BitVec 14 := w.extractLsb' 40 14

/-- DATA[15:8] (30_encoding.md R146). -/
def fieldDataHigh (w : Cmd) : BitVec 8 := w.extractLsb' 8 8

/-- The opcode byte of a mnemonic, the column OP of 30_encoding.md R146. -/
def Op.byte : Op → BitVec 8
  | .nop => 0x00
  | .wmem => 0x01
  | .wreg => 0x02
  | .rreg => 0x03
  | .tick => 0x04
  | .getfb => 0x05
  | .reset => 0x06
  | .markd => 0x10
  | .marka => 0x11
  | .redraw => 0x12
  | .sprites => 0x13
  | .compose => 0x14
  | .lwrite => 0x15
  | .boundary => 0x16

/-- The fields that must be 0 are 0, the column "fields that must be 0" of 30_encoding.md R146. -/
def Op.zeroFields (o : Op) (w : Cmd) : Bool :=
  match o with
  | .nop => decide (fieldZ w = 0)
  | .wmem => decide (fieldT w = 0) && decide (fieldRsv w = 0) && decide (fieldDataHigh w = 0)
  | .wreg => decide (fieldT w = 0) && decide (fieldRsv w = 0)
  | .rreg => decide (fieldT w = 0) && decide (fieldRsv w = 0) && decide (fieldData w = 0)
  | .tick => decide (fieldZ w = 0)
  | .getfb => decide (fieldZ w = 0)
  | .reset => decide (fieldZ w = 0)
  | .markd => decide (fieldRsv w = 0) && decide (fieldData w = 0)
  | .marka => decide (fieldAddr w = 0) && decide (fieldRsv w = 0) && decide (fieldData w = 0)
  | .redraw => decide (fieldRrsv w = 0)
  | .sprites => decide (fieldT w = 0) && decide (fieldRrsv w = 0)
  | .compose => decide (fieldT w = 0) && decide (fieldRrsv w = 0)
  | .lwrite => decide (fieldT w = 0) && decide (fieldAddrHigh w = 0) && decide (fieldRsv w = 0)
  | .boundary =>
    decide (fieldT w = 0) && decide (fieldAddrHigh w = 0) && decide (fieldRsv w = 0) && decide (fieldData w = 0)

/-- The command is one of the normal operating stream, or a test-port command that leaves the boundaries alone
(46_interface.md section 3): anything but BOUNDARY. -/
def Instr.keepsStep : Instr → Bool
  | .boundary _ => false
  | .nop => true
  | .wmem _ _ => true
  | .wreg _ _ => true
  | .rreg _ => true
  | .tick => true
  | .getfb => true
  | .reset => true
  | .markd _ _ => true
  | .marka _ => true
  | .redraw _ _ _ _ _ => true
  | .sprites _ _ _ _ => true
  | .compose _ _ _ _ => true
  | .lwrite _ _ => true

end Sys2Proof

namespace Sys2Proof.Machine

/-- A configuration on which building reports no error (70_reset_and_hazards.md R480, R481): the named checks hold, every
named ROM region is present, and a static PROM is long enough. -/
def buildable (c : Config) : Bool :=
  c.wf && regionsPresent c && (decide (c.pal.kind = .dynamicRam) || decide (c.pal.promLenMin ≤ c.prom.length))

/-- The maps of one tilemap are in canonical form. -/
def Tilemap.canonical (m : Tilemap) : Bool :=
  Sparse.canonical natLt false m.dirty && Sparse.sorted posLt m.cache &&
  Sparse.canonical posLt CachePixel.zero m.layer

/-- Every map of the state is in canonical form, so that equal contents are equal data; memory holds no byte outside
VideoMemoryRegion, and only writable registers have a pending value. -/
def State.canonical (s : State) : Bool :=
  s.mem.wf && s.mem.within s.cfg.memSize &&
  Sparse.sorted idLt s.pending && s.pending.all (fun e => s.cfg.writable e.1) &&
  Sparse.canonical idLt 0 s.active.scroll &&
  s.tilemaps.t0.canonical && s.tilemaps.t1.canonical && s.tilemaps.t2.canonical && s.tilemaps.t3.canonical &&
  Sparse.canonical posLt SprPixel.blank s.spr && Sparse.canonical natLt Rgb.black s.pal &&
  Sparse.canonical posLt Rgb.black s.fb &&
  (match s.completed with
   | none => true
   | some f => Sparse.canonical posLt Rgb.black f)

/-- The cache position of pixel (px, py) of a cell's block (41_tilemap.md R237), under global flips. -/
def blockPos (g : TilemapCfg) (fx fy : Bool) (cell : Nat × Nat) (px py : Nat) : Nat × Nat :=
  (mirror fy g.rows cell.2 * g.tileH + py, mirror fx g.cols cell.1 * g.tileW + px)

/-- The fresh pixel (41_tilemap.md R245): what `decode_cell` would write now, under the applied flips. -/
def State.freshPixel (s : State) (t : TileId) (cell : Nat × Nat) (px py : Nat) : CachePixel :=
  s.cellPixel t s.active.flipX s.active.flipY (s.tileInfo t ((s.cfg.tm t).scanAt cell.1 cell.2)) px py

/-- The fresh pixel at a cache position (Y, X) (41_tilemap.md R245): that of the cell whose block holds the position. -/
def State.freshAt (s : State) (t : TileId) (q : Nat × Nat) : CachePixel :=
  s.freshPixel t (cellOf (s.cfg.tm t) s.active.flipX s.active.flipY q) (q.2 % (s.cfg.tm t).tileW) (q.1 % (s.cfg.tm t).tileH)

/-- The pixel (y, x) of a tilemap's layer buffer (10_state.md R52). -/
def State.layerAt (s : State) (t : TileId) (p : Nat × Nat) : CachePixel := Sparse.getD CachePixel.zero (s.tm t).layer p

/-- The pixel (y, x) of the sprite layer (10_state.md R54). -/
def State.sprAt (s : State) (p : Nat × Nat) : SprPixel := Sparse.getD SprPixel.blank s.spr p

/-- The pixel (y, x) of the FrameBuffer (10_state.md R58). -/
def State.fbAt (s : State) (p : Nat × Nat) : Rgb := Sparse.getD Rgb.black s.fb p

/-- The source position (Y, X) of the screen pixel (y, x) under the applied latch's values, as 41_tilemap.md R241 writes it, read
off the registers: this is the statements' own copy of the rule, so that they do not lean on the engine's. -/
def State.sourceAt (s : State) (t : TileId) (y x : Nat) : Nat × Nat :=
  let g := s.cfg.tm t
  let j := if s.active.modeFlags.getLsbD (2 + t.toNat) then y / g.rowscrollGroup else 0
  ((y + (s.active.get (scrollYId t (j % g.scrollNY))).toNat) % (g.rows * g.tileH),
   (x + (s.active.get (scrollXId t (j % g.scrollNX))).toNat) % (g.cols * g.tileW))

/-- The index of the tile that the screen pixel (y, x) sees (41_tilemap.md R239): that of the grid cell whose block, at the place
the applied flips give it, holds the source position. The statements' own copy of the rule. -/
def State.tileSeen (s : State) (t : TileId) (y x : Nat) : Nat :=
  let g := s.cfg.tm t
  let col := (s.sourceAt t y x).2 / g.tileW
  let row := (s.sourceAt t y x).1 / g.tileH
  g.scan.eval
    [if s.active.modeFlags.getLsbD 0 then g.cols - 1 - col else col,
     if s.active.modeFlags.getLsbD 1 then g.rows - 1 - row else row]

/-- Coherence of one tilemap (41_tilemap.md R245): when all_dirty is 0, the cache block of every clean cell equals its fresh
decode at the position the applied flip gives it. -/
abbrev State.CoherentAt (s : State) (t : TileId) : Prop :=
  (s.tm t).allDirty = false →
    ∀ cell ∈ (s.cfg.tm t).cells, (s.tm t).isDirty ((s.cfg.tm t).scanAt cell.1 cell.2) = false →
      ∀ px ∈ List.range (s.cfg.tm t).tileW, ∀ py ∈ List.range (s.cfg.tm t).tileH,
        Sparse.find (s.tm t).cache (blockPos (s.cfg.tm t) s.active.flipX s.active.flipY cell px py) =
          some (s.freshPixel t cell px py)

/-- Coherence of every tilemap (41_tilemap.md R245). -/
abbrev State.Coherent (s : State) : Prop := ∀ t ∈ s.cfg.tileIds, s.CoherentAt t

/-- Every palette entry is the decode of its raw bytes (40_palette.md R205). -/
abbrev State.PalCoherent (s : State) : Prop :=
  ∀ i ∈ List.range s.cfg.pal.entries, s.rgb i = entryRgb s.cfg.pal (rawBytes s.cfg s.mem i)

/-- The boundaries are in step with the counter (46_interface.md R413): none yet, or the last one was the counter's. -/
abbrev State.InStep (s : State) : Prop := s.lastBoundary = none ∨ s.lastBoundary = some s.counter

/-- `n` steps, one after another. -/
def steps : Nat → State → Out
  | 0, s => .next s
  | n + 1, s => andThen (step s) (steps n)

/-- `n` TICK commands, one after another. -/
def ticks : Nat → State → Out
  | 0, s => .next s
  | n + 1, s => andThen (exec .tick s) (ticks n)

/-- The lines of the PartialRedraw events of a trace, in order (44_scheduler.md R353). -/
def redrawnLines (trace : List Event) : List U16 :=
  trace.filterMap fun e =>
    match e with
    | .partialRedraw n => some n
    | .interrupt _ _ => none
    | .readData _ => none
    | .frame _ => none

/-- Commands one after another, as long as each ends in a next state (20_memory.md R110). -/
def runAll : List Instr → State → Out
  | [], s => .next s
  | i :: is, s => andThen (exec i s) (runAll is)

/-- Boundary N comes in order (43_latch.md R323): it is the first one, or the successor of the last one under the applied
vertical total. -/
abbrev State.InOrder (s : State) (n : U16) : Prop :=
  ∀ l, s.lastBoundary = some l → n = if max 1 s.active.vtotal.toNat ≤ l.toNat + 1 then 0 else l + 1

/-- A boundary of line N applies the pending writes (43_latch.md R326). -/
abbrev State.Applies (s : State) (n : U16) : Prop := s.cfg.latchPeriod = .perScanline ∨ n = 0

/-- A command word is illegal on a configuration (30_encoding.md R160), by its fields: (a) no row matches it, (b) MARKD, MARKA
or REDRAW with T ≥ NT, (c) MARKD with ADDR ≥ NTILES[T]. -/
abbrev illegalWord (c : Config) (w : Cmd) : Prop :=
  (∀ r ∈ opRows, w &&& r.mask ≠ r.word) ∨
  ((fieldOp w = 0x10 ∨ fieldOp w = 0x11 ∨ fieldOp w = 0x12) ∧ c.nt ≤ (fieldT w).toNat) ∨
  (fieldOp w = 0x10 ∧ (c.tm (fieldT w)).nTiles ≤ (fieldAddr w).toNat)

/-- The values after initialise, as the table of 70_reset_and_hazards.md R483 lists them, but for the rows that differ between
building and RESET (`mem`, `pal`, `halted`, `fatal_code`, `refused`, `trace`). -/
structure ResetValues (t : State) : Prop where
  paletteBank : t.active.get idPaletteBank = 0
  gfxBank : t.active.get idGfxBank = 0
  modeFlags : t.active.get idModeFlags = 0
  irqLine : t.active.get idIrqLine = 0
  vtotal : t.active.get idVtotal = t.cfg.vtotalRst
  htotal : t.active.get idHtotal = t.cfg.htotalRst
  visTop : t.active.get idVisTop = t.cfg.visTopRst
  visBottom : t.active.get idVisBottom = t.cfg.visBottomRst
  visLeft : t.active.get idVisLeft = t.cfg.visLeftRst
  visRight : t.active.get idVisRight = t.cfg.visRightRst
  scroll : ∀ r : RegId, 0x000A ≤ r.toNat → t.active.get r = 0
  pending : ∀ r, t.pendingAt r = none
  irqArmed : t.irqArmed = false
  latchIrq : t.latchIrq = false
  lastBoundary : t.lastBoundary = none
  counter : t.counter = t.cfg.vtotalRst - 1
  frameCount : t.frameCount = 0
  dirty : ∀ u ∈ t.cfg.tileIds, ∀ i, (t.tm u).isDirty i = false
  allDirty : ∀ u ∈ t.cfg.tileIds, (t.tm u).allDirty = true
  cache : ∀ u ∈ t.cfg.tileIds, ∀ p, Sparse.find (t.tm u).cache p = none
  layer : ∀ u ∈ t.cfg.tileIds, ∀ p, t.layerAt u p = CachePixel.zero
  spr : ∀ p, t.sprAt p = .blank
  fb : ∀ p, t.fbAt p = Rgb.black
  completed : t.completed = none

/-- The states of a machine instance (10_state.md R30, 46_interface.md R431): built, given a stream and host values, stepped. -/
inductive Reachable : State → Prop where
  | built (c : Config) (launch : Memory) (s : State) (h : State.build c launch = .next s) : Reachable s
  | fed (s : State) (ws : List Cmd) (vs : List U16) (h : Reachable s) :
      Reachable { s with stream := ws, hostDraws := vs }
  | stepped (s s' : State) (h : Reachable s) (hs : step s = .next s') : Reachable s'

end Sys2Proof.Machine
end

