-- ==== Sys2Proof/Certificates/Slice0/Obligations.lean ====
section
/-! DEFINITION. The statements for the provers. Where a statement says `t = { s with f := t.f }`, it says that every field of the
state but those listed is unchanged. -/

open Sys2Proof Sys2Proof.Machine

/-! ## The step and the encoding -/

/-- O1. A step takes the next word of the stream and runs the command it decodes to on the state with that word consumed
(46_interface.md R430). With no word left nothing changes: that clause is the model's choice (log 3). -/
def Obligations.StepRunsTheDecodedCommand : Prop :=
  (∀ (s : State) (w : Cmd) (rest : List Cmd) (i : Instr),
    s.stream = w :: rest → decode w = .command i → step s = exec i { s with stream := rest }) ∧
  ∀ s : State, s.stream = [] → step s = .next s

/-- O2. R160, R430: exactly the illegal words of R160's three cases are refused. The refusal sets `refused` and nothing else; every
other word decodes to a legal command, and its step leaves `refused` as it is. That the word is taken from the stream is the
model's choice (log 3). -/
def Obligations.ExactlyIllegalWordsAreRefused : Prop :=
  ∀ (s : State) (w : Cmd) (rest : List Cmd), s.stream = w :: rest →
    (illegalWord s.cfg w → step s = .next { s with stream := rest, refused := true }) ∧
    (¬ illegalWord s.cfg w →
      (∃ i, decode w = .command i ∧ i.legal s.cfg = true) ∧ ∀ t, step s = .next t → t.refused = s.refused)

/-- O3. Decoding the word of a command gives the command back, with every operand at every value. -/
def Obligations.DecodeOfEncode : Prop := ∀ i : Instr, decode (encode i) = .command i

/-- O4. A word that decodes to a command is that command's only word: no bit of it is ignored. -/
def Obligations.EncodeOfDecode : Prop := ∀ (w : Cmd) (i : Instr), decode w = .command i → encode i = w

/-- O5. R147: the match and mask of each command; a word is a row's command exactly when `w & mask = match`; the rows are
disjoint, their OP bytes differ, and every mask covers bits 63:56. -/
def Obligations.DecodeIsMatchAndMask : Prop :=
  opRows.map (fun r => (r.op, r.word, r.mask)) =
    [(.nop, 0x0000000000000000, 0xFFFFFFFFFFFFFFFF), (.wmem, 0x0100000000000000, 0xFFC0000000FFFF00),
     (.wreg, 0x0200000000000000, 0xFFC0000000FF0000), (.rreg, 0x0300000000000000, 0xFFC0000000FFFFFF),
     (.tick, 0x0400000000000000, 0xFFFFFFFFFFFFFFFF), (.getfb, 0x0500000000000000, 0xFFFFFFFFFFFFFFFF),
     (.reset, 0x0600000000000000, 0xFFFFFFFFFFFFFFFF), (.markd, 0x1000000000000000, 0xFF00000000FFFFFF),
     (.marka, 0x1100000000000000, 0xFF3FFFFFFFFFFFFF), (.redraw, 0x1200000000000000, 0xFF3F000000000000),
     (.sprites, 0x1300000000000000, 0xFFFF000000000000), (.compose, 0x1400000000000000, 0xFFFF000000000000),
     (.lwrite, 0x1500000000000000, 0xFFFFFF0000FF0000), (.boundary, 0x1600000000000000, 0xFFFFFF0000FFFFFF)] ∧
  (∀ r ∈ opRows, ∀ w : Cmd, decode w = .command (r.op.operands w) ↔ w &&& r.mask = r.word) ∧
  (∀ r ∈ opRows, ∀ q ∈ opRows, ∀ w : Cmd, w &&& r.mask = r.word → w &&& q.mask = q.word → r = q) ∧
  (∀ r ∈ opRows, ∀ q ∈ opRows, fieldOp r.word = fieldOp q.word → r = q) ∧
  ∀ r ∈ opRows, fieldOp r.mask = 0xFF

/-- O6. The match and mask table (R147) and the opcode map (R146) agree: a word matches a row exactly when its OP byte is the
mnemonic's and every field that the map requires to be 0 is 0. -/
def Obligations.MatchTableAgreesWithOpcodeMap : Prop :=
  ∀ r ∈ opRows, ∀ w : Cmd, w &&& r.mask = r.word ↔ fieldOp w = r.op.byte ∧ r.op.zeroFields w = true

/-- O7. R161: a word with a reserved opcode is illegal, and only the all-zero word is NOP. -/
def Obligations.ReservedOpcodesAreIllegal : Prop :=
  (∀ w : Cmd, (7 ≤ (fieldOp w).toNat ∧ (fieldOp w).toNat ≤ 0x0F) ∨ 0x17 ≤ (fieldOp w).toNat →
    decode w = .illegal (.reservedOpcode (fieldOp w))) ∧
  ∀ w : Cmd, decode w = .command .nop ↔ w = 0

/-- O8. R172: the encoding examples, as text (R170, in the reading of log 16), as word and as command (R144, R145). -/
def Obligations.EncodingExamples : Prop :=
  (assembleLine "wmem 0x10, 0x41".toList = some [0x0100000010000041] ∧
    decode 0x0100000010000041 = .command (.wmem 0x10 0x41)) ∧
  (assembleLine "wreg 0x3, 0x0020".toList = some [0x0200000003000020] ∧
    decode 0x0200000003000020 = .command (.wreg 3 0x20)) ∧
  (assembleLine "rreg 0x10".toList = some [0x0300000010000000] ∧
    decode 0x0300000010000000 = .command (.rreg 0x10)) ∧
  (assembleLine "tick".toList = some [0x0400000000000000] ∧
    decode 0x0400000000000000 = .command .tick) ∧
  (assembleLine "lwrite SCROLL_X(0,0), 10".toList = some [0x150000100000000A] ∧
    decode 0x150000100000000A = .command (.lwrite 0x1000 10)) ∧
  (assembleLine "boundary 50".toList = some [0x1600000032000000] ∧
    decode 0x1600000032000000 = .command (.boundary 50)) ∧
  (assembleLine "redraw 1, 0, 255, 16, 16".toList = some [0x12400000FF010010] ∧
    decode 0x12400000FF010010 = .command (.redraw 1 0 255 16 16))

/-! ## The halt -/

/-- O9. R432: a legal command on a halted machine has no effect. -/
def Obligations.HaltedMachineIgnoresLegalCommands : Prop :=
  ∀ (i : Instr) (s : State), s.halted = true → i.legal s.cfg = true → exec i s = .next s

/-- O10. R442: the halt is permanent. However many steps a halted machine takes, and whatever its stream holds, they all
complete and change only the words left in the stream (the model's own, log 3) and the mark of an illegal word. -/
def Obligations.HaltIsPermanent : Prop :=
  ∀ (n : Nat) (s : State), s.halted = true →
    ∃ t : State, steps n s = .next t ∧
      t = { s with stream := s.stream.drop n, refused := t.refused } ∧ (s.refused = true → t.refused = true)

/-! ## Bus commands -/

/-- O11. R400: NOP leaves the state unchanged. Its word is 0; any other word with OP = 0x00 is illegal. -/
def Obligations.NopDoesNothing : Prop :=
  (∀ s : State, exec .nop s = .next s) ∧ encode .nop = 0 ∧
  ∀ w : Cmd, fieldOp w = 0x00 → w ≠ 0 → decode w = .illegal (.mustBeZero .nop)

/-- O12. WMEM inside VideoMemoryRegion stores its byte and no other one. It changes memory, dirty marks and the palette only. -/
def Obligations.WmemStoresOneByte : Prop :=
  ∀ (s : State) (a : Addr) (d : Byte), s.halted = false → a.toNat < s.cfg.memSize →
    ∃ t, exec (.wmem a d) s = .next t ∧ t.mem.read a.toNat = d ∧
      (∀ b, b ≠ a.toNat → t.mem.read b = s.mem.read b) ∧
      t = { s with mem := t.mem, tilemaps := t.tilemaps, pal := t.pal } ∧
      ∀ u, (t.tm u).cache = (s.tm u).cache ∧ (t.tm u).layer = (s.tm u).layer

/-- O13. R104: a WMEM outside VideoMemoryRegion has no effect and no fault. -/
def Obligations.WmemOutsideMemoryHasNoEffect : Prop :=
  ∀ (s : State) (a : Addr) (d : Byte), s.cfg.memSize ≤ a.toNat → exec (.wmem a d) s = .next s

/-- O14. R106, R401: a write that changes its byte marks exactly the tiles that the address backs, and every tile where the
address is character RAM; a write of the byte already there marks nothing (R246). -/
def Obligations.WmemMarksWhatItChanges : Prop :=
  ∀ (s : State) (a : Addr) (d : Byte), s.cfg.wf = true → s.halted = false → a.toNat < s.cfg.memSize →
    ∃ t, exec (.wmem a d) s = .next t ∧
      (d = s.mem.read a.toNat → t.tilemaps = s.tilemaps) ∧
      ∀ u : TileId, u.toNat < s.cfg.nt →
        (∀ i, i < (s.cfg.tm u).nTiles →
          ((t.tm u).isDirty i = true ↔
            (s.tm u).isDirty i = true ∨ (d ≠ s.mem.read a.toNat ∧ a.toNat ∈ (s.cfg.tm u).backingAddrs i))) ∧
        ((t.tm u).allDirty = true ↔
          (s.tm u).allDirty = true ∨
            (d ≠ s.mem.read a.toNat ∧ ∃ lo hi, (s.cfg.tm u).gfxSrc = .charRam lo hi ∧ lo ≤ a.toNat ∧ a.toNat ≤ hi))

/-- O15. R200, R204: the raw bytes of an entry are the bytes at its offsets, in palette RAM or in the PROM. A WMEM to byte k of
palette entry i recomputes that entry from its raw bytes after the store, and no other one. A WMEM to no such byte
leaves the palette as it is. -/
def Obligations.WmemUpdatesThePaletteEntry : Prop :=
  ∀ (s : State) (a : Addr) (d : Byte), s.cfg.wf = true → s.halted = false →
    let p := s.cfg.pal
    let off : Nat → Nat → Int := fun i k => (i : Int) * p.entryStride + (k : Int) * p.planeStride
    (∀ m i, (rawBytes s.cfg m i).length = p.bytes ∧
      ∀ k, k < p.bytes →
        (p.kind = .dynamicRam → (rawBytes s.cfg m i)[k]? = some (m.read ((p.ramBase : Int) + off i k).toNat)) ∧
        ∀ rom, p.kind = .staticProm → s.cfg.region p.promRegion = some rom → p.promLenMin ≤ rom.length → i < p.entries →
          (rawBytes s.cfg m i)[k]? = rom[(off i k).toNat]? ∧ 0 ≤ off i k ∧ (off i k).toNat < rom.length) ∧
    (∀ i k, p.kind = .dynamicRam → i < p.entries → k < p.bytes → (a.toNat : Int) = (p.ramBase : Int) + off i k →
      ∃ t, exec (.wmem a d) s = .next t ∧ t.mem.read a.toNat = d ∧
        t.rgb i = entryRgb p (rawBytes s.cfg t.mem i) ∧ ∀ j, j ≠ i → t.rgb j = s.rgb j) ∧
    ((∀ i k, p.kind = .dynamicRam → i < p.entries → k < p.bytes → (a.toNat : Int) ≠ (p.ramBase : Int) + off i k) →
      ∃ t, exec (.wmem a d) s = .next t ∧ t.pal = s.pal)

/-- O16. R402: WREG hands the register that REG_DECODE names to the latch; an address with no register, or with one that is
read-only or unassigned, has no effect. -/
def Obligations.WregWritesTheDecodedRegister : Prop :=
  ∀ (s : State) (a : Addr) (d : U16), s.halted = false →
    (s.cfg.regDecodeAt a = none → exec (.wreg a d) s = .next s) ∧
    (∀ r, s.cfg.regDecodeAt a = some r → s.cfg.writable r = false → exec (.wreg a d) s = .next s) ∧
    (∀ r, s.cfg.regDecodeAt a = some r → s.cfg.writable r = true →
      ∃ t, exec (.wreg a d) s = .next t ∧ t.pendingAt r = some d ∧ (∀ q, q ≠ r → t.pendingAt q = s.pendingAt q) ∧
        t = { s with pending := t.pending })

/-- O17. R403, R404: RREG of SCANLINE emits the counter and changes nothing but the trace. -/
def Obligations.RregScanlineEmitsTheCounter : Prop :=
  ∀ (s : State) (a : Addr), s.halted = false → s.cfg.regDecodeAt a = some 0x0010 →
    exec (.rreg a) s = .next { s with trace := s.trace ++ [.readData s.counter] }

/-- O18. RREG of any other address emits a drawn value: the host's next one if it has one ready (so any 16-bit value), else a
free value. How the model counts draws is its own choice (log 5). -/
def Obligations.RregOfOtherIdsEmitsADraw : Prop :=
  ∀ (s : State) (a : Addr), s.halted = false → s.cfg.regDecodeAt a ≠ some 0x0010 →
    (∀ v rest, s.hostDraws = v :: rest →
      exec (.rreg a) s = .next { s with trace := s.trace ++ [.readData v], hostDraws := rest }) ∧
    (s.hostDraws = [] →
      ∃ v, exec (.rreg a) s = .next { s with trace := s.trace ++ [.readData v], draws := s.draws + 1 })

/-- O19. R405: GETFB emits the last completed frame, or none, and changes nothing but the trace. -/
def Obligations.GetfbEmitsTheCompletedFrame : Prop :=
  ∀ s : State, s.halted = false → exec .getfb s = .next { s with trace := s.trace ++ [.frame s.completed] }

/-- O20. R407, R482: on a machine that was built without error, RESET cannot fail. It gives every field its reset value, decodes
the palette again, and keeps memory, the trace, `refused`, and the model's own fields. -/
def Obligations.ResetReinitialises : Prop :=
  ∀ s : State, buildable s.cfg = true → s.halted = false →
    ∃ t, exec .reset s = .next t ∧ ResetValues t ∧ t.PalCoherent ∧
      t.cfg = s.cfg ∧ t.mem = s.mem ∧ t.halted = false ∧ t.fatalCode = s.fatalCode ∧ t.refused = s.refused ∧
      t.trace = s.trace ∧ t.stream = s.stream ∧ t.hostDraws = s.hostDraws ∧ t.draws = s.draws

/-! ## Initialisation -/

/-- O21. R446, R481: what building a machine reports, in the order of the checks. A configuration that fails the checks (read as
log 11 says), a launch memory with a byte outside VideoMemoryRegion, or one that is not in the canonical form (the model's
own condition on its representation, log 10) is refused. Then a missing ROM region is fatal code 2; then a PROM that is too short is fatal code 1; both leave the palette
black. Otherwise the machine is not halted. -/
def Obligations.BuildChecksInOrder : Prop :=
  ∀ (c : Config) (launch : Memory),
    (¬ (c.wf = true ∧ launchOk c launch = true) → State.build c launch = .refused .configRejected) ∧
    (c.wf = true ∧ launchOk c launch = true →
      ∃ t, State.build c launch = .next t ∧
        ((∃ g ∈ c.namedRegions, c.region g = none) →
          t.halted = true ∧ t.fatalCode = some 2 ∧ ∀ i, t.rgb i = Rgb.black) ∧
        ((∀ g ∈ c.namedRegions, c.region g ≠ none) →
          (c.pal.kind = .staticProm ∧ c.prom.length < c.pal.promLenMin →
            t.halted = true ∧ t.fatalCode = some 1 ∧ ∀ i, t.rgb i = Rgb.black) ∧
          (¬ (c.pal.kind = .staticProm ∧ c.prom.length < c.pal.promLenMin) →
            t.halted = false ∧ t.fatalCode = none)))

/-- O22. R483: the values after building a machine, and after RESET on one that was built without error. -/
def Obligations.ResetValuesAtAGlance : Prop :=
  (∀ (c : Config) (launch : Memory) (t : State), State.build c launch = .next t →
    ResetValues t ∧ t.cfg = c ∧ t.mem = launch ∧ t.refused = false ∧ t.trace = [] ∧
      (buildable c = true → t.halted = false ∧ t.fatalCode = none ∧ t.PalCoherent)) ∧
  ∀ s t : State, buildable s.cfg = true → s.halted = false → exec .reset s = .next t →
    ResetValues t ∧ t.mem = s.mem ∧ t.halted = false ∧ (s.fatalCode = none → t.fatalCode = none) ∧ t.PalCoherent ∧
      t.refused = s.refused ∧ t.trace = s.trace

/-! ## Palette -/

/-- O23. R202: each channel of a decoded entry is the exact integer sum of its table's weights over the raw bits that are 1,
clamped to [0, 255]. -/
def Obligations.ChannelIsTheClampedWeightedSum : Prop :=
  ∀ (p : PalCfg) (b : List Byte),
    let sum : List ChWeight → Int := fun table =>
      (table.map fun w => w.weight * (if (b.getD w.k 0).getLsbD w.bit then 1 else 0)).sum
    ((entryRgb p b).r.toNat : Int) = min (max (sum p.chR) 0) 255 ∧
    ((entryRgb p b).g.toNat : Int) = min (max (sum p.chG) 0) 255 ∧
    ((entryRgb p b).b.toNat : Int) = min (max (sum p.chB) 0) 255

/-- O24. R206: every pen lies in the displayed bank, at the colour's offset modulo the bank size, and below PAL_ENTRIES. -/
def Obligations.PensStayInTheDisplayedBank : Prop :=
  ∀ (c : Config) (g : Regs) (base color bpp v : Nat), c.wf = true →
    (penOf c g base color bpp v).toNat =
      (g.get idPaletteBank).toNat % c.pal.numBanks * c.pal.bankSize + (base + color * 2 ^ bpp + v) % c.pal.bankSize ∧
    (penOf c g base color bpp v).toNat < c.pal.numBanks * c.pal.bankSize

/-- O25. R205: every step keeps every palette entry equal to the decode of its raw bytes. -/
def Obligations.PaletteStaysTheDecodeOfItsBytes : Prop :=
  ∀ s t : State, buildable s.cfg = true → s.PalCoherent → step s = .next t → t.PalCoherent

/-! ## The register latch -/

/-- O26. The writable ids of R33 and R148: 0x0000 to 0x0009, and the scroll ids with t < NT and an index below the count. -/
def Obligations.WritableRegisterIds : Prop :=
  ∀ (c : Config) (r : RegId), c.wf = true →
    (c.writable r = true ↔
      r.toNat ≤ 9 ∨
      (∃ (t : TileId) (i : Nat), t.toNat < c.nt ∧ i < (c.tm t).scrollNX ∧ r.toNat = 0x1000 + 0x400 * t.toNat + i) ∨
      (∃ (t : TileId) (i : Nat), t.toNat < c.nt ∧ i < (c.tm t).scrollNY ∧ r.toNat = 0x2000 + 0x400 * t.toNat + i))

/-- O27. R321: a latch write buffers its value for its register only, and changes nothing else. -/
def Obligations.LatchWriteBuffersItsValue : Prop :=
  ∀ (s : State) (r : RegId) (d : U16), s.halted = false → s.cfg.writable r = true →
    ∃ t, exec (.lwrite r d) s = .next t ∧ t.pendingAt r = some d ∧ (∀ q, q ≠ r → t.pendingAt q = s.pendingAt q) ∧
      t = { s with pending := t.pending }

/-- O28. R322: a latch write to a read-only or unassigned id has no effect. -/
def Obligations.LatchWriteToReadOnlyOrUnassignedIsIgnored : Prop :=
  ∀ (s : State) (r : RegId) (d : U16),
    r = 0x0010 ∨ r = 0x0011 ∨ r = 0x0012 ∨ s.cfg.writable r = false → exec (.lwrite r d) s = .next s

/-- O29. R326: a boundary in order completes. In PER_SCANLINE mode, or at line 0, it applies every pending value and empties
`pending`, and a register with none keeps its value; otherwise both copies stay. Beside the latch's own state it may
change the all-dirty flags only: the dirty bits, cache and layer of every tilemap are kept. -/
def Obligations.BoundaryAppliesPendingWrites : Prop :=
  ∀ (s : State) (n : U16), s.halted = false → s.InOrder n →
    ∃ t, exec (.boundary n) s = .next t ∧ t.lastBoundary = some n ∧
      (s.Applies n →
        (∀ r, t.active.get r = (s.pendingAt r).getD (s.active.get r)) ∧ ∀ r, t.pendingAt r = none) ∧
      (¬ s.Applies n → t.active = s.active ∧ t.pending = s.pending) ∧
      (∀ u, t.tm u = { s.tm u with allDirty := (t.tm u).allDirty }) ∧
      t = { s with
        lastBoundary := t.lastBoundary, active := t.active, pending := t.pending, irqArmed := t.irqArmed,
        latchIrq := t.latchIrq, tilemaps := t.tilemaps }

/-- O30. R327: a boundary marks every tilemap t < NT all dirty when the stored value of GFX_BANK, PALETTE_BANK or MODE_FLAGS
changed, and otherwise marks nothing. -/
def Obligations.BoundaryForcesDirtyOnGlobalChange : Prop :=
  ∀ (s : State) (n : U16), s.halted = false → s.InOrder n →
    ∃ t, exec (.boundary n) s = .next t ∧
      ∀ u : TileId, u.toNat < s.cfg.nt →
        ((t.active.get idGfxBank ≠ s.active.get idGfxBank ∨ t.active.get idPaletteBank ≠ s.active.get idPaletteBank ∨
            t.active.get idModeFlags ≠ s.active.get idModeFlags) →
          (t.tm u).allDirty = true ∧ t.tm u = { s.tm u with allDirty := true }) ∧
        ((t.active.get idGfxBank = s.active.get idGfxBank ∧ t.active.get idPaletteBank = s.active.get idPaletteBank ∧
            t.active.get idModeFlags = s.active.get idModeFlags) →
          t.tm u = s.tm u)

/-- O31. R328: an applied IRQ_LINE write arms the raster interrupt; the boundary of the armed line sets `latch_irq` and disarms;
any other boundary clears `latch_irq`. -/
def Obligations.BoundaryArmsAndFires : Prop :=
  ∀ (s : State) (n : U16), s.halted = false → s.InOrder n →
    ∃ t, exec (.boundary n) s = .next t ∧
      (t.latchIrq = true ↔
        (s.irqArmed = true ∨ (s.Applies n ∧ s.pendingAt idIrqLine ≠ none)) ∧ n = t.active.get idIrqLine) ∧
      (t.irqArmed = true ↔
        (s.irqArmed = true ∨ (s.Applies n ∧ s.pendingAt idIrqLine ≠ none)) ∧ n ≠ t.active.get idIrqLine)

/-- O32. R443: a boundary out of order halts the machine with code 3, and changes nothing else. -/
def Obligations.BoundaryOutOfOrderHalts : Prop :=
  ∀ (s : State) (n : U16), s.halted = false → ¬ s.InOrder n →
    exec (.boundary n) s = .next { s with halted := true, fatalCode := some 3 }

/-- O33. R331: writes never apply at once. At the boundary that applies them, each register takes the last value written to it
in command order, else its earlier pending value, else it keeps its value. -/
def Obligations.LastWriteWinsAtTheBoundary : Prop :=
  ∀ (s : State) (ws : List (RegId × U16)) (n : U16), s.halted = false → s.InOrder n → s.Applies n →
    ∃ t u, runAll (ws.map fun e => .lwrite e.1 e.2) s = .next t ∧ t.active = s.active ∧
      exec (.boundary n) t = .next u ∧
      ∀ r, s.cfg.writable r = true →
        u.active.get r = ((Sparse.find ws.reverse r).or (s.pendingAt r)).getD (s.active.get r)

/-! ## Tilemaps -/

/-- O34. R230: MARKD sets the bit of its tile, and nothing else. -/
def Obligations.MarkdMarksOneTile : Prop :=
  ∀ (s : State) (t : TileId) (i : Addr), s.halted = false → t.toNat < s.cfg.nt → i.toNat < (s.cfg.tm t).nTiles →
    ∃ u, exec (.markd t i) s = .next u ∧ (u.tm t).isDirty i.toNat = true ∧
      (∀ j, j ≠ i.toNat → (u.tm t).isDirty j = (s.tm t).isDirty j) ∧
      u.tm t = { s.tm t with dirty := (u.tm t).dirty } ∧ (∀ v, v ≠ t → u.tm v = s.tm v) ∧
      u = { s with tilemaps := u.tilemaps }

/-- O35. R231: MARKA sets the flag of its tilemap, and nothing else. -/
def Obligations.MarkaMarksEveryTile : Prop :=
  ∀ (s : State) (t : TileId), s.halted = false → t.toNat < s.cfg.nt →
    ∃ u, exec (.marka t) s = .next u ∧ u.tm t = { s.tm t with allDirty := true } ∧ (∀ v, v ≠ t → u.tm v = s.tm v) ∧
      u = { s with tilemaps := u.tilemaps }

/-- O36. R238, R241, R245: a REDRAW of a coherent tilemap completes. Every clip pixel (y, x) of the layer becomes the fresh pixel of
its source position, which R241 gives from the applied scroll registers and the tilemap's row scroll bit. Every other
pixel keeps its value, and no other tilemap or field changes. -/
def Obligations.RedrawDrawsFreshPixels : Prop :=
  ∀ (s : State) (t : TileId) (x0 x1 y0 y1 : Bound), s.cfg.wf = true → s.halted = false → t.toNat < s.cfg.nt →
    s.CoherentAt t →
    let g := s.cfg.tm t
    let inClip : Nat → Nat → Prop := fun y x =>
      x0.toNat ≤ x ∧ x ≤ x1.toNat ∧ x < s.cfg.fbW ∧ y0.toNat ≤ y ∧ y ≤ y1.toNat ∧ y < s.cfg.fbH
    let j : Nat → Nat := fun y => if s.active.modeFlags.getLsbD (2 + t.toNat) = true then y / g.rowscrollGroup else 0
    let sx : Nat → Nat := fun y =>
      (s.active.get (BitVec.ofNat 16 (0x1000 + 0x400 * t.toNat + j y % g.scrollNX))).toNat
    let sy : Nat → Nat := fun y =>
      (s.active.get (BitVec.ofNat 16 (0x2000 + 0x400 * t.toNat + j y % g.scrollNY))).toNat
    ∃ u, exec (.redraw t x0 x1 y0 y1) s = .next u ∧
      (∀ y x, inClip y x →
        u.layerAt t (y, x) = s.freshAt t ((y + sy y) % (g.rows * g.tileH), (x + sx y) % (g.cols * g.tileW))) ∧
      (∀ y x, ¬ inClip y x → u.layerAt t (y, x) = s.layerAt t (y, x)) ∧
      (∀ v, v ≠ t → u.tm v = s.tm v) ∧ u = { s with tilemaps := u.tilemaps }

/-- O37. R232, R239, R244: a REDRAW first expands the flag, whatever its clip, then cleans exactly the tiles that its clip pixels
see. After a full redraw no bit is set. -/
def Obligations.RedrawCleansItsVisibleCells : Prop :=
  ∀ (s u : State) (t : TileId) (x0 x1 y0 y1 : Bound), s.cfg.wf = true → s.halted = false → t.toNat < s.cfg.nt →
    exec (.redraw t x0 x1 y0 y1) s = .next u →
    let seen : Nat → Prop := fun i => ∃ y x, x0.toNat ≤ x ∧ x ≤ x1.toNat ∧ x < s.cfg.fbW ∧
      y0.toNat ≤ y ∧ y ≤ y1.toNat ∧ y < s.cfg.fbH ∧ s.tileSeen t y x = i
    (u.tm t).allDirty = false ∧
    (∀ i, i < (s.cfg.tm t).nTiles →
      ((u.tm t).isDirty i = true ↔
        ((s.tm t).isDirty i = true ∨ (s.tm t).allDirty = true) ∧ ¬ seen i)) ∧
    ((∀ i, i < (s.cfg.tm t).nTiles → seen i) → ∀ i, i < (s.cfg.tm t).nTiles → (u.tm t).isDirty i = false)

/-- O38. R247: scroll values a full tilemap width (or height) apart give the same redraw. -/
def Obligations.ScrollWrapsAtTheTilemapSize : Prop :=
  ∀ (s : State) (t : TileId) (k : Clip) (a b : RedrawArgs), s.cfg.wf = true → t.toNat < s.cfg.nt →
    a.sx.length = (s.cfg.tm t).scrollNX → a.sy.length = (s.cfg.tm t).scrollNY →
    b.fx = a.fx → b.fy = a.fy → b.rs = a.rs →
    (b.sy = a.sy →
      (∀ j, j < a.sx.length → (b.sx.getD j 0).toNat = (a.sx.getD j 0).toNat + (s.cfg.tm t).tmW) →
      s.redraw t k b = s.redraw t k a) ∧
    (b.sx = a.sx →
      (∀ j, j < a.sy.length → (b.sy.getD j 0).toNat = (a.sy.getD j 0).toNat + (s.cfg.tm t).tmH) →
      s.redraw t k b = s.redraw t k a)

/-- O39. R235, R236, R237, R243: the pixel decoded for cache position (y, x) under the global flips (fx, fy) is the unflipped pixel
of the mirrored position (Y, X): a flip mirrors the whole tilemap. That pixel comes from the tile of its cell, which
TILE_INFO gives from the backing bytes in plane order and the applied GFX_BANK; a code at or above NUM_CODES shows
BLANK_TILE; the pen, the opacity and the priority are those of R237. The fresh pixel is the one decoded under the
applied flips. -/
def Obligations.GlobalFlipMirrorsTheTilemap : Prop :=
  ∀ (s : State) (t : TileId) (fx fy : Bool) (x y : Nat), s.cfg.wf = true → t.toNat < s.cfg.nt →
    let g := s.cfg.tm t
    x < g.cols * g.tileW → y < g.rows * g.tileH →
    let decoded : Bool → Bool → Nat × Nat → CachePixel := fun fx fy q =>
      s.cellPixel t fx fy (s.tileInfo t (g.scanAt (cellOf g fx fy q).1 (cellOf g fx fy q).2)) (q.2 % g.tileW) (q.1 % g.tileH)
    let X := if fx then g.cols * g.tileW - 1 - x else x
    let Y := if fy then g.rows * g.tileH - 1 - y else y
    let i := g.scan.eval [X / g.tileW, Y / g.tileH]
    let bytes := g.backing.flatMap fun p => (List.range p.nbytes).map fun k => s.mem.read (p.base + i * p.nbytes + k)
    let e := g.tileInfo.eval i bytes (s.active.get idGfxBank)
    let px := if e.flipX then g.tileW - 1 - X % g.tileW else X % g.tileW
    let py := if e.flipY then g.tileH - 1 - Y % g.tileH else Y % g.tileH
    let gfx : Nat → Byte := fun k =>
      match g.gfxSrc with
      | .rom r => ((s.cfg.region r).getD []).getD k 0
      | .charRam lo _ => s.mem.read (lo + k)
    let v := if e.code.toNat < g.numCodes then g.gfxPixel.eval gfx g.bpp [e.code.toNat, px, py] else g.blank.eval [px, py]
    let pen := (s.active.get idPaletteBank).toNat % s.cfg.pal.numBanks * s.cfg.pal.bankSize +
      (g.penBase + e.colorIndex.toNat * 2 ^ g.bpp + v) % s.cfg.pal.bankSize
    decoded fx fy (y, x) = decoded false false (Y, X) ∧
    decoded fx fy (y, x) = ⟨BitVec.ofNat 16 pen, decide (g.tpen = none ∨ g.tpen ≠ some v), e.priority⟩ ∧
    s.freshAt t (y, x) = decoded (s.active.modeFlags.getLsbD 0) (s.active.modeFlags.getLsbD 1) (y, x)

/-! ## Sprites -/

/-- O40. R280: SPRITES completes. It clears its clip and draws the sprites over it: a clip pixel holds the last pixel written to
it, or None where none is; pixels outside the clip and every other field keep their values. -/
def Obligations.SpritesDrawsItsClip : Prop :=
  ∀ (s : State) (x0 x1 y0 y1 : Bound), s.halted = false →
    ∃ t, exec (.sprites x0 x1 y0 y1) s = .next t ∧
      let writes := spriteWrites s.cfg s.active s.mem (Clip.ofBounds x0 x1 y0 y1) s.active.flipX s.active.flipY
      (∀ p, (Clip.ofBounds x0 x1 y0 y1).contains s.cfg p = true →
        ((∀ e ∈ writes, e.1 ≠ p) → t.sprAt p = .blank) ∧
        ∀ before v later, writes = before ++ (p, v) :: later → (∀ e ∈ later, e.1 ≠ p) → t.sprAt p = v) ∧
      (∀ p, (Clip.ofBounds x0 x1 y0 y1).contains s.cfg p = false → t.sprAt p = s.sprAt p) ∧
      t = { s with spr := t.spr }

/-- O41. R280 to R285. The records are those of sprite RAM: a field is its segments with the first-listed most significant, an
absent field reads 0 and an absent `enable` reads 1. ASCENDING and DESCENDING are the two standard orders. The pixels
written are those of the enabled records with a bank and a size class in range, in the order SPR_SEQ lists them:
wherever that order is cut in two, the pixels of the records before the cut come first. How the other orders are
written down is the model's choice (log 2, log 8). -/
def Obligations.OnlyDrawableRecordsAreDrawn : Prop :=
  ∀ (c : Config) (g : Regs) (m : Memory) (k : Clip) (fx fy : Bool),
    let field := spriteField c m
    let f := c.spr.fields
    let recs := decodeRecords c m
    let drawnBy : List Nat → (Nat × Nat) × SprPixel → Prop := fun order e =>
      ∃ j ∈ order, ∃ r, recs[j]? = some r ∧
        r.enable = true ∧ r.bank < c.spr.numBanks ∧ r.size < c.spr.sizes.length ∧ e ∈ drawOne c g k fx fy r
    (∀ j absent, field j none absent = absent ∧ field j (some []) absent = 0 ∧
      ∀ segs b hi lo, field j (some (segs ++ [⟨b, hi, lo⟩])) absent =
        field j (some segs) absent * 2 ^ (hi + 1 - lo) +
          (m.read (c.spr.base + j * c.spr.stride + b)).toNat / 2 ^ lo % 2 ^ (hi + 1 - lo)) ∧
    recs.length = c.spr.num ∧
    (∀ j, j < c.spr.num → recs[j]? = some
      { code := field j f.code 0, color := field j f.color 0, x := field j f.x 0, y := field j f.y 0,
        size := field j f.size 0, flipX := decide (field j f.flipX 0 ≠ 0), flipY := decide (field j f.flipY 0 ≠ 0),
        priority := field j f.priority 0, bank := field j f.bank 0, enable := decide (field j f.enable 1 ≠ 0) }) ∧
    (c.spr.seq = .ascending → spriteOrder c recs = List.range c.spr.num) ∧
    (c.spr.seq = .descending → spriteOrder c recs = (List.range c.spr.num).reverse) ∧
    ∀ before later : List Nat, spriteOrder c recs = before ++ later →
      ∃ first second, spriteWrites c g m k fx fy = first ++ second ∧
        (∀ e, e ∈ first ↔ drawnBy before e) ∧ ∀ e, e ∈ second ↔ drawnBy later e

/-- O42. R286, R288, R289: the copies of a sprite. The copy (ky, kx) writes pixel (y, x) with value v exactly when that is its pixel
(i, j), placed by R286 and shifted by the wrap periods, inside the clip, and `plot` stores v for the pixel of R288 at the
flipped (u, v). A cell code at or above SPR_CODES gives none. The sprite writes the pixels of its copies, copy after
copy, ky before kx, so that the later copy wins. -/
def Obligations.SpriteCopiesWrapAndFlip : Prop :=
  ∀ (c : Config) (g : Regs) (k : Clip) (fx fy : Bool) (r : SpriteRecord),
    let p := c.spr
    let w := (p.sizes.getD r.size (0, 0)).1
    let h := (p.sizes.getD r.size (0, 0)).2
    let sx0 : Int := (if p.xSign = .plus then (r.x : Int) else -(r.x : Int)) + p.xOff
    let sy0 : Int := (if p.ySign = .plus then (r.y : Int) else -(r.y : Int)) + p.yOff
    let sx : Int := if fx then (p.flipW : Int) - (w : Int) - sx0 else sx0
    let sy : Int := if fy then (p.flipH : Int) - (h : Int) - sy0 else sy0
    let pixel : Nat → Nat → Option Nat := fun u v =>
      let code := p.cellCode.eval [r.code, r.size, u / p.cellW, v / p.cellH]
      if code < p.codes then
        some (p.gfxPixel.eval (fun b => ((c.region p.gfxRegion).getD []).getD b 0) p.bpp
          [r.bank, code, u % p.cellW, v % p.cellH])
      else none
    let shift : Bool → Int → Prop := fun wrap d => d = 0 ∨ (wrap = true ∧ (d = -1 ∨ d = 1))
    let copy : Int → Int → (Nat × Nat) × SprPixel → Prop := fun ky kx e =>
      k.contains c e.1 = true ∧ ∃ i j : Nat, i < w ∧ j < h ∧
        (e.1.2 : Int) = sx + kx * (p.wrapW : Int) + (i : Int) ∧ (e.1.1 : Int) = sy + ky * (p.wrapH : Int) + (j : Int) ∧
        plotValue c g r (pixel (if r.flipX = fx then i else w - 1 - i) (if r.flipY = fy then j else h - 1 - j)) = some e.2
    (∀ e, e ∈ drawOne c g k fx fy r ↔ ∃ ky kx, shift p.wrapY ky ∧ shift p.wrapX kx ∧ copy ky kx e) ∧
    ∀ ky kx, shift p.wrapY ky → shift p.wrapX kx →
      ∃ before own later, drawOne c g k fx fy r = before ++ own ++ later ∧
        (∀ e, e ∈ before ↔
          ∃ qy qx, shift p.wrapY qy ∧ shift p.wrapX qx ∧ (qy < ky ∨ (qy = ky ∧ qx < kx)) ∧ copy qy qx e) ∧
        (∀ e, e ∈ own ↔ copy ky kx e) ∧
        ∀ e, e ∈ later ↔
          ∃ qy qx, shift p.wrapY qy ∧ shift p.wrapX qx ∧ (ky < qy ∨ (qy = ky ∧ kx < qx)) ∧ copy qy qx e

/-- O43. R290: `plot` stores nothing for a missing pixel or the transparent pen, a Mask for the mask pen, and the coloured pen
for every other value, with the record's priority in 16 bits (log 9). -/
def Obligations.PlotStoresMaskOrPen : Prop :=
  ∀ (c : Config) (g : Regs) (r : SpriteRecord) (p : Nat), c.wf = true →
    plotValue c g r none = none ∧
    plotValue c g r (some c.spr.tpen) = none ∧
    (c.spr.maskPen = some p → plotValue c g r (some p) = some (.mask (BitVec.ofNat 16 r.priority))) ∧
    (p ≠ c.spr.tpen → c.spr.maskPen ≠ some p →
      plotValue c g r (some p) =
        some (.pix (penOf c g c.spr.penBase r.color c.spr.bpp p) (BitVec.ofNat 16 r.priority)))

/-! ## Composition -/

/-- O44. R383: COMPOSE completes. At each clip pixel the highest slot that contributes wins: a pen writes its palette entry, a mask
leaves the pixel, and no contributor at all writes the background pen. Pixels outside the clip and every other field
keep their values. -/
def Obligations.ComposeShowsTheHighestContributor : Prop :=
  ∀ (s : State) (x0 x1 y0 y1 : Bound), s.halted = false →
    ∃ t, exec (.compose x0 x1 y0 y1) s = .next t ∧
      (∀ p, (Clip.ofBounds x0 x1 y0 y1).contains s.cfg p = true →
        (∀ lower slot upper, s.cfg.slots = lower ++ slot :: upper → (∀ u ∈ upper, s.contrib p u = none) →
          (s.contrib p slot = some .mask → t.fbAt p = s.fbAt p) ∧
          ∀ q, s.contrib p slot = some (.pen q) → t.fbAt p = s.rgb q) ∧
        ((∀ u ∈ s.cfg.slots, s.contrib p u = none) →
          t.fbAt p = s.rgb ((s.active.get idPaletteBank).toNat % s.cfg.pal.numBanks * s.cfg.pal.bankSize + s.cfg.bgPen))) ∧
      (∀ p, (Clip.ofBounds x0 x1 y0 y1).contains s.cfg p = false → t.fbAt p = s.fbAt p) ∧
      t = { s with fb := t.fb }

/-- O45. R381, R382: what each kind of slot contributes. -/
def Obligations.SlotsContributeByPriority : Prop :=
  ∀ (s : State) (p : Nat × Nat) (k : Contrib),
    (∀ t sel, s.contrib p (.tile t sel) = some k ↔
      (s.layerAt t p).opaq = true ∧
        (sel = .any ∨ (sel = .back ∧ (s.layerAt t p).prio = false) ∨ (sel = .front ∧ (s.layerAt t p).prio = true)) ∧
        k = .pen (s.layerAt t p).pen.toNat) ∧
    (∀ set, s.contrib p (.sprite set) = some k ↔
      (∃ q prio, s.sprAt p = .pix q prio ∧ (set = .any ∨ ∃ l, set = .only l ∧ prio.toNat ∈ l) ∧ k = .pen q.toNat) ∨
      (∃ prio, s.sprAt p = .mask prio ∧ (set = .any ∨ ∃ l, set = .only l ∧ prio.toNat ∈ l) ∧ k = .mask)) ∧
    (s.contrib p .overlay = some k ↔
      s.cfg.overlayEn = true ∧ ∃ o, overlayAt s.cfg s.frameCount p.1 p.2 = some o ∧
        k = .pen ((s.active.get idPaletteBank).toNat % s.cfg.pal.numBanks * s.cfg.pal.bankSize + o % s.cfg.pal.bankSize))

/-! ## The scheduler -/

/-- O46. R351: every tick steps the counter to counter + 1, or to 0 where that reaches the applied vertical total, and counts a
frame when line 0 starts; a tick that ends in the fatal halt too. -/
def Obligations.TickStepsTheCounter : Prop :=
  ∀ s t : State, s.halted = false → exec .tick s = .next t →
    t.counter = (if max 1 s.active.vtotal.toNat ≤ s.counter.toNat + 1 then 0 else s.counter + 1) ∧
    t.frameCount = (if t.counter = 0 then s.frameCount + 1 else s.frameCount)

/-- O47. R350, R353 to R355, R452: a tick in step completes its line N. Its boundary applies the pending values and arms or
fires the raster interrupt as in O29 and O31. It emits the raster interrupt if the latch fires, PartialRedraw(N), and after line VIS_BOTTOM the vblank interrupt, in that order; the
frame completes on that line only; memory, palette, the fatal state and the model's own fields are untouched. -/
def Obligations.TickCompletesItsLine : Prop :=
  ∀ s : State, s.cfg.wf = true → s.Coherent → s.halted = false → s.InStep →
    ∃ t, exec .tick s = .next t ∧ t.halted = false ∧ t.lastBoundary = some t.counter ∧
      (s.Applies t.counter →
        (∀ r, t.active.get r = (s.pendingAt r).getD (s.active.get r)) ∧ ∀ r, t.pendingAt r = none) ∧
      (¬ s.Applies t.counter → t.active = s.active ∧ t.pending = s.pending) ∧
      (t.latchIrq = true ↔
        (s.irqArmed = true ∨ (s.Applies t.counter ∧ s.pendingAt idIrqLine ≠ none)) ∧
          t.counter = t.active.get idIrqLine) ∧
      (t.irqArmed = true ↔
        (s.irqArmed = true ∨ (s.Applies t.counter ∧ s.pendingAt idIrqLine ≠ none)) ∧
          t.counter ≠ t.active.get idIrqLine) ∧
      t.trace = s.trace ++
        ((if t.latchIrq then [.interrupt .raster s.cfg.vecRaster] else []) ++ [.partialRedraw t.counter] ++
          (if t.counter = t.active.get idVisBottom then [.interrupt .vblank s.cfg.vecVblank] else [])) ∧
      t.completed = (if t.counter = t.active.get idVisBottom then some t.fb else s.completed) ∧
      t = { s with
        counter := t.counter, frameCount := t.frameCount, lastBoundary := t.lastBoundary, active := t.active,
        pending := t.pending, irqArmed := t.irqArmed, latchIrq := t.latchIrq, tilemaps := t.tilemaps, spr := t.spr,
        fb := t.fb, completed := t.completed, trace := t.trace }

/-- O48. R441: a tick whose boundary is out of order keeps its new counter and frame count, halts with code 3, and does nothing
else. -/
def Obligations.TickOutOfOrderHalts : Prop :=
  ∀ s : State, s.halted = false →
    let n : U16 := if max 1 s.active.vtotal.toNat ≤ s.counter.toNat + 1 then 0 else s.counter + 1
    ¬ s.InOrder n →
    exec .tick s =
      .next { s with
        counter := n, frameCount := if n = 0 then s.frameCount + 1 else s.frameCount, halted := true,
        fatalCode := some 3 }

/-- O49. R352, R232, R239, R293: a tick in step renders exactly the visible part of its line, with the values its boundary applied.
There the tile layers hold the fresh pixels of their source positions, the sprite layer the last sprite pixel written,
and the FrameBuffer the contributor of the highest slot (a mask or no contributor as in O44); everywhere else all three
are as before. On every line the tick expands the all-dirty flag, which its boundary also sets when it changes a
global register, and then cleans exactly the tiles that the visible part sees: none on an invisible line. -/
def Obligations.TickRendersItsLine : Prop :=
  ∀ s t : State, s.cfg.wf = true → s.Coherent → s.halted = false → s.InStep → exec .tick s = .next t →
    let n := t.counter
    let left := (t.active.get idVisLeft).toNat
    let right := (t.active.get idVisRight).toNat
    let visible : Nat → Nat → Prop := fun y x =>
      y = n.toNat ∧ (t.active.get idVisTop).toNat ≤ y ∧ y ≤ (t.active.get idVisBottom).toNat ∧ y < s.cfg.fbH ∧
        left ≤ x ∧ x ≤ right ∧ x < s.cfg.fbW
    let clip : Clip := ⟨left, min right (s.cfg.fbW - 1), n.toNat, n.toNat⟩
    (∀ y x : Nat, visible y x →
      (∀ u : TileId, u.toNat < s.cfg.nt → t.layerAt u (y, x) = t.freshAt u (t.sourceAt u y x)) ∧
      t.sprAt (y, x) =
        (Sparse.find (spriteWrites t.cfg t.active t.mem clip (t.active.modeFlags.getLsbD 0)
          (t.active.modeFlags.getLsbD 1)).reverse (y, x)).getD .blank ∧
      (∀ lower slot upper, s.cfg.slots = lower ++ slot :: upper → (∀ u ∈ upper, t.contrib (y, x) u = none) →
        (t.contrib (y, x) slot = some .mask → t.fbAt (y, x) = s.fbAt (y, x)) ∧
        ∀ q, t.contrib (y, x) slot = some (.pen q) → t.fbAt (y, x) = t.rgb q) ∧
      ((∀ u ∈ s.cfg.slots, t.contrib (y, x) u = none) →
        t.fbAt (y, x) =
          t.rgb ((t.active.get idPaletteBank).toNat % s.cfg.pal.numBanks * s.cfg.pal.bankSize + s.cfg.bgPen))) ∧
    (∀ y x : Nat, ¬ visible y x →
      (∀ u, t.layerAt u (y, x) = s.layerAt u (y, x)) ∧ t.sprAt (y, x) = s.sprAt (y, x) ∧
      t.fbAt (y, x) = s.fbAt (y, x)) ∧
    ∀ u : TileId, u.toNat < s.cfg.nt →
      (t.tm u).allDirty = false ∧
      ∀ i, i < (s.cfg.tm u).nTiles →
        ((t.tm u).isDirty i = true ↔
          ((s.tm u).isDirty i = true ∨ (s.tm u).allDirty = true ∨
            t.active.get idGfxBank ≠ s.active.get idGfxBank ∨ t.active.get idPaletteBank ≠ s.active.get idPaletteBank ∨
            t.active.get idModeFlags ≠ s.active.get idModeFlags) ∧
          ¬ ∃ y x, visible y x ∧ t.tileSeen u y x = i)

/-- O50. R356: over one frame of ticks that starts at line 0, with VTOTAL unchanged, the PartialRedraw events are 0, 1, ..., VT-1,
each once and in order, and the next tick starts line 0 again. -/
def Obligations.FrameRedrawsEveryLineOnce : Prop :=
  ∀ s : State, s.cfg.wf = true → s.Coherent → s.halted = false → s.InStep → s.pendingAt idVtotal = none →
    let vt := max 1 (s.active.get idVtotal).toNat
    vt ≤ s.counter.toNat + 1 →
    ∃ t, ticks vt s = .next t ∧
      redrawnLines t.trace = redrawnLines s.trace ++ (List.range vt).map (BitVec.ofNat 16) ∧
      t.active.get idVtotal = s.active.get idVtotal ∧ t.counter.toNat + 1 = vt

/-! ## Invariants that every step keeps -/

/-- O51. R245: every step keeps the tile cache coherent. -/
def Obligations.CoherenceIsKept : Prop :=
  ∀ s t : State, buildable s.cfg = true → s.Coherent → step s = .next t → t.Coherent

/-- O52. Every step keeps every map of the state in canonical form, memory inside VideoMemoryRegion, and pending values at
writable registers. The canonical form is the model's own (log 10). -/
def Obligations.CanonicalFormIsKept : Prop :=
  ∀ s t : State, s.canonical = true → step s = .next t → t.canonical = true

/-- O53. R445, R494: while the next word is not a BOUNDARY, a machine whose boundaries are in step with its counter completes the
step, does not halt, and stays in step. -/
def Obligations.NormalStreamNeverHalts : Prop :=
  ∀ s : State, buildable s.cfg = true → s.Coherent → s.halted = false → s.InStep →
    (∀ w rest n, s.stream = w :: rest → decode w ≠ .command (.boundary n)) →
    ∃ t, step s = .next t ∧ t.halted = false ∧ t.InStep

/-- O54. The invariants hold on every machine that is built without error. -/
def Obligations.InvariantsHoldWhenBuilt : Prop :=
  ∀ (c : Config) (launch : Memory) (t : State), State.build c launch = .next t → t.halted = false →
    buildable t.cfg = true ∧ t.canonical = true ∧ t.Coherent ∧ t.PalCoherent ∧ t.InStep

/-- O55. State.reset is the machine built on TC with a launch memory of zeros (the model's choice, log 1 and log 4), and the
invariants hold there. -/
def Obligations.ResetStateIsBuiltAndInvariant : Prop :=
  State.build tc [] = .next State.reset ∧
  State.reset.canonical = true ∧ State.reset.Coherent ∧ State.reset.PalCoherent ∧ State.reset.InStep

/-- O56. R50, R51, R245: on any machine that was built, whatever its launch memory, command stream and host values, every step
completes: no cache pixel without value is ever read. Unless it has halted, its tile cache and palette are coherent. -/
def Obligations.NoReachableStepStops : Prop :=
  ∀ s : State, Reachable s → (∃ t, step s = .next t) ∧ (s.halted = false → s.Coherent ∧ s.PalCoherent)

/-! ## Which commands write what -/

/-- O57. R112: only WMEM changes a byte of memory. -/
def Obligations.OnlyWmemWritesMemory : Prop :=
  ∀ (i : Instr) (s t : State), exec i s = .next t → (∀ a d, i ≠ .wmem a d) → ∀ b, t.mem.read b = s.mem.read b

/-- O58. The fields that each command leaves alone: applied registers and latch flags change at a boundary, a tick and RESET only
(R320); the FrameBuffer, the sprite layer and the palette only by the commands that draw or decode them; the
configuration and the words left in the stream by none. -/
def Obligations.WhichCommandsWriteWhat : Prop :=
  ∀ (i : Instr) (s t : State), exec i s = .next t →
    ((∀ n, i ≠ .boundary n) → i ≠ .tick → i ≠ .reset →
      t.active = s.active ∧ t.irqArmed = s.irqArmed ∧ t.latchIrq = s.latchIrq ∧ t.lastBoundary = s.lastBoundary ∧
        t.halted = s.halted ∧ t.fatalCode = s.fatalCode) ∧
    (i ≠ .tick → i ≠ .reset → t.counter = s.counter ∧ t.frameCount = s.frameCount ∧ t.completed = s.completed) ∧
    ((∀ x0 x1 y0 y1, i ≠ .compose x0 x1 y0 y1) → i ≠ .tick → i ≠ .reset → t.fb = s.fb) ∧
    ((∀ x0 x1 y0 y1, i ≠ .sprites x0 x1 y0 y1) → i ≠ .tick → i ≠ .reset → t.spr = s.spr) ∧
    ((∀ a d, i ≠ .wmem a d) → i ≠ .reset → t.pal = s.pal) ∧
    t.cfg = s.cfg ∧ t.stream = s.stream

/-- O59. R70, R61: every step only appends to the trace, and none clears `refused`. -/
def Obligations.TraceOnlyGrows : Prop :=
  ∀ s t : State, step s = .next t → (∃ events, t.trace = s.trace ++ events) ∧ (s.refused = true → t.refused = true)

/-! ## Save state -/

/-- O60. R90: restoring a saved state gives back the persisted fields and the palette RAM bytes, marks every tilemap, leaves the
caches without value, and so is coherent (the reading of log 13). -/
def Obligations.RestoreMarksEverythingDirty : Prop :=
  ∀ s : State, ∀ u : State, u.cfg = s.cfg →
    let t := u.restored s.persisted
    t.active = s.active ∧ t.pending = s.pending ∧ t.counter = s.counter ∧ t.frameCount = s.frameCount ∧
    t.lastBoundary = s.lastBoundary ∧ t.irqArmed = s.irqArmed ∧ t.latchIrq = s.latchIrq ∧
    (∀ a ∈ palRamAddrs s.cfg, t.mem.read a = s.mem.read a) ∧
    (∀ v : TileId, (t.tm v).dirty = (s.tm v).dirty ∧ (t.tm v).allDirty = true ∧ (t.tm v).cache = []) ∧ t.Coherent
end

