-- ==== Sys2Proof/Laws/Sparse.lean ====
section
/-! SUPPORT. Laws of the sparse maps: reads after writes (for any list), and the canonical form. -/

namespace Sys2Proof

variable {κ α : Type} [DecidableEq κ]

@[simp] theorem Sparse.find_nil (k : κ) : Sparse.find ([] : List (κ × α)) k = none := rfl

@[simp] theorem Sparse.find_cons (e : κ × α) (m : List (κ × α)) (k : κ) :
    Sparse.find (e :: m) k = if e.1 = k then some e.2 else Sparse.find m k := rfl

@[simp] theorem Sparse.getD_nil (d : α) (k : κ) : Sparse.getD d ([] : List (κ × α)) k = d := rfl

theorem Sparse.find_insert (lt : κ → κ → Bool) (m : List (κ × α)) (k j : κ) (v : α) :
    Sparse.find (Sparse.insert lt m k v) j = if k = j then some v else Sparse.find m j := by
  induction m with
  | nil => simp [Sparse.insert]
  | cons e m ih =>
    simp only [Sparse.insert]
    by_cases hk : k = e.1
    · subst hk
      by_cases hj : e.1 = j <;> simp [hj]
    · by_cases hl : lt k e.1 = true
      · simp [hk, hl]
      · simp only [hk, hl, if_false, Bool.false_eq_true, Sparse.find_cons, ih]
        by_cases hj : e.1 = j
        · simp [hj, show ¬ k = j from fun h => hk (h.trans hj.symm)]
        · simp [hj]

theorem Sparse.find_erase (m : List (κ × α)) (k j : κ) :
    Sparse.find (Sparse.erase m k) j = if k = j then none else Sparse.find m j := by
  induction m with
  | nil => simp [Sparse.erase]
  | cons e m ih =>
    simp only [Sparse.erase, List.filter_cons] at ih ⊢
    by_cases he : e.1 = k
    · simp only [he, decide_true, Bool.not_true, Bool.false_eq_true, if_false, ih, Sparse.find_cons]
      by_cases hj : k = j <;> simp [hj]
    · simp only [he, decide_false, Bool.not_false, if_true, Sparse.find_cons, ih]
      by_cases hj : e.1 = j
      · simp [hj, show ¬ k = j from fun h => he (hj.trans h.symm)]
      · simp [hj]

theorem Sparse.getD_insert (lt : κ → κ → Bool) (d : α) (m : List (κ × α)) (k j : κ) (v : α) :
    Sparse.getD d (Sparse.insert lt m k v) j = if k = j then v else Sparse.getD d m j := by
  unfold Sparse.getD
  rw [Sparse.find_insert]
  split <;> rfl

/-- A read after a write of a map with a default: the value written, or what was there before. -/
@[simp] theorem Sparse.getD_put [DecidableEq α] (lt : κ → κ → Bool) (d : α) (m : List (κ × α)) (k j : κ) (v : α) :
    Sparse.getD d (Sparse.put lt d m k v) j = if k = j then v else Sparse.getD d m j := by
  unfold Sparse.put
  split
  · next h =>
    subst h
    unfold Sparse.getD
    rw [Sparse.find_erase]
    split <;> rfl
  · exact Sparse.getD_insert lt d m k j v

theorem Sparse.putAll_append [DecidableEq α] (lt : κ → κ → Bool) (d : α) (m es fs : List (κ × α)) :
    Sparse.putAll lt d m (es ++ fs) = Sparse.putAll lt d (Sparse.putAll lt d m es) fs := by
  simp [Sparse.putAll]

/-- A read after a list of writes: the last of them at the key, or what was there before. -/
theorem Sparse.getD_putAll [DecidableEq α] (lt : κ → κ → Bool) (d : α) (es : List (κ × α)) (m : List (κ × α)) (j : κ) :
    Sparse.getD d (Sparse.putAll lt d m es) j =
      ((Sparse.find es.reverse j).getD (Sparse.getD d m j)) := by
  induction es using List.reverseRecOn generalizing m with
  | nil => rfl
  | append_singleton es e ih =>
    rw [Sparse.putAll_append]
    simp only [Sparse.putAll, List.foldl_cons, List.foldl_nil, Sparse.getD_put, List.reverse_append,
      List.reverse_cons, List.reverse_nil, List.nil_append, List.singleton_append, Sparse.find_cons]
    split
    · rfl
    · exact ih m

theorem Sparse.insertAll_append (lt : κ → κ → Bool) (m es fs : List (κ × α)) :
    Sparse.insertAll lt m (es ++ fs) = Sparse.insertAll lt (Sparse.insertAll lt m es) fs := by
  simp [Sparse.insertAll]

/-- As `Sparse.getD_putAll`, for a map without a default. -/
theorem Sparse.find_insertAll (lt : κ → κ → Bool) (es : List (κ × α)) (m : List (κ × α)) (j : κ) :
    Sparse.find (Sparse.insertAll lt m es) j = ((Sparse.find es.reverse j).or (Sparse.find m j)) := by
  induction es using List.reverseRecOn generalizing m with
  | nil => rfl
  | append_singleton es e ih =>
    rw [Sparse.insertAll_append]
    simp only [Sparse.insertAll, List.foldl_cons, List.foldl_nil, Sparse.find_insert, List.reverse_append,
      List.reverse_cons, List.reverse_nil, List.nil_append, List.singleton_append, Sparse.find_cons]
    split
    · rfl
    · exact ih m

theorem Sparse.find_append (es fs : List (κ × α)) (j : κ) :
    Sparse.find (es ++ fs) j = (Sparse.find es j).or (Sparse.find fs j) := by
  induction es with
  | nil => rfl
  | cons e es ih =>
    simp only [List.cons_append, Sparse.find_cons, ih]
    split <;> rfl

theorem Sparse.find_eq_none {es : List (κ × α)} {j : κ} : Sparse.find es j = none ↔ ∀ e ∈ es, e.1 ≠ j := by
  induction es with
  | nil => simp
  | cons e es ih =>
    simp only [Sparse.find_cons, List.mem_cons, forall_eq_or_imp]
    split
    · next h => simp [h]
    · next h => simp [h, ih]

theorem Sparse.mem_of_find {es : List (κ × α)} {j : κ} {v : α} (h : Sparse.find es j = some v) : (j, v) ∈ es := by
  induction es with
  | nil => simp at h
  | cons e es ih =>
    simp only [Sparse.find_cons] at h
    split at h
    · next hk =>
      have hv : e.2 = v := by simpa using h
      exact List.mem_cons.mpr (.inl (by rw [← hk, ← hv]))
    · exact List.mem_cons_of_mem _ (ih h)

/-- Writes that give each key one value: the read is that value at a key of the list, else what was there before. -/
theorem Sparse.find_of_fun {es : List (κ × α)} {f : κ → α} (h : ∀ e ∈ es, e.2 = f e.1) (j : κ) :
    Sparse.find es j = if j ∈ es.map Prod.fst then some (f j) else none := by
  induction es with
  | nil => simp
  | cons e es ih =>
    simp only [List.mem_cons, forall_eq_or_imp] at h
    by_cases hk : e.1 = j
    · simp [hk, h.1]
    · have hk' : ¬ j = e.1 := fun hh => hk hh.symm
      simp only [Sparse.find_cons, hk, if_false, List.map_cons, List.mem_cons, hk', false_or, ih h.2]

/-- A read after writing `f` at each key of a list. -/
theorem Sparse.getD_putAll_map [DecidableEq α] (lt : κ → κ → Bool) (d : α) (m : List (κ × α)) (ks : List κ) (f : κ → α)
    (j : κ) :
    Sparse.getD d (Sparse.putAll lt d m (ks.map fun k => (k, f k))) j = if j ∈ ks then f j else Sparse.getD d m j := by
  rw [Sparse.getD_putAll, ← List.map_reverse, Sparse.find_of_fun (f := f) (by simp)]
  simp only [List.map_map, List.mem_map, List.mem_reverse, Function.comp]
  by_cases h : j ∈ ks
  · simp [h]
  · simp [h]

/-! The canonical form. -/

/-- The order of a map's keys: transitive, and total on different keys. -/
structure Sparse.Ordered (lt : κ → κ → Bool) : Prop where
  trans : ∀ a b c, lt a b = true → lt b c = true → lt a c = true
  total : ∀ a b, a ≠ b → lt a b = false → lt b a = true

theorem natLt_ordered : Sparse.Ordered natLt where
  trans a b c := by simp only [natLt, decide_eq_true_eq]; omega
  total a b := by simp only [natLt, decide_eq_true_eq, decide_eq_false_iff_not]; omega

theorem idLt_ordered : Sparse.Ordered idLt where
  trans a b c := by simp only [idLt, decide_eq_true_eq]; omega
  total a b := by
    simp only [idLt, decide_eq_true_eq, decide_eq_false_iff_not, ne_eq]
    intro h
    have : a.toNat ≠ b.toNat := fun hh => h (BitVec.eq_of_toNat_eq hh)
    omega

theorem posLt_ordered : Sparse.Ordered posLt where
  trans a b c := by
    simp only [posLt, Bool.or_eq_true, Bool.and_eq_true, decide_eq_true_eq]
    omega
  total a b := by
    simp only [posLt, Bool.or_eq_true, Bool.or_eq_false_iff, Bool.and_eq_true, Bool.and_eq_false_iff,
      decide_eq_true_eq, decide_eq_false_iff_not, ne_eq]
    intro h
    have : ¬ (a.1 = b.1 ∧ a.2 = b.2) := fun hh => h (Prod.ext hh.1 hh.2)
    omega

omit [DecidableEq κ] in
@[simp] theorem Sparse.sorted_nil (lt : κ → κ → Bool) : Sparse.sorted lt ([] : List (κ × α)) = true := rfl

omit [DecidableEq κ] in
theorem Sparse.sorted_cons (lt : κ → κ → Bool) (e : κ × α) (m : List (κ × α)) :
    Sparse.sorted lt (e :: m) = true ↔ (∀ f ∈ m, lt e.1 f.1 = true) ∧ Sparse.sorted lt m = true := by
  simp [Sparse.sorted]

omit [DecidableEq κ] in
theorem Sparse.sorted_filter (lt : κ → κ → Bool) (p : κ × α → Bool) (m : List (κ × α))
    (h : Sparse.sorted lt m = true) : Sparse.sorted lt (m.filter p) = true := by
  induction m with
  | nil => rfl
  | cons e m ih =>
    rw [Sparse.sorted_cons] at h
    rw [List.filter_cons]
    split
    · rw [Sparse.sorted_cons]
      exact ⟨fun f hf => h.1 f (List.mem_of_mem_filter hf), ih h.2⟩
    · exact ih h.2

theorem Sparse.mem_insert (lt : κ → κ → Bool) (m : List (κ × α)) (k : κ) (v : α) (f : κ × α)
    (h : f ∈ Sparse.insert lt m k v) : f = (k, v) ∨ f ∈ m := by
  induction m with
  | nil => simpa [Sparse.insert] using h
  | cons e m ih =>
    simp only [Sparse.insert] at h
    split at h
    · rcases List.mem_cons.mp h with h | h
      · exact .inl h
      · exact .inr (List.mem_cons_of_mem _ h)
    · split at h
      · rcases List.mem_cons.mp h with h | h
        · exact .inl h
        · exact .inr h
      · rcases List.mem_cons.mp h with h | h
        · exact .inr (by simp [h])
        · rcases ih h with h | h
          · exact .inl h
          · exact .inr (List.mem_cons_of_mem _ h)

theorem Sparse.sorted_insert {lt : κ → κ → Bool} (ho : Sparse.Ordered lt) (m : List (κ × α)) (k : κ) (v : α)
    (h : Sparse.sorted lt m = true) : Sparse.sorted lt (Sparse.insert lt m k v) = true := by
  induction m with
  | nil => rfl
  | cons e m ih =>
    rw [Sparse.sorted_cons] at h
    simp only [Sparse.insert]
    split
    · next hk =>
      rw [Sparse.sorted_cons]
      exact ⟨fun f hf => hk ▸ h.1 f hf, h.2⟩
    · next hk =>
      split
      · next hl =>
        rw [Sparse.sorted_cons, Sparse.sorted_cons]
        refine ⟨fun f hf => ?_, h⟩
        rcases List.mem_cons.mp hf with hf | hf
        · exact hf ▸ hl
        · exact ho.trans _ _ _ hl (h.1 f hf)
      · next hl =>
        rw [Sparse.sorted_cons]
        refine ⟨fun f hf => ?_, ih h.2⟩
        rcases Sparse.mem_insert lt m k v f hf with hf | hf
        · exact hf ▸ ho.total _ _ hk (by simpa using hl)
        · exact h.1 f hf

theorem Sparse.sorted_insertAll {lt : κ → κ → Bool} (ho : Sparse.Ordered lt) (es m : List (κ × α))
    (h : Sparse.sorted lt m = true) : Sparse.sorted lt (Sparse.insertAll lt m es) = true := by
  induction es generalizing m with
  | nil => exact h
  | cons e es ih => exact ih _ (Sparse.sorted_insert ho m e.1 e.2 h)

omit [DecidableEq κ] in
@[simp] theorem Sparse.canonical_nil [DecidableEq α] (lt : κ → κ → Bool) (d : α) :
    Sparse.canonical lt d ([] : List (κ × α)) = true := rfl

omit [DecidableEq κ] in
theorem Sparse.canonical_iff [DecidableEq α] (lt : κ → κ → Bool) (d : α) (m : List (κ × α)) :
    Sparse.canonical lt d m = true ↔ Sparse.sorted lt m = true ∧ ∀ e ∈ m, e.2 ≠ d := by
  simp [Sparse.canonical]

omit [DecidableEq κ] in
theorem Sparse.canonical_filter [DecidableEq α] (lt : κ → κ → Bool) (d : α) (p : κ × α → Bool) (m : List (κ × α))
    (h : Sparse.canonical lt d m = true) : Sparse.canonical lt d (m.filter p) = true := by
  rw [Sparse.canonical_iff] at h ⊢
  exact ⟨Sparse.sorted_filter lt p m h.1, fun e he => h.2 e (List.mem_of_mem_filter he)⟩

/-- A write keeps the canonical form. -/
theorem Sparse.canonical_put [DecidableEq α] {lt : κ → κ → Bool} (ho : Sparse.Ordered lt) (d : α) (m : List (κ × α)) (k : κ)
    (v : α) (h : Sparse.canonical lt d m = true) : Sparse.canonical lt d (Sparse.put lt d m k v) = true := by
  unfold Sparse.put
  split
  · exact Sparse.canonical_filter lt d _ m h
  · next hv =>
    rw [Sparse.canonical_iff] at h ⊢
    refine ⟨Sparse.sorted_insert ho m k v h.1, fun e he => ?_⟩
    rcases Sparse.mem_insert lt m k v e he with he | he
    · subst he
      exact hv
    · exact h.2 e he

theorem Sparse.canonical_putAll [DecidableEq α] {lt : κ → κ → Bool} (ho : Sparse.Ordered lt) (d : α) (es m : List (κ × α))
    (h : Sparse.canonical lt d m = true) : Sparse.canonical lt d (Sparse.putAll lt d m es) = true := by
  induction es generalizing m with
  | nil => exact h
  | cons e es ih => exact ih _ (Sparse.canonical_put ho d m e.1 e.2 h)

namespace Machine

/-! Memory (20_memory.md R101). -/

/-- A read after a write of one byte. -/
@[simp] theorem Memory.read_write (m : Memory) (a b : Nat) (v : Byte) :
    (m.write a v).read b = if a = b then v else m.read b := by
  simp [Memory.read, Memory.write]

/-- Every write keeps the canonical form of memory. -/
theorem Memory.wf_write (m : Memory) (a : Nat) (v : Byte) (h : m.wf = true) : (m.write a v).wf = true :=
  Sparse.canonical_put natLt_ordered _ m a v h

/-- A write inside VideoMemoryRegion lists no byte outside it. -/
theorem Memory.within_write (memSize : Nat) (m : Memory) (a : Nat) (v : Byte) (ha : a < memSize)
    (h : Memory.within memSize m = true) : Memory.within memSize (m.write a v) = true := by
  simp only [Memory.within, List.all_eq_true, decide_eq_true_eq] at h ⊢
  intro e he
  unfold Memory.write Sparse.put at he
  split at he
  · exact h e (List.mem_of_mem_filter he)
  · rcases Sparse.mem_insert natLt m a v e he with he | he
    · subst he
      exact ha
    · exact h e he

end Machine

end Sys2Proof
end

