-- ==== Sys2Proof/Laws/State.lean ====
section
/-! SUPPORT. One lemma per field and per named update of the state: no proof needs to unfold a record update. -/

namespace Sys2Proof.Machine

/-! `State.emit`. -/

@[simp] theorem State.emit_cfg (e : Event) (s : State) : (s.emit e).cfg = s.cfg := rfl
@[simp] theorem State.emit_mem (e : Event) (s : State) : (s.emit e).mem = s.mem := rfl
@[simp] theorem State.emit_active (e : Event) (s : State) : (s.emit e).active = s.active := rfl
@[simp] theorem State.emit_pending (e : Event) (s : State) : (s.emit e).pending = s.pending := rfl
@[simp] theorem State.emit_irqArmed (e : Event) (s : State) : (s.emit e).irqArmed = s.irqArmed := rfl
@[simp] theorem State.emit_latchIrq (e : Event) (s : State) : (s.emit e).latchIrq = s.latchIrq := rfl
@[simp] theorem State.emit_lastBoundary (e : Event) (s : State) : (s.emit e).lastBoundary = s.lastBoundary := rfl
@[simp] theorem State.emit_counter (e : Event) (s : State) : (s.emit e).counter = s.counter := rfl
@[simp] theorem State.emit_frameCount (e : Event) (s : State) : (s.emit e).frameCount = s.frameCount := rfl
@[simp] theorem State.emit_tilemaps (e : Event) (s : State) : (s.emit e).tilemaps = s.tilemaps := rfl
@[simp] theorem State.emit_spr (e : Event) (s : State) : (s.emit e).spr = s.spr := rfl
@[simp] theorem State.emit_pal (e : Event) (s : State) : (s.emit e).pal = s.pal := rfl
@[simp] theorem State.emit_fb (e : Event) (s : State) : (s.emit e).fb = s.fb := rfl
@[simp] theorem State.emit_completed (e : Event) (s : State) : (s.emit e).completed = s.completed := rfl
@[simp] theorem State.emit_halted (e : Event) (s : State) : (s.emit e).halted = s.halted := rfl
@[simp] theorem State.emit_fatalCode (e : Event) (s : State) : (s.emit e).fatalCode = s.fatalCode := rfl
@[simp] theorem State.emit_refused (e : Event) (s : State) : (s.emit e).refused = s.refused := rfl
@[simp] theorem State.emit_trace (e : Event) (s : State) : (s.emit e).trace = s.trace ++ [e] := rfl
@[simp] theorem State.emit_stream (e : Event) (s : State) : (s.emit e).stream = s.stream := rfl
@[simp] theorem State.emit_hostDraws (e : Event) (s : State) : (s.emit e).hostDraws = s.hostDraws := rfl
@[simp] theorem State.emit_draws (e : Event) (s : State) : (s.emit e).draws = s.draws := rfl

/-! `State.refuse`. -/

@[simp] theorem State.refuse_cfg (s : State) : (s.refuse).cfg = s.cfg := rfl
@[simp] theorem State.refuse_mem (s : State) : (s.refuse).mem = s.mem := rfl
@[simp] theorem State.refuse_active (s : State) : (s.refuse).active = s.active := rfl
@[simp] theorem State.refuse_pending (s : State) : (s.refuse).pending = s.pending := rfl
@[simp] theorem State.refuse_irqArmed (s : State) : (s.refuse).irqArmed = s.irqArmed := rfl
@[simp] theorem State.refuse_latchIrq (s : State) : (s.refuse).latchIrq = s.latchIrq := rfl
@[simp] theorem State.refuse_lastBoundary (s : State) : (s.refuse).lastBoundary = s.lastBoundary := rfl
@[simp] theorem State.refuse_counter (s : State) : (s.refuse).counter = s.counter := rfl
@[simp] theorem State.refuse_frameCount (s : State) : (s.refuse).frameCount = s.frameCount := rfl
@[simp] theorem State.refuse_tilemaps (s : State) : (s.refuse).tilemaps = s.tilemaps := rfl
@[simp] theorem State.refuse_spr (s : State) : (s.refuse).spr = s.spr := rfl
@[simp] theorem State.refuse_pal (s : State) : (s.refuse).pal = s.pal := rfl
@[simp] theorem State.refuse_fb (s : State) : (s.refuse).fb = s.fb := rfl
@[simp] theorem State.refuse_completed (s : State) : (s.refuse).completed = s.completed := rfl
@[simp] theorem State.refuse_halted (s : State) : (s.refuse).halted = s.halted := rfl
@[simp] theorem State.refuse_fatalCode (s : State) : (s.refuse).fatalCode = s.fatalCode := rfl
@[simp] theorem State.refuse_refused (s : State) : (s.refuse).refused = true := rfl
@[simp] theorem State.refuse_trace (s : State) : (s.refuse).trace = s.trace := rfl
@[simp] theorem State.refuse_stream (s : State) : (s.refuse).stream = s.stream := rfl
@[simp] theorem State.refuse_hostDraws (s : State) : (s.refuse).hostDraws = s.hostDraws := rfl
@[simp] theorem State.refuse_draws (s : State) : (s.refuse).draws = s.draws := rfl

/-! `State.raiseFatal`. -/

@[simp] theorem State.raiseFatal_cfg (e : FatalError) (s : State) : (s.raiseFatal e).cfg = s.cfg := rfl
@[simp] theorem State.raiseFatal_mem (e : FatalError) (s : State) : (s.raiseFatal e).mem = s.mem := rfl
@[simp] theorem State.raiseFatal_active (e : FatalError) (s : State) : (s.raiseFatal e).active = s.active := rfl
@[simp] theorem State.raiseFatal_pending (e : FatalError) (s : State) : (s.raiseFatal e).pending = s.pending := rfl
@[simp] theorem State.raiseFatal_irqArmed (e : FatalError) (s : State) : (s.raiseFatal e).irqArmed = s.irqArmed := rfl
@[simp] theorem State.raiseFatal_latchIrq (e : FatalError) (s : State) : (s.raiseFatal e).latchIrq = s.latchIrq := rfl
@[simp] theorem State.raiseFatal_lastBoundary (e : FatalError) (s : State) : (s.raiseFatal e).lastBoundary = s.lastBoundary := rfl
@[simp] theorem State.raiseFatal_counter (e : FatalError) (s : State) : (s.raiseFatal e).counter = s.counter := rfl
@[simp] theorem State.raiseFatal_frameCount (e : FatalError) (s : State) : (s.raiseFatal e).frameCount = s.frameCount := rfl
@[simp] theorem State.raiseFatal_tilemaps (e : FatalError) (s : State) : (s.raiseFatal e).tilemaps = s.tilemaps := rfl
@[simp] theorem State.raiseFatal_spr (e : FatalError) (s : State) : (s.raiseFatal e).spr = s.spr := rfl
@[simp] theorem State.raiseFatal_pal (e : FatalError) (s : State) : (s.raiseFatal e).pal = s.pal := rfl
@[simp] theorem State.raiseFatal_fb (e : FatalError) (s : State) : (s.raiseFatal e).fb = s.fb := rfl
@[simp] theorem State.raiseFatal_completed (e : FatalError) (s : State) : (s.raiseFatal e).completed = s.completed := rfl
@[simp] theorem State.raiseFatal_halted (e : FatalError) (s : State) : (s.raiseFatal e).halted = true := rfl
@[simp] theorem State.raiseFatal_fatalCode (e : FatalError) (s : State) : (s.raiseFatal e).fatalCode = some e.code := rfl
@[simp] theorem State.raiseFatal_refused (e : FatalError) (s : State) : (s.raiseFatal e).refused = s.refused := rfl
@[simp] theorem State.raiseFatal_trace (e : FatalError) (s : State) : (s.raiseFatal e).trace = s.trace := rfl
@[simp] theorem State.raiseFatal_stream (e : FatalError) (s : State) : (s.raiseFatal e).stream = s.stream := rfl
@[simp] theorem State.raiseFatal_hostDraws (e : FatalError) (s : State) : (s.raiseFatal e).hostDraws = s.hostDraws := rfl
@[simp] theorem State.raiseFatal_draws (e : FatalError) (s : State) : (s.raiseFatal e).draws = s.draws := rfl

/-! `State.setTm`. -/

@[simp] theorem State.setTm_cfg (t : TileId) (v : Tilemap) (s : State) : (s.setTm t v).cfg = s.cfg := rfl
@[simp] theorem State.setTm_mem (t : TileId) (v : Tilemap) (s : State) : (s.setTm t v).mem = s.mem := rfl
@[simp] theorem State.setTm_active (t : TileId) (v : Tilemap) (s : State) : (s.setTm t v).active = s.active := rfl
@[simp] theorem State.setTm_pending (t : TileId) (v : Tilemap) (s : State) : (s.setTm t v).pending = s.pending := rfl
@[simp] theorem State.setTm_irqArmed (t : TileId) (v : Tilemap) (s : State) : (s.setTm t v).irqArmed = s.irqArmed := rfl
@[simp] theorem State.setTm_latchIrq (t : TileId) (v : Tilemap) (s : State) : (s.setTm t v).latchIrq = s.latchIrq := rfl
@[simp] theorem State.setTm_lastBoundary (t : TileId) (v : Tilemap) (s : State) : (s.setTm t v).lastBoundary = s.lastBoundary := rfl
@[simp] theorem State.setTm_counter (t : TileId) (v : Tilemap) (s : State) : (s.setTm t v).counter = s.counter := rfl
@[simp] theorem State.setTm_frameCount (t : TileId) (v : Tilemap) (s : State) : (s.setTm t v).frameCount = s.frameCount := rfl
@[simp] theorem State.setTm_tilemaps (t : TileId) (v : Tilemap) (s : State) : (s.setTm t v).tilemaps = s.tilemaps.set t v := rfl
@[simp] theorem State.setTm_spr (t : TileId) (v : Tilemap) (s : State) : (s.setTm t v).spr = s.spr := rfl
@[simp] theorem State.setTm_pal (t : TileId) (v : Tilemap) (s : State) : (s.setTm t v).pal = s.pal := rfl
@[simp] theorem State.setTm_fb (t : TileId) (v : Tilemap) (s : State) : (s.setTm t v).fb = s.fb := rfl
@[simp] theorem State.setTm_completed (t : TileId) (v : Tilemap) (s : State) : (s.setTm t v).completed = s.completed := rfl
@[simp] theorem State.setTm_halted (t : TileId) (v : Tilemap) (s : State) : (s.setTm t v).halted = s.halted := rfl
@[simp] theorem State.setTm_fatalCode (t : TileId) (v : Tilemap) (s : State) : (s.setTm t v).fatalCode = s.fatalCode := rfl
@[simp] theorem State.setTm_refused (t : TileId) (v : Tilemap) (s : State) : (s.setTm t v).refused = s.refused := rfl
@[simp] theorem State.setTm_trace (t : TileId) (v : Tilemap) (s : State) : (s.setTm t v).trace = s.trace := rfl
@[simp] theorem State.setTm_stream (t : TileId) (v : Tilemap) (s : State) : (s.setTm t v).stream = s.stream := rfl
@[simp] theorem State.setTm_hostDraws (t : TileId) (v : Tilemap) (s : State) : (s.setTm t v).hostDraws = s.hostDraws := rfl
@[simp] theorem State.setTm_draws (t : TileId) (v : Tilemap) (s : State) : (s.setTm t v).draws = s.draws := rfl

/-! `State.drawSprites`. -/

@[simp] theorem State.drawSprites_cfg (k : Clip) (fx fy : Bool) (s : State) : (s.drawSprites k fx fy).cfg = s.cfg := rfl
@[simp] theorem State.drawSprites_mem (k : Clip) (fx fy : Bool) (s : State) : (s.drawSprites k fx fy).mem = s.mem := rfl
@[simp] theorem State.drawSprites_active (k : Clip) (fx fy : Bool) (s : State) : (s.drawSprites k fx fy).active = s.active := rfl
@[simp] theorem State.drawSprites_pending (k : Clip) (fx fy : Bool) (s : State) : (s.drawSprites k fx fy).pending = s.pending := rfl
@[simp] theorem State.drawSprites_irqArmed (k : Clip) (fx fy : Bool) (s : State) : (s.drawSprites k fx fy).irqArmed = s.irqArmed := rfl
@[simp] theorem State.drawSprites_latchIrq (k : Clip) (fx fy : Bool) (s : State) : (s.drawSprites k fx fy).latchIrq = s.latchIrq := rfl
@[simp] theorem State.drawSprites_lastBoundary (k : Clip) (fx fy : Bool) (s : State) : (s.drawSprites k fx fy).lastBoundary = s.lastBoundary := rfl
@[simp] theorem State.drawSprites_counter (k : Clip) (fx fy : Bool) (s : State) : (s.drawSprites k fx fy).counter = s.counter := rfl
@[simp] theorem State.drawSprites_frameCount (k : Clip) (fx fy : Bool) (s : State) : (s.drawSprites k fx fy).frameCount = s.frameCount := rfl
@[simp] theorem State.drawSprites_tilemaps (k : Clip) (fx fy : Bool) (s : State) : (s.drawSprites k fx fy).tilemaps = s.tilemaps := rfl
@[simp] theorem State.drawSprites_spr (k : Clip) (fx fy : Bool) (s : State) : (s.drawSprites k fx fy).spr = s.drawnSprites k fx fy := rfl
@[simp] theorem State.drawSprites_pal (k : Clip) (fx fy : Bool) (s : State) : (s.drawSprites k fx fy).pal = s.pal := rfl
@[simp] theorem State.drawSprites_fb (k : Clip) (fx fy : Bool) (s : State) : (s.drawSprites k fx fy).fb = s.fb := rfl
@[simp] theorem State.drawSprites_completed (k : Clip) (fx fy : Bool) (s : State) : (s.drawSprites k fx fy).completed = s.completed := rfl
@[simp] theorem State.drawSprites_halted (k : Clip) (fx fy : Bool) (s : State) : (s.drawSprites k fx fy).halted = s.halted := rfl
@[simp] theorem State.drawSprites_fatalCode (k : Clip) (fx fy : Bool) (s : State) : (s.drawSprites k fx fy).fatalCode = s.fatalCode := rfl
@[simp] theorem State.drawSprites_refused (k : Clip) (fx fy : Bool) (s : State) : (s.drawSprites k fx fy).refused = s.refused := rfl
@[simp] theorem State.drawSprites_trace (k : Clip) (fx fy : Bool) (s : State) : (s.drawSprites k fx fy).trace = s.trace := rfl
@[simp] theorem State.drawSprites_stream (k : Clip) (fx fy : Bool) (s : State) : (s.drawSprites k fx fy).stream = s.stream := rfl
@[simp] theorem State.drawSprites_hostDraws (k : Clip) (fx fy : Bool) (s : State) : (s.drawSprites k fx fy).hostDraws = s.hostDraws := rfl
@[simp] theorem State.drawSprites_draws (k : Clip) (fx fy : Bool) (s : State) : (s.drawSprites k fx fy).draws = s.draws := rfl

/-! `State.compose`. -/

@[simp] theorem State.compose_cfg (k : Clip) (s : State) : (s.compose k).cfg = s.cfg := rfl
@[simp] theorem State.compose_mem (k : Clip) (s : State) : (s.compose k).mem = s.mem := rfl
@[simp] theorem State.compose_active (k : Clip) (s : State) : (s.compose k).active = s.active := rfl
@[simp] theorem State.compose_pending (k : Clip) (s : State) : (s.compose k).pending = s.pending := rfl
@[simp] theorem State.compose_irqArmed (k : Clip) (s : State) : (s.compose k).irqArmed = s.irqArmed := rfl
@[simp] theorem State.compose_latchIrq (k : Clip) (s : State) : (s.compose k).latchIrq = s.latchIrq := rfl
@[simp] theorem State.compose_lastBoundary (k : Clip) (s : State) : (s.compose k).lastBoundary = s.lastBoundary := rfl
@[simp] theorem State.compose_counter (k : Clip) (s : State) : (s.compose k).counter = s.counter := rfl
@[simp] theorem State.compose_frameCount (k : Clip) (s : State) : (s.compose k).frameCount = s.frameCount := rfl
@[simp] theorem State.compose_tilemaps (k : Clip) (s : State) : (s.compose k).tilemaps = s.tilemaps := rfl
@[simp] theorem State.compose_spr (k : Clip) (s : State) : (s.compose k).spr = s.spr := rfl
@[simp] theorem State.compose_pal (k : Clip) (s : State) : (s.compose k).pal = s.pal := rfl
@[simp] theorem State.compose_fb (k : Clip) (s : State) : (s.compose k).fb = s.composedFrame k := rfl
@[simp] theorem State.compose_completed (k : Clip) (s : State) : (s.compose k).completed = s.completed := rfl
@[simp] theorem State.compose_halted (k : Clip) (s : State) : (s.compose k).halted = s.halted := rfl
@[simp] theorem State.compose_fatalCode (k : Clip) (s : State) : (s.compose k).fatalCode = s.fatalCode := rfl
@[simp] theorem State.compose_refused (k : Clip) (s : State) : (s.compose k).refused = s.refused := rfl
@[simp] theorem State.compose_trace (k : Clip) (s : State) : (s.compose k).trace = s.trace := rfl
@[simp] theorem State.compose_stream (k : Clip) (s : State) : (s.compose k).stream = s.stream := rfl
@[simp] theorem State.compose_hostDraws (k : Clip) (s : State) : (s.compose k).hostDraws = s.hostDraws := rfl
@[simp] theorem State.compose_draws (k : Clip) (s : State) : (s.compose k).draws = s.draws := rfl

/-! `State.advance`. -/

@[simp] theorem State.advance_cfg (s : State) : (s.advance).cfg = s.cfg := rfl
@[simp] theorem State.advance_mem (s : State) : (s.advance).mem = s.mem := rfl
@[simp] theorem State.advance_active (s : State) : (s.advance).active = s.active := rfl
@[simp] theorem State.advance_pending (s : State) : (s.advance).pending = s.pending := rfl
@[simp] theorem State.advance_irqArmed (s : State) : (s.advance).irqArmed = s.irqArmed := rfl
@[simp] theorem State.advance_latchIrq (s : State) : (s.advance).latchIrq = s.latchIrq := rfl
@[simp] theorem State.advance_lastBoundary (s : State) : (s.advance).lastBoundary = s.lastBoundary := rfl
@[simp] theorem State.advance_counter (s : State) : (s.advance).counter = s.nextLine := rfl
@[simp] theorem State.advance_frameCount (s : State) : (s.advance).frameCount = if s.nextLine = 0 then s.frameCount + 1 else s.frameCount := rfl
@[simp] theorem State.advance_tilemaps (s : State) : (s.advance).tilemaps = s.tilemaps := rfl
@[simp] theorem State.advance_spr (s : State) : (s.advance).spr = s.spr := rfl
@[simp] theorem State.advance_pal (s : State) : (s.advance).pal = s.pal := rfl
@[simp] theorem State.advance_fb (s : State) : (s.advance).fb = s.fb := rfl
@[simp] theorem State.advance_completed (s : State) : (s.advance).completed = s.completed := rfl
@[simp] theorem State.advance_halted (s : State) : (s.advance).halted = s.halted := rfl
@[simp] theorem State.advance_fatalCode (s : State) : (s.advance).fatalCode = s.fatalCode := rfl
@[simp] theorem State.advance_refused (s : State) : (s.advance).refused = s.refused := rfl
@[simp] theorem State.advance_trace (s : State) : (s.advance).trace = s.trace := rfl
@[simp] theorem State.advance_stream (s : State) : (s.advance).stream = s.stream := rfl
@[simp] theorem State.advance_hostDraws (s : State) : (s.advance).hostDraws = s.hostDraws := rfl
@[simp] theorem State.advance_draws (s : State) : (s.advance).draws = s.draws := rfl

/-! `State.armAndFire`. -/

@[simp] theorem State.armAndFire_cfg (n : U16) (s : State) : (s.armAndFire n).cfg = s.cfg := rfl
@[simp] theorem State.armAndFire_mem (n : U16) (s : State) : (s.armAndFire n).mem = s.mem := rfl
@[simp] theorem State.armAndFire_active (n : U16) (s : State) : (s.armAndFire n).active = s.active := rfl
@[simp] theorem State.armAndFire_pending (n : U16) (s : State) : (s.armAndFire n).pending = s.pending := rfl
@[simp] theorem State.armAndFire_irqArmed (n : U16) (s : State) : (s.armAndFire n).irqArmed = (s.irqArmed && !s.fires n) := rfl
@[simp] theorem State.armAndFire_latchIrq (n : U16) (s : State) : (s.armAndFire n).latchIrq = s.fires n := rfl
@[simp] theorem State.armAndFire_lastBoundary (n : U16) (s : State) : (s.armAndFire n).lastBoundary = s.lastBoundary := rfl
@[simp] theorem State.armAndFire_counter (n : U16) (s : State) : (s.armAndFire n).counter = s.counter := rfl
@[simp] theorem State.armAndFire_frameCount (n : U16) (s : State) : (s.armAndFire n).frameCount = s.frameCount := rfl
@[simp] theorem State.armAndFire_tilemaps (n : U16) (s : State) : (s.armAndFire n).tilemaps = s.tilemaps := rfl
@[simp] theorem State.armAndFire_spr (n : U16) (s : State) : (s.armAndFire n).spr = s.spr := rfl
@[simp] theorem State.armAndFire_pal (n : U16) (s : State) : (s.armAndFire n).pal = s.pal := rfl
@[simp] theorem State.armAndFire_fb (n : U16) (s : State) : (s.armAndFire n).fb = s.fb := rfl
@[simp] theorem State.armAndFire_completed (n : U16) (s : State) : (s.armAndFire n).completed = s.completed := rfl
@[simp] theorem State.armAndFire_halted (n : U16) (s : State) : (s.armAndFire n).halted = s.halted := rfl
@[simp] theorem State.armAndFire_fatalCode (n : U16) (s : State) : (s.armAndFire n).fatalCode = s.fatalCode := rfl
@[simp] theorem State.armAndFire_refused (n : U16) (s : State) : (s.armAndFire n).refused = s.refused := rfl
@[simp] theorem State.armAndFire_trace (n : U16) (s : State) : (s.armAndFire n).trace = s.trace := rfl
@[simp] theorem State.armAndFire_stream (n : U16) (s : State) : (s.armAndFire n).stream = s.stream := rfl
@[simp] theorem State.armAndFire_hostDraws (n : U16) (s : State) : (s.armAndFire n).hostDraws = s.hostDraws := rfl
@[simp] theorem State.armAndFire_draws (n : U16) (s : State) : (s.armAndFire n).draws = s.draws := rfl

end Sys2Proof.Machine
end

