-- ==== Sys2Proof/Laws/Ops.lean ====
section
/-! SUPPORT. Laws of the shared operations: the tilemap quadruple, the clip, the outcome of one decoded command. -/

namespace Sys2Proof

/-! The quadruple of tilemaps. -/

@[simp] theorem Quad.get_set {α : Type} (q : Quad α) (t u : TileId) (v : α) :
    (q.set t v).get u = if t = u then v else q.get u := by
  have h : ∀ t : TileId, t = 0 ∨ t = 1 ∨ t = 2 ∨ t = 3 := by decide
  rcases h t with rfl | rfl | rfl | rfl <;> rcases h u with rfl | rfl | rfl | rfl <;> rfl

@[simp] theorem Quad.get_all {α : Type} (v : α) (t : TileId) : (Quad.all v).get t = v := by
  unfold Quad.get Quad.all
  split <;> (try split) <;> (try split) <;> rfl

@[simp] theorem Quad.get_map {α β : Type} (f : α → β) (q : Quad α) (t : TileId) : (q.map f).get t = f (q.get t) := by
  unfold Quad.get Quad.map
  split <;> (try split) <;> (try split) <;> rfl

/-- Two quadruples with the same entries are equal. -/
theorem Quad.ext_get {α : Type} {q r : Quad α} (h : ∀ t, q.get t = r.get t) : q = r := by
  cases q
  cases r
  have h0 := h 0
  have h1 := h 1
  have h2 := h 2
  have h3 := h 3
  simp [Quad.get] at h0 h1 h2 h3
  simp [h0, h1, h2, h3]

/-- The tilemap numbers of a machine are those below NT. -/
@[simp] theorem Config.mem_tileIds (c : Config) (t : TileId) : t ∈ c.tileIds ↔ t.toNat < c.nt := by
  have h : ∀ t : TileId, t ∈ ([0, 1, 2, 3] : List TileId) := by decide
  simp only [Config.tileIds, List.mem_filter, h t, true_and, decide_eq_true_eq]

theorem Config.tileIds_nodup (c : Config) : c.tileIds.Nodup :=
  List.Nodup.filter _ (by decide)

namespace Machine

/-- `mapTilemaps` applies the function once to each tilemap of a list without repeats, and to no other. -/
theorem get_mapTilemaps (f : TileId → Tilemap → Tilemap) (ids : List TileId) (hn : ids.Nodup) (q : Quad Tilemap) (t : TileId) :
    (mapTilemaps f ids q).get t = if t ∈ ids then f t (q.get t) else q.get t := by
  unfold mapTilemaps
  induction ids generalizing q with
  | nil => simp
  | cons u ids ih =>
    rw [List.nodup_cons] at hn
    rw [List.foldl_cons, ih hn.2, Quad.get_set]
    by_cases h : u = t
    · subst h
      simp [hn.1]
    · have h' : t ≠ u := fun e => h e.symm
      simp [h, h']

@[simp] theorem State.tm_setTm (s : State) (t u : TileId) (v : Tilemap) :
    (s.setTm t v).tm u = if t = u then v else s.tm u := Quad.get_set _ _ _ _

/-! The clip rectangle. -/

theorem mem_boundedRange (lo hi bound v : Nat) : v ∈ boundedRange lo hi bound ↔ lo ≤ v ∧ v ≤ hi ∧ v < bound := by
  simp only [boundedRange, List.mem_filter, List.mem_range, Bool.and_eq_true, decide_eq_true_eq]
  omega

/-- The pixels listed for a clip are the pixels it contains (00_scope.md R14). -/
@[simp] theorem Clip.mem_pixels (c : Config) (k : Clip) (p : Nat × Nat) : p ∈ k.pixels c ↔ k.contains c p = true := by
  obtain ⟨y, x⟩ := p
  simp only [Clip.pixels, List.mem_flatMap, List.mem_map, mem_boundedRange, Clip.contains, Bool.and_eq_true,
    decide_eq_true_eq, Prod.mk.injEq]
  constructor
  · rintro ⟨y', hy, x', hx, rfl, rfl⟩
    omega
  · intro h
    exact ⟨y, by omega, x, by omega, rfl, rfl⟩

@[simp] theorem Clip.emptyClip_contains (c : Config) (p : Nat × Nat) : Clip.emptyClip.contains c p = false := by
  rw [Bool.eq_false_iff]
  intro h
  simp only [Clip.contains, Bool.and_eq_true, decide_eq_true_eq] at h
  have h1 : 1 ≤ p.2 := h.1.1.1.1.1
  have h2 : p.2 ≤ 0 := h.1.1.1.1.2
  omega

/-- The pixels of a command's clip, by its fields (00_scope.md R14, 30_encoding.md R144). -/
theorem Clip.contains_ofBounds (c : Config) (x0 x1 y0 y1 : Bound) (y x : Nat) :
    (Clip.ofBounds x0 x1 y0 y1).contains c (y, x) = true ↔
      x0.toNat ≤ x ∧ x ≤ x1.toNat ∧ x < c.fbW ∧ y0.toNat ≤ y ∧ y ≤ y1.toNat ∧ y < c.fbH := by
  unfold Clip.contains
  simp only [Bool.and_eq_true, decide_eq_true_eq, and_assoc]
  rfl

/-! Outcomes. -/

@[simp] theorem andThen_next (s : State) (f : State → Out) : andThen (.next s) f = f s := rfl

/-- What `andThen` can do when it ends in a next state. -/
theorem andThen_eq_next {o : Out} {f : State → Out} {t : State} (h : andThen o f = .next t) :
    ∃ s, o = .next s ∧ f s = .next t := by
  cases o with
  | next s => exact ⟨s, rfl, h⟩
  | fault r => cases h
  | refused r => cases h

/-- What a decoded command can do: a refusal, nothing on a halted machine, or its effect. -/
theorem command_eq_next {i : Instr} {e : State → Out} {s t : State} (h : command i e s = .next t) :
    (i.legal s.cfg = false ∧ t = s.refuse) ∨ (i.legal s.cfg = true ∧ s.halted = true ∧ t = s) ∨
      (i.legal s.cfg = true ∧ s.halted = false ∧ e s = .next t) := by
  unfold command at h
  split at h
  · next hl =>
    split at h
    · next hh =>
      injection h with h
      exact .inr (.inl ⟨hl, hh, h.symm⟩)
    · next hh => exact .inr (.inr ⟨hl, by simpa using hh, h⟩)
  · next hl =>
    injection h with h
    exact .inl ⟨by simpa using hl, h.symm⟩

theorem command_live {i : Instr} {e : State → Out} {s : State} (hl : i.legal s.cfg = true) (hh : s.halted = false) :
    command i e s = e s := by
  simp [command, hl, hh]

theorem command_halted {i : Instr} {e : State → Out} {s : State} (hl : i.legal s.cfg = true) (hh : s.halted = true) :
    command i e s = .next s := by
  simp [command, hl, hh]

theorem command_illegal {i : Instr} {e : State → Out} {s : State} (hl : i.legal s.cfg = false) :
    command i e s = .next s.refuse := by
  simp [command, hl]

/-- The effect of each command where it is legal and the machine is not halted. -/
def effect (i : Instr) (s : State) : Out :=
  match i with
  | .nop => .next s
  | .wmem a d => .next (s.writeMemory a.toNat d)
  | .wreg a d =>
    match s.cfg.regDecodeAt a with
    | none => .next s
    | some r => .next (s.latchWrite r d)
  | .rreg a => .next ((s.afterRead (s.cfg.regDecodeAt a)).emit (.readData (s.readValue (s.cfg.regDecodeAt a))))
  | .tick => s.tick
  | .getfb => .next (s.emit (.frame s.completed))
  | .reset => .next (s.initialise [] true)
  | .markd t i => .next (s.setTm t ((s.tm t).markDirty i.toNat))
  | .marka t => .next (s.setTm t (s.tm t).markAll)
  | .redraw t x0 x1 y0 y1 => s.redraw t (Clip.ofBounds x0 x1 y0 y1) (s.redrawArgs t)
  | .sprites x0 x1 y0 y1 => .next (s.drawSprites (Clip.ofBounds x0 x1 y0 y1) s.active.flipX s.active.flipY)
  | .compose x0 x1 y0 y1 => .next (s.compose (Clip.ofBounds x0 x1 y0 y1))
  | .lwrite r d => .next (s.latchWrite r d)
  | .boundary n => .next (s.afterBoundary n)

/-- Every arm of `exec` is its command's effect under the one dispatch of R430. -/
theorem exec_eq (i : Instr) (s : State) : exec i s = command i (effect i) s := by
  cases i <;> rfl

theorem exec_live {i : Instr} {s : State} (hl : i.legal s.cfg = true) (hh : s.halted = false) : exec i s = effect i s := by
  rw [exec_eq, command_live hl hh]

/-- What `exec` can do when it ends in a next state. -/
theorem exec_eq_next {i : Instr} {s t : State} (h : exec i s = .next t) :
    (i.legal s.cfg = false ∧ t = s.refuse) ∨ (i.legal s.cfg = true ∧ s.halted = true ∧ t = s) ∨
      (i.legal s.cfg = true ∧ s.halted = false ∧ effect i s = .next t) :=
  command_eq_next (exec_eq i s ▸ h)

/-- What `step` can do when it ends in a next state: an empty stream, an illegal word, a decoded command. -/
theorem step_eq_next {s t : State} (h : step s = .next t) :
    (s.stream = [] ∧ t = s) ∨
      ∃ w rest, s.stream = w :: rest ∧
        ((∃ e, decode w = .illegal e ∧ t = ({ s with stream := rest } : State).refuse) ∨
          ∃ i, decode w = .command i ∧ exec i { s with stream := rest } = .next t) := by
  unfold step at h
  split at h
  · next hs =>
    injection h with h
    exact .inl ⟨hs, h.symm⟩
  · next w rest hs =>
    refine .inr ⟨w, rest, hs, ?_⟩
    split at h
    · next e hd =>
      injection h with h
      exact .inl ⟨e, hd, h.symm⟩
    · next i hd => exact .inr ⟨i, hd, h⟩

end Machine

end Sys2Proof
end

