-- ==== Sys2Proof/Laws/Latch.lean ====
section
/-! SUPPORT. Laws of the registers and of the latch: reads after writes, the application of pending writes, and what a
boundary can do. -/

namespace Sys2Proof.Machine

/-! Registers. -/

@[simp] theorem Regs.set_paletteBank (g : Regs) (r : RegId) (v : U16) :
    (g.set r v).paletteBank = if r = idPaletteBank then v else g.paletteBank := by
  by_cases h : r = idPaletteBank
  · subst h
    rfl
  · simp only [Regs.set, apply_ite Regs.paletteBank, h, if_false, ite_self]

@[simp] theorem Regs.set_gfxBank (g : Regs) (r : RegId) (v : U16) :
    (g.set r v).gfxBank = if r = idGfxBank then v else g.gfxBank := by
  by_cases h : r = idGfxBank
  · subst h
    rfl
  · simp only [Regs.set, apply_ite Regs.gfxBank, h, if_false, ite_self]

@[simp] theorem Regs.set_modeFlags (g : Regs) (r : RegId) (v : U16) :
    (g.set r v).modeFlags = if r = idModeFlags then v else g.modeFlags := by
  by_cases h : r = idModeFlags
  · subst h
    rfl
  · simp only [Regs.set, apply_ite Regs.modeFlags, h, if_false, ite_self]

@[simp] theorem Regs.set_irqLine (g : Regs) (r : RegId) (v : U16) :
    (g.set r v).irqLine = if r = idIrqLine then v else g.irqLine := by
  by_cases h : r = idIrqLine
  · subst h
    rfl
  · simp only [Regs.set, apply_ite Regs.irqLine, h, if_false, ite_self]

@[simp] theorem Regs.set_vtotal (g : Regs) (r : RegId) (v : U16) :
    (g.set r v).vtotal = if r = idVtotal then v else g.vtotal := by
  by_cases h : r = idVtotal
  · subst h
    rfl
  · simp only [Regs.set, apply_ite Regs.vtotal, h, if_false, ite_self]

@[simp] theorem Regs.set_htotal (g : Regs) (r : RegId) (v : U16) :
    (g.set r v).htotal = if r = idHtotal then v else g.htotal := by
  by_cases h : r = idHtotal
  · subst h
    rfl
  · simp only [Regs.set, apply_ite Regs.htotal, h, if_false, ite_self]

@[simp] theorem Regs.set_visTop (g : Regs) (r : RegId) (v : U16) :
    (g.set r v).visTop = if r = idVisTop then v else g.visTop := by
  by_cases h : r = idVisTop
  · subst h
    rfl
  · simp only [Regs.set, apply_ite Regs.visTop, h, if_false, ite_self]

@[simp] theorem Regs.set_visBottom (g : Regs) (r : RegId) (v : U16) :
    (g.set r v).visBottom = if r = idVisBottom then v else g.visBottom := by
  by_cases h : r = idVisBottom
  · subst h
    rfl
  · simp only [Regs.set, apply_ite Regs.visBottom, h, if_false, ite_self]

@[simp] theorem Regs.set_visLeft (g : Regs) (r : RegId) (v : U16) :
    (g.set r v).visLeft = if r = idVisLeft then v else g.visLeft := by
  by_cases h : r = idVisLeft
  · subst h
    rfl
  · simp only [Regs.set, apply_ite Regs.visLeft, h, if_false, ite_self]

@[simp] theorem Regs.set_visRight (g : Regs) (r : RegId) (v : U16) :
    (g.set r v).visRight = if r = idVisRight then v else g.visRight := by
  by_cases h : r = idVisRight
  · subst h
    rfl
  · simp only [Regs.set, apply_ite Regs.visRight, h, if_false, ite_self]

/-- The scroll registers after a register write: the ten fixed ids leave them alone. -/
theorem Regs.set_scroll (g : Regs) (r : RegId) (v : U16) :
    (g.set r v).scroll =
      if r = idPaletteBank ∨ r = idGfxBank ∨ r = idModeFlags ∨ r = idIrqLine ∨ r = idVtotal ∨
        r = idHtotal ∨ r = idVisTop ∨ r = idVisBottom ∨ r = idVisLeft ∨ r = idVisRight then g.scroll
      else Sparse.put idLt 0 g.scroll r v := by
  split
  · next h =>
    rcases h with rfl | rfl | rfl | rfl | rfl | rfl | rfl | rfl | rfl | rfl <;> rfl
  · next h =>
    simp only [not_or] at h
    simp only [Regs.set, h, if_false]

/-- An id that is none of the ten fixed ones is read from the scroll registers. -/
theorem Regs.get_scroll (g : Regs) (q : RegId)
    (h : ¬ (q = idPaletteBank ∨ q = idGfxBank ∨ q = idModeFlags ∨ q = idIrqLine ∨ q = idVtotal ∨
      q = idHtotal ∨ q = idVisTop ∨ q = idVisBottom ∨ q = idVisLeft ∨ q = idVisRight)) :
    g.get q = Sparse.getD 0 g.scroll q := by
  simp only [not_or] at h
  simp only [Regs.get, h, if_false]

/-- A register read after a register write. -/
@[simp] theorem Regs.get_set (g : Regs) (r q : RegId) (v : U16) : (g.set r v).get q = if r = q then v else g.get q := by
  by_cases h : q = idPaletteBank ∨ q = idGfxBank ∨ q = idModeFlags ∨ q = idIrqLine ∨ q = idVtotal ∨
      q = idHtotal ∨ q = idVisTop ∨ q = idVisBottom ∨ q = idVisLeft ∨ q = idVisRight
  · rcases h with rfl | rfl | rfl | rfl | rfl | rfl | rfl | rfl | rfl | rfl
    · exact Regs.set_paletteBank g r v
    · exact Regs.set_gfxBank g r v
    · exact Regs.set_modeFlags g r v
    · exact Regs.set_irqLine g r v
    · exact Regs.set_vtotal g r v
    · exact Regs.set_htotal g r v
    · exact Regs.set_visTop g r v
    · exact Regs.set_visBottom g r v
    · exact Regs.set_visLeft g r v
    · exact Regs.set_visRight g r v
  · rw [Regs.get_scroll _ q h, Regs.get_scroll _ q h, Regs.set_scroll]
    split
    · next hr =>
      have hrq : r ≠ q := fun e => h (e ▸ hr)
      simp [hrq]
    · simp

/-- The register read after the pending writes are applied: the pending value, else the applied one (R326). -/
@[simp] theorem Regs.get_apply (g : Regs) (pending : List (RegId × U16)) (r : RegId) :
    (g.apply pending).get r = (Sparse.find pending r).getD (g.get r) := by
  induction pending with
  | nil => rfl
  | cons e p ih =>
    have h : Regs.apply g (e :: p) = (Regs.apply g p).set e.1 e.2 := rfl
    rw [h, Regs.get_set, ih, Sparse.find_cons]
    split <;> rfl

theorem Regs.get_paletteBank (g : Regs) : g.get idPaletteBank = g.paletteBank := rfl
theorem Regs.get_gfxBank (g : Regs) : g.get idGfxBank = g.gfxBank := rfl
theorem Regs.get_modeFlags (g : Regs) : g.get idModeFlags = g.modeFlags := rfl
theorem Regs.get_irqLine (g : Regs) : g.get idIrqLine = g.irqLine := rfl
theorem Regs.get_vtotal (g : Regs) : g.get idVtotal = g.vtotal := rfl
theorem Regs.get_htotal (g : Regs) : g.get idHtotal = g.htotal := rfl
theorem Regs.get_visTop (g : Regs) : g.get idVisTop = g.visTop := rfl
theorem Regs.get_visBottom (g : Regs) : g.get idVisBottom = g.visBottom := rfl
theorem Regs.get_visLeft (g : Regs) : g.get idVisLeft = g.visLeft := rfl
theorem Regs.get_visRight (g : Regs) : g.get idVisRight = g.visRight := rfl

/-- A register write keeps the canonical form of the scroll registers. -/
theorem Regs.canonical_set (g : Regs) (r : RegId) (v : U16) (h : Sparse.canonical idLt 0 g.scroll = true) :
    Sparse.canonical idLt 0 (g.set r v).scroll = true := by
  rw [Regs.set_scroll]
  split
  · exact h
  · exact Sparse.canonical_put idLt_ordered _ _ _ _ h

theorem Regs.canonical_apply (g : Regs) (pending : List (RegId × U16)) (h : Sparse.canonical idLt 0 g.scroll = true) :
    Sparse.canonical idLt 0 (g.apply pending).scroll = true := by
  induction pending with
  | nil => exact h
  | cons e p ih => exact Regs.canonical_set _ _ _ ih

/-! The latch write. -/

theorem State.latchWrite_writable {s : State} {r : RegId} (v : U16) (h : s.cfg.writable r = true) :
    s.latchWrite r v = { s with pending := Sparse.insert idLt s.pending r v } := by
  simp [State.latchWrite, h]

theorem State.latchWrite_ignored {s : State} {r : RegId} (v : U16) (h : s.cfg.writable r = false) :
    s.latchWrite r v = s := by
  simp [State.latchWrite, h]

/-- All that a latch write can change is `pending`. -/
theorem State.latchWrite_frame (s : State) (r : RegId) (v : U16) :
    s.latchWrite r v = { s with pending := (s.latchWrite r v).pending } := by
  unfold State.latchWrite
  split <;> rfl

/-! The boundary. -/

theorem State.forcedDirty_eq (old : U16 × U16 × U16) (s : State) :
    s.forcedDirty old =
      { s with
        tilemaps :=
          if s.active.globals = old then s.tilemaps
          else mapTilemaps (fun _ m => m.markAll) s.cfg.tileIds s.tilemaps } := by
  unfold State.forcedDirty
  split <;> rfl

/-- The application of the pending writes (R326), field by field. -/
theorem State.applyPending_eq (s : State) :
    s.applyPending =
      { s with
        active := s.active.apply s.pending
        pending := []
        irqArmed := s.irqArmed || (s.pendingAt idIrqLine).isSome
        tilemaps :=
          if (s.active.apply s.pending).globals = s.active.globals then s.tilemaps
          else mapTilemaps (fun _ m => m.markAll) s.cfg.tileIds s.tilemaps } := by
  unfold State.applyPending
  simp only [State.forcedDirty_eq]
  cases (s.pendingAt idIrqLine).isSome <;> simp

/-- The applied values after the boundary of line N has been accepted. -/
def State.activeAfter (s : State) (n : U16) : Regs := if s.appliesAt n then s.active.apply s.pending else s.active

/-- Whether the raster interrupt is armed at the boundary of line N, after the application. -/
def State.armedAfter (s : State) (n : U16) : Bool :=
  s.irqArmed || (s.appliesAt n && (s.pendingAt idIrqLine).isSome)

/-- `latch_irq` after the boundary of line N. -/
def State.firesAfter (s : State) (n : U16) : Bool := s.armedAfter n && decide (n = (s.activeAfter n).irqLine)

/-- The tilemaps after the boundary of line N: all dirty when a global register changed (R327). -/
def State.tilemapsAfter (s : State) (n : U16) : Quad Tilemap :=
  if (s.activeAfter n).globals = s.active.globals then s.tilemaps
  else mapTilemaps (fun _ m => m.markAll) s.cfg.tileIds s.tilemaps

/-- All that an accepted boundary does (R323, R326 to R328). -/
theorem State.passBoundary_eq (s : State) (n : U16) :
    s.passBoundary n =
      { s with
        lastBoundary := some n
        active := s.activeAfter n
        pending := if s.appliesAt n then [] else s.pending
        irqArmed := s.armedAfter n && !s.firesAfter n
        latchIrq := s.firesAfter n
        tilemaps := s.tilemapsAfter n } := by
  unfold State.passBoundary
  have ha : ({ s with lastBoundary := some n } : State).appliesAt n = s.appliesAt n := rfl
  simp only [ha]
  cases h : s.appliesAt n
  · simp [State.armAndFire, State.fires, State.activeAfter, State.armedAfter, State.firesAfter, State.tilemapsAfter, h]
  · simp only [if_true, State.applyPending_eq]
    simp [State.armAndFire, State.fires, State.activeAfter, State.armedAfter, State.firesAfter, State.tilemapsAfter, h,
      State.pendingAt]

theorem State.afterBoundary_inOrder {s : State} {n : U16} (h : s.boundaryInOrder n = true) :
    s.afterBoundary n = s.passBoundary n := by
  simp [State.afterBoundary, h]

/-- A boundary out of order is fatal and changes nothing else (R323, R443). -/
theorem State.afterBoundary_outOfOrder {s : State} {n : U16} (h : s.boundaryInOrder n = false) :
    s.afterBoundary n = s.raiseFatal .schedulerReentrancyViolation := by
  simp [State.afterBoundary, h]

/-- The state of each tilemap after an accepted boundary. -/
theorem State.tilemapsAfter_get (s : State) (n : U16) (t : TileId) :
    (s.tilemapsAfter n).get t =
      if (s.activeAfter n).globals = s.active.globals then s.tm t
      else if t.toNat < s.cfg.nt then (s.tm t).markAll else s.tm t := by
  unfold State.tilemapsAfter
  split
  · rfl
  · rw [get_mapTilemaps _ _ s.cfg.tileIds_nodup]
    simp only [Config.mem_tileIds]
    rfl

/-- The pending value of each register after a latch write that has effect. -/
theorem State.pendingAt_latchWrite {s : State} {r : RegId} (q : RegId) (v : U16) (h : s.cfg.writable r = true) :
    (s.latchWrite r v).pendingAt q = if r = q then some v else s.pendingAt q := by
  rw [State.latchWrite_writable v h]
  simp only [State.pendingAt]
  rw [Sparse.find_insert]

/-- The ordering check is the order of R323. -/
theorem State.boundaryInOrder_iff (s : State) (n : U16) : s.boundaryInOrder n = true ↔ s.InOrder n := by
  unfold State.boundaryInOrder State.InOrder
  cases s.lastBoundary with
  | none => simp
  | some l => simp [succLine, Regs.vtEff]

theorem State.appliesAt_iff (s : State) (n : U16) : s.appliesAt n = true ↔ s.Applies n := by
  unfold State.appliesAt State.Applies
  cases s.cfg.latchPeriod <;> simp

end Sys2Proof.Machine
end

