-- ==== Sys2Proof/Laws/Config.lean ====
section
/-! SUPPORT. What a well-formed configuration (70_reset_and_hazards.md R481) says of its tilemaps. -/

namespace Sys2Proof

/-- A well-formed configuration passes every named check. -/
theorem Config.wf_holds {c : Config} (h : c.wf = true) (k : ConfigCheck) : k.holds c = true := by
  have hk : k ∈ ConfigCheck.list := by cases k <;> simp [ConfigCheck.list]
  exact List.all_eq_true.mp h k hk

theorem TilemapCfg.mem_cells (g : TilemapCfg) (cell : Nat × Nat) :
    cell ∈ g.cells ↔ cell.1 < g.cols ∧ cell.2 < g.rows := by
  obtain ⟨col, row⟩ := cell
  simp only [TilemapCfg.cells, List.mem_flatMap, List.mem_map, List.mem_range, Prod.mk.injEq]
  constructor
  · rintro ⟨r, hr, c, hc, rfl, rfl⟩
    exact ⟨hc, hr⟩
  · rintro ⟨hc, hr⟩
    exact ⟨row, hr, col, hc, rfl, rfl⟩

/-- What the checks of 00_scope.md R10 say of one tilemap of the machine. -/
structure TilemapCfg.Good (g : TilemapCfg) : Prop where
  cols : 1 ≤ g.cols
  rows : 1 ≤ g.rows
  tileW : 1 ≤ g.tileW
  tileH : 1 ≤ g.tileH
  scan_lt : ∀ cell ∈ g.cells, g.scanAt cell.1 cell.2 < g.nTiles
  scan_inj : ∀ p ∈ g.cells, ∀ q ∈ g.cells, g.scanAt p.1 p.2 = g.scanAt q.1 q.2 → p = q
  nbytes : ∀ p ∈ g.backing, 1 ≤ p.nbytes
  scrollNX : 1 ≤ g.scrollNX ∧ g.scrollNX ≤ 1024
  scrollNY : 1 ≤ g.scrollNY ∧ g.scrollNY ≤ 1024

/-- The tilemaps of a well-formed configuration meet the checks of R10. -/
theorem Config.good {c : Config} (h : c.wf = true) {t : TileId} (ht : t.toNat < c.nt) : (c.tm t).Good := by
  have ht' : t ∈ c.tileIds := (c.mem_tileIds t).mpr ht
  have h1 := c.wf_holds h .gridRange
  have h2 := c.wf_holds h .tileRange
  have h3 := c.wf_holds h .scanBijective
  have h4 := c.wf_holds h .backingInMemory
  have h5 := c.wf_holds h .scrollCountRange
  simp only [ConfigCheck.holds, List.all_eq_true, between, Bool.and_eq_true, decide_eq_true_eq] at h1 h2 h3 h4 h5
  have h1 := h1 t ht'
  have h2 := h2 t ht'
  have h3 := h3 t ht'
  have h4 := h4 t ht'
  have h5 := h5 t ht'
  simp only [TilemapCfg.scanBijective, List.all_eq_true, Bool.and_eq_true, decide_eq_true_eq] at h3
  exact {
    cols := h1.1.1
    rows := h1.1.2
    tileW := h2.1.1.1
    tileH := h2.1.1.2
    scan_lt := h3.1
    scan_inj := h3.2
    nbytes := fun p hp => (h4 p hp).1
    scrollNX := h5.1
    scrollNY := h5.2 }

theorem TilemapCfg.Good.tmW_pos {g : TilemapCfg} (h : g.Good) : 0 < g.tmW := Nat.mul_pos h.cols h.tileW
theorem TilemapCfg.Good.tmH_pos {g : TilemapCfg} (h : g.Good) : 0 < g.tmH := Nat.mul_pos h.rows h.tileH

/-- A tile that an address backs is among the tiles the write path marks (46_interface.md R401). -/
theorem TilemapCfg.mem_backedTiles {g : TilemapCfg} {a i : Nat} (hi : i < g.nTiles)
    (ha : a ∈ g.backingAddrs i) : i ∈ g.backedTiles a := by
  simp only [TilemapCfg.backingAddrs, List.mem_flatMap, List.mem_map, List.mem_range] at ha
  obtain ⟨p, hp, k, hk, rfl⟩ := ha
  simp only [TilemapCfg.backedTiles, List.mem_map, List.mem_filter, Bool.and_eq_true, decide_eq_true_eq]
  refine ⟨p, ⟨hp, by omega, ?_⟩, ?_⟩
  · have : i * p.nbytes + p.nbytes ≤ g.nTiles * p.nbytes := by
      rw [← Nat.succ_mul]
      exact Nat.mul_le_mul_right _ hi
    omega
  · have : p.base + i * p.nbytes + k - p.base = k + i * p.nbytes := by omega
    rw [this, Nat.add_mul_div_right _ _ (by omega), Nat.div_eq_of_lt hk, Nat.zero_add]

/-- The tiles the write path marks are the tiles the address backs. -/
theorem TilemapCfg.mem_backedTiles_iff {g : TilemapCfg} (h : g.Good) {a i : Nat} :
    i ∈ g.backedTiles a ↔ i < g.nTiles ∧ a ∈ g.backingAddrs i := by
  refine ⟨fun hi => ?_, fun hi => g.mem_backedTiles hi.1 hi.2⟩
  simp only [TilemapCfg.backedTiles, List.mem_map, List.mem_filter, Bool.and_eq_true, decide_eq_true_eq] at hi
  obtain ⟨p, ⟨hp, hb, ht⟩, rfl⟩ := hi
  have hn : 0 < p.nbytes := h.nbytes p hp
  have hd : (a - p.base) / p.nbytes < g.nTiles := (Nat.div_lt_iff_lt_mul hn).mpr (by omega)
  refine ⟨hd, ?_⟩
  simp only [TilemapCfg.backingAddrs, List.mem_flatMap, List.mem_map, List.mem_range]
  refine ⟨p, hp, (a - p.base) % p.nbytes, Nat.mod_lt _ hn, ?_⟩
  have := Nat.div_add_mod (a - p.base) p.nbytes
  rw [Nat.mul_comm] at this
  omega

end Sys2Proof
end

