-- ==== Sys2Proof/Laws/Tilemap.lean ====
section
/-! SUPPORT. Laws of the tilemap engine (41_tilemap.md): what a decode, an expansion, a redraw and a mark do, in terms of
reads of the dirty bits, the cache and the layer. -/

namespace Sys2Proof.Machine

/-! Mirrors and cells. -/

theorem mirror_lt {f : Bool} {n v : Nat} (h : v < n) : mirror f n v < n := by
  unfold mirror
  split <;> omega

@[simp] theorem mirror_mirror {f : Bool} {n v : Nat} (h : v < n) : mirror f n (mirror f n v) = v := by
  cases f
  · simp [mirror]
  · simp [mirror]
    omega

theorem mirror_inj {f : Bool} {n v w : Nat} (hv : v < n) (hw : w < n) (h : mirror f n v = mirror f n w) : v = w := by
  cases f <;> simp [mirror] at h <;> omega

/-- The cell under a cache position of the tilemap is a cell of the grid. -/
theorem cellOf_mem {g : TilemapCfg} (fx fy : Bool) {p : Nat × Nat} (hx : p.2 < g.tmW) (hy : p.1 < g.tmH) :
    cellOf g fx fy p ∈ g.cells := by
  rw [TilemapCfg.mem_cells]
  unfold TilemapCfg.tmW at hx
  unfold TilemapCfg.tmH at hy
  exact ⟨mirror_lt (Nat.div_lt_of_lt_mul (by rwa [Nat.mul_comm] at hx)),
    mirror_lt (Nat.div_lt_of_lt_mul (by rwa [Nat.mul_comm] at hy))⟩

/-- A cache position lies in the block of its cell. -/
theorem blockPos_cellOf {g : TilemapCfg} (fx fy : Bool) {p : Nat × Nat} (hx : p.2 < g.tmW) (hy : p.1 < g.tmH) :
    blockPos g fx fy (cellOf g fx fy p) (p.2 % g.tileW) (p.1 % g.tileH) = p := by
  unfold TilemapCfg.tmW at hx
  unfold TilemapCfg.tmH at hy
  have h1 : p.2 / g.tileW < g.cols := Nat.div_lt_of_lt_mul (by rwa [Nat.mul_comm] at hx)
  have h2 : p.1 / g.tileH < g.rows := Nat.div_lt_of_lt_mul (by rwa [Nat.mul_comm] at hy)
  unfold blockPos cellOf
  simp only [mirror_mirror h1, mirror_mirror h2]
  rw [Nat.mul_comm, Nat.div_add_mod, Nat.mul_comm, Nat.div_add_mod]

theorem block_mod {w a x : Nat} (hx : x < w) : (a * w + x) % w = x := by
  rw [Nat.add_comm, Nat.add_mul_mod_self_right, Nat.mod_eq_of_lt hx]

theorem block_coord {w a b x y : Nat} (hx : x < w) (hy : y < w) (h : a * w + x = b * w + y) : a = b ∧ x = y := by
  have hw : 0 < w := by omega
  have h1 : (a * w + x) / w = a := by
    rw [Nat.add_comm, Nat.add_mul_div_right _ _ hw, Nat.div_eq_of_lt hx, Nat.zero_add]
  have h2 : (b * w + y) / w = b := by
    rw [Nat.add_comm, Nat.add_mul_div_right _ _ hw, Nat.div_eq_of_lt hy, Nat.zero_add]
  have hab : a = b := by rw [← h1, ← h2, h]
  subst hab
  exact ⟨rfl, by omega⟩

/-- The blocks of different cells are disjoint. -/
theorem blockPos_inj {g : TilemapCfg} {fx fy : Bool} {c d : Nat × Nat} (hc : c ∈ g.cells) (hd : d ∈ g.cells)
    {px py qx qy : Nat} (hpx : px < g.tileW) (hpy : py < g.tileH) (hqx : qx < g.tileW) (hqy : qy < g.tileH)
    (h : blockPos g fx fy c px py = blockPos g fx fy d qx qy) : c = d ∧ px = qx ∧ py = qy := by
  rw [TilemapCfg.mem_cells] at hc hd
  simp only [blockPos, Prod.mk.injEq] at h
  have h1 := block_coord hpy hqy h.1
  have h2 := block_coord hpx hqx h.2
  exact ⟨Prod.ext (mirror_inj hc.1 hd.1 h2.1) (mirror_inj hc.2 hd.2 h1.1), h2.2, h1.2⟩

/-- The source position lies in the tilemap (41_tilemap.md R242). -/
theorem srcPos_lt {g : TilemapCfg} (hg : g.Good) (a : RedrawArgs) (p : Nat × Nat) :
    (srcPos g a p).2 < g.tmW ∧ (srcPos g a p).1 < g.tmH :=
  ⟨Nat.mod_lt _ hg.tmW_pos, Nat.mod_lt _ hg.tmH_pos⟩

/-! Dirty bits. -/

@[simp] theorem Tilemap.isDirty_markDirty (m : Tilemap) (i j : Nat) :
    (m.markDirty i).isDirty j = (decide (i = j) || m.isDirty j) := by
  simp only [Tilemap.isDirty, Tilemap.markDirty, Sparse.getD_put]
  by_cases h : i = j <;> simp [h]

@[simp] theorem Tilemap.markDirty_allDirty (m : Tilemap) (i : Nat) : (m.markDirty i).allDirty = m.allDirty := rfl
@[simp] theorem Tilemap.markDirty_cache (m : Tilemap) (i : Nat) : (m.markDirty i).cache = m.cache := rfl
@[simp] theorem Tilemap.markDirty_layer (m : Tilemap) (i : Nat) : (m.markDirty i).layer = m.layer := rfl
@[simp] theorem Tilemap.markAll_dirty (m : Tilemap) : m.markAll.dirty = m.dirty := rfl
@[simp] theorem Tilemap.markAll_allDirty (m : Tilemap) : m.markAll.allDirty = true := rfl
@[simp] theorem Tilemap.markAll_cache (m : Tilemap) : m.markAll.cache = m.cache := rfl
@[simp] theorem Tilemap.markAll_layer (m : Tilemap) : m.markAll.layer = m.layer := rfl
@[simp] theorem Tilemap.isDirty_markAll (m : Tilemap) (i : Nat) : m.markAll.isDirty i = m.isDirty i := rfl

/-- The dirty bits after the expansion (R232). -/
theorem Tilemap.isDirty_expand (n : Nat) (m : Tilemap) (i : Nat) :
    (m.expand n).isDirty i = (m.isDirty i || (m.allDirty && decide (i < n))) := by
  unfold Tilemap.expand
  split
  · next h =>
    simp only [Tilemap.isDirty, h, Bool.true_and]
    rw [Sparse.getD_putAll_map (f := fun _ => true)]
    simp only [List.mem_range]
    by_cases hi : i < n <;> simp [hi]
  · next h => simp [h]

@[simp] theorem Tilemap.expand_allDirty (n : Nat) (m : Tilemap) : (m.expand n).allDirty = false := by
  unfold Tilemap.expand
  split
  · rfl
  · next h => simpa using h

@[simp] theorem Tilemap.expand_cache (n : Nat) (m : Tilemap) : (m.expand n).cache = m.cache := by
  unfold Tilemap.expand
  split <;> rfl

@[simp] theorem Tilemap.expand_layer (n : Nat) (m : Tilemap) : (m.expand n).layer = m.layer := by
  unfold Tilemap.expand
  split <;> rfl

/-- The marks of a write that changes a byte (20_memory.md R106). -/
theorem Tilemap.isDirty_foldl_mark (l : List Nat) (m : Tilemap) (i : Nat) :
    (l.foldl (fun m j => m.markDirty j) m).isDirty i = (m.isDirty i || decide (i ∈ l)) := by
  induction l generalizing m with
  | nil => simp
  | cons j l ih =>
    rw [List.foldl_cons, ih, Tilemap.isDirty_markDirty]
    by_cases h : j = i
    · simp [h]
    · have h' : i ≠ j := fun e => h e.symm
      simp [h, h']

theorem Tilemap.foldl_mark_rest (l : List Nat) (m : Tilemap) :
    (l.foldl (fun m j => m.markDirty j) m).allDirty = m.allDirty ∧
    (l.foldl (fun m j => m.markDirty j) m).cache = m.cache ∧
    (l.foldl (fun m j => m.markDirty j) m).layer = m.layer := by
  induction l generalizing m with
  | nil => exact ⟨rfl, rfl, rfl⟩
  | cons j l ih => exact ih _

theorem Tilemap.isDirty_markWrite (g : TilemapCfg) (a : Nat) (m : Tilemap) (i : Nat) :
    (m.markWrite g a).isDirty i = (m.isDirty i || decide (i ∈ g.backedTiles a)) := by
  unfold Tilemap.markWrite
  simp only
  split
  · rw [Tilemap.isDirty_markAll, Tilemap.isDirty_foldl_mark]
  · rw [Tilemap.isDirty_foldl_mark]

theorem Tilemap.markWrite_allDirty (g : TilemapCfg) (a : Nat) (m : Tilemap) :
    (m.markWrite g a).allDirty = (m.allDirty || g.inCharRam a) := by
  unfold Tilemap.markWrite
  simp only
  split
  · next h => simp [h]
  · next h => simp [h, (Tilemap.foldl_mark_rest (g.backedTiles a) m).1]

@[simp] theorem Tilemap.markWrite_cache (g : TilemapCfg) (a : Nat) (m : Tilemap) : (m.markWrite g a).cache = m.cache := by
  unfold Tilemap.markWrite
  simp only
  split <;> simp [(Tilemap.foldl_mark_rest (g.backedTiles a) m).2.1]

@[simp] theorem Tilemap.markWrite_layer (g : TilemapCfg) (a : Nat) (m : Tilemap) : (m.markWrite g a).layer = m.layer := by
  unfold Tilemap.markWrite
  simp only
  split <;> simp [(Tilemap.foldl_mark_rest (g.backedTiles a) m).2.2]

/-! Decoding a cell (R237). -/

/-- The pixel that a decode of the cell writes at (px, py) of its block, under given flips. -/
def State.decoded (s : State) (t : TileId) (fx fy : Bool) (cell : Nat × Nat) (px py : Nat) : CachePixel :=
  s.cellPixel t fx fy (s.tileInfo t ((s.cfg.tm t).scanAt cell.1 cell.2)) px py

/-- The writes of a decode: the position fixes the value. -/
theorem State.cellBlock_value (s : State) (t : TileId) (fx fy : Bool) (cell : Nat × Nat) :
    ∀ e ∈ s.cellBlock t fx fy cell.1 cell.2,
      e.2 = s.decoded t fx fy cell (e.1.2 % (s.cfg.tm t).tileW) (e.1.1 % (s.cfg.tm t).tileH) := by
  intro e he
  simp only [State.cellBlock, List.mem_flatMap, List.mem_map, List.mem_range] at he
  obtain ⟨py, hpy, px, hpx, rfl⟩ := he
  simp only [State.decoded, block_mod hpx, block_mod hpy]

theorem State.mem_cellBlock (s : State) (t : TileId) (fx fy : Bool) (cell p : Nat × Nat) :
    p ∈ (s.cellBlock t fx fy cell.1 cell.2).map Prod.fst ↔
      ∃ px < (s.cfg.tm t).tileW, ∃ py < (s.cfg.tm t).tileH, p = blockPos (s.cfg.tm t) fx fy cell px py := by
  simp only [State.cellBlock, List.mem_map, List.mem_flatMap, List.mem_range]
  constructor
  · rintro ⟨e, ⟨py, hpy, px, hpx, rfl⟩, rfl⟩
    exact ⟨px, hpx, py, hpy, rfl⟩
  · rintro ⟨px, hpx, py, hpy, rfl⟩
    exact ⟨_, ⟨py, hpy, px, hpx, rfl⟩, rfl⟩

/-- The cache after a decode: the decoded pixels at the positions of the cell's block, and elsewhere as before. -/
theorem State.find_decodeCell (s : State) (t : TileId) (fx fy : Bool) (m : Tilemap) (cell p : Nat × Nat) :
    Sparse.find (s.decodeCell t fx fy m cell).cache p =
      if p ∈ (s.cellBlock t fx fy cell.1 cell.2).map Prod.fst then
        some (s.decoded t fx fy cell (p.2 % (s.cfg.tm t).tileW) (p.1 % (s.cfg.tm t).tileH))
      else Sparse.find m.cache p := by
  have hv := Sparse.find_of_fun
    (f := fun p : Nat × Nat => s.decoded t fx fy cell (p.2 % (s.cfg.tm t).tileW) (p.1 % (s.cfg.tm t).tileH))
    (es := (s.cellBlock t fx fy cell.1 cell.2).reverse)
    (fun e he => s.cellBlock_value t fx fy cell e (List.mem_reverse.mp he)) p
  have hi : (s.decodeCell t fx fy m cell).cache = Sparse.insertAll posLt m.cache (s.cellBlock t fx fy cell.1 cell.2) := rfl
  rw [hi, Sparse.find_insertAll, hv, List.map_reverse]
  simp only [List.mem_reverse]
  by_cases h : p ∈ (s.cellBlock t fx fy cell.1 cell.2).map Prod.fst
  · rw [if_pos h, if_pos h, Option.some_or]
  · rw [if_neg h, if_neg h, Option.none_or]

/-- Inside the cell's block the cache holds the decoded pixel. -/
theorem State.find_decodeCell_in (s : State) (t : TileId) (fx fy : Bool) (m : Tilemap) (cell : Nat × Nat) {px py : Nat}
    (hpx : px < (s.cfg.tm t).tileW) (hpy : py < (s.cfg.tm t).tileH) :
    Sparse.find (s.decodeCell t fx fy m cell).cache (blockPos (s.cfg.tm t) fx fy cell px py) =
      some (s.decoded t fx fy cell px py) := by
  rw [State.find_decodeCell, if_pos ((s.mem_cellBlock t fx fy cell _).mpr ⟨px, hpx, py, hpy, rfl⟩)]
  simp only [blockPos, block_mod hpx, block_mod hpy]

/-- Outside the cell's block the cache is as before. -/
theorem State.find_decodeCell_out (s : State) (t : TileId) (fx fy : Bool) (m : Tilemap) (cell p : Nat × Nat)
    (h : ∀ px < (s.cfg.tm t).tileW, ∀ py < (s.cfg.tm t).tileH, p ≠ blockPos (s.cfg.tm t) fx fy cell px py) :
    Sparse.find (s.decodeCell t fx fy m cell).cache p = Sparse.find m.cache p := by
  rw [State.find_decodeCell, if_neg]
  rw [s.mem_cellBlock t fx fy cell]
  rintro ⟨px, hpx, py, hpy, e⟩
  exact h px hpx py hpy e

@[simp] theorem State.isDirty_decodeCell (s : State) (t : TileId) (fx fy : Bool) (m : Tilemap) (cell : Nat × Nat) (i : Nat) :
    (s.decodeCell t fx fy m cell).isDirty i =
      (m.isDirty i && !decide ((s.cfg.tm t).scanAt cell.1 cell.2 = i)) := by
  simp only [Tilemap.isDirty, State.decodeCell, Sparse.getD_put]
  by_cases h : (s.cfg.tm t).scanAt cell.1 cell.2 = i <;> simp [h]

@[simp] theorem State.decodeCell_allDirty (s : State) (t : TileId) (fx fy : Bool) (m : Tilemap) (cell : Nat × Nat) :
    (s.decodeCell t fx fy m cell).allDirty = m.allDirty := rfl

@[simp] theorem State.decodeCell_layer (s : State) (t : TileId) (fx fy : Bool) (m : Tilemap) (cell : Nat × Nat) :
    (s.decodeCell t fx fy m cell).layer = m.layer := rfl

/-- Every clean cell of the tilemap holds its decode (the invariant of R245). -/
def State.CleanFresh (s : State) (t : TileId) (fx fy : Bool) (m : Tilemap) : Prop :=
  ∀ cell ∈ (s.cfg.tm t).cells, m.isDirty ((s.cfg.tm t).scanAt cell.1 cell.2) = false →
    ∀ px < (s.cfg.tm t).tileW, ∀ py < (s.cfg.tm t).tileH,
      Sparse.find m.cache (blockPos (s.cfg.tm t) fx fy cell px py) = some (s.decoded t fx fy cell px py)

/-- Coherence of a tilemap is freshness of its clean cells under the applied flips. -/
theorem State.coherentAt_iff (s : State) (t : TileId) :
    s.CoherentAt t ↔ ((s.tm t).allDirty = false → s.CleanFresh t s.active.flipX s.active.flipY (s.tm t)) := by
  simp only [State.CoherentAt, State.CleanFresh, List.mem_range]
  rfl

theorem State.cleanFresh_decodeCell {s : State} {t : TileId} {fx fy : Bool} {m : Tilemap} (hg : (s.cfg.tm t).Good)
    (h : s.CleanFresh t fx fy m) {cell : Nat × Nat} (hc : cell ∈ (s.cfg.tm t).cells) :
    s.CleanFresh t fx fy (s.decodeCell t fx fy m cell) := by
  intro d hd hclean px hpx py hpy
  by_cases hcd : cell = d
  · subst hcd
    exact s.find_decodeCell_in t fx fy m cell hpx hpy
  · rw [s.find_decodeCell_out t fx fy m cell _ (fun qx hqx qy hqy e => hcd (blockPos_inj hd hc hpx hpy hqx hqy e).1.symm)]
    refine h d hd ?_ px hpx py hpy
    rw [s.isDirty_decodeCell] at hclean
    have hne : (s.cfg.tm t).scanAt cell.1 cell.2 ≠ (s.cfg.tm t).scanAt d.1 d.2 :=
      fun e => hcd (hg.scan_inj cell hc d hd e)
    simpa [hne] using hclean

/-- After the decode of the visible dirty cells (R238): the dirty bits, the flag, the layer, and freshness. -/
theorem State.foldl_decodeIfDirty {s : State} {t : TileId} (a : RedrawArgs) (hg : (s.cfg.tm t).Good) (cells : List (Nat × Nat))
    (hc : ∀ cell ∈ cells, cell ∈ (s.cfg.tm t).cells) (m : Tilemap) :
    (∀ i, (cells.foldl (s.decodeIfDirty t a) m).isDirty i =
      (m.isDirty i && !decide (i ∈ cells.map fun p => (s.cfg.tm t).scanAt p.1 p.2))) ∧
    (cells.foldl (s.decodeIfDirty t a) m).allDirty = m.allDirty ∧
    (cells.foldl (s.decodeIfDirty t a) m).layer = m.layer ∧
    (s.CleanFresh t a.fx a.fy m → s.CleanFresh t a.fx a.fy (cells.foldl (s.decodeIfDirty t a) m)) := by
  induction cells generalizing m with
  | nil => simp
  | cons cell cells ih =>
    have ih := ih (fun d hd => hc d (List.mem_cons_of_mem _ hd)) (s.decodeIfDirty t a m cell)
    have hstep : (∀ i, (s.decodeIfDirty t a m cell).isDirty i =
        (m.isDirty i && !decide ((s.cfg.tm t).scanAt cell.1 cell.2 = i))) ∧
        (s.decodeIfDirty t a m cell).allDirty = m.allDirty ∧ (s.decodeIfDirty t a m cell).layer = m.layer ∧
        (s.CleanFresh t a.fx a.fy m → s.CleanFresh t a.fx a.fy (s.decodeIfDirty t a m cell)) := by
      unfold State.decodeIfDirty
      split
      · exact ⟨fun i => s.isDirty_decodeCell t a.fx a.fy m cell i, rfl, rfl,
          fun h => State.cleanFresh_decodeCell hg h (hc cell List.mem_cons_self)⟩
      · next hd =>
        refine ⟨fun i => ?_, rfl, rfl, id⟩
        by_cases hi : (s.cfg.tm t).scanAt cell.1 cell.2 = i
        · subst hi
          simpa using hd
        · simp [hi]
    refine ⟨fun i => ?_, ?_, ?_, ?_⟩
    · rw [List.foldl_cons, ih.1, hstep.1]
      simp only [List.map_cons, List.mem_cons]
      by_cases hi : (s.cfg.tm t).scanAt cell.1 cell.2 = i
      · simp [hi]
      · have hi' : ¬ i = (s.cfg.tm t).scanAt cell.1 cell.2 := fun e => hi e.symm
        simp only [hi, hi', decide_false, Bool.not_false, Bool.and_true, false_or]
    · rw [List.foldl_cons, ih.2.1, hstep.2.1]
    · rw [List.foldl_cons, ih.2.2.1, hstep.2.2.1]
    · intro h
      rw [List.foldl_cons]
      exact ih.2.2.2 (hstep.2.2.2 h)

/-! The redraw (R238). -/

theorem visibleCells_mem {c : Config} {t : TileId} (hg : (c.tm t).Good) (k : Clip) (a : RedrawArgs) :
    ∀ cell ∈ visibleCells c t k a, cell ∈ (c.tm t).cells := by
  intro cell hcell
  simp only [visibleCells, List.mem_map] at hcell
  obtain ⟨p, _, rfl⟩ := hcell
  have h := srcPos_lt hg a p
  exact cellOf_mem a.fx a.fy h.1 h.2

/-- The tile indices of the visible cells. -/
def visibleTiles (c : Config) (t : TileId) (k : Clip) (a : RedrawArgs) : List Nat :=
  (visibleCells c t k a).map fun p => (c.tm t).scanAt p.1 p.2

/-- The tilemap after the expansion and the decodes: its dirty bits (R232, R237, R239). -/
theorem State.isDirty_decodeVisible {s : State} {t : TileId} (hg : (s.cfg.tm t).Good) (k : Clip) (a : RedrawArgs) (i : Nat) :
    (s.decodeVisible t k a).isDirty i =
      (((s.tm t).isDirty i || ((s.tm t).allDirty && decide (i < (s.cfg.tm t).nTiles))) &&
        !decide (i ∈ visibleTiles s.cfg t k a)) := by
  unfold State.decodeVisible
  rw [(State.foldl_decodeIfDirty a hg _ (visibleCells_mem hg k a) _).1, Tilemap.isDirty_expand]
  rfl

theorem State.decodeVisible_allDirty {s : State} {t : TileId} (hg : (s.cfg.tm t).Good) (k : Clip) (a : RedrawArgs) :
    (s.decodeVisible t k a).allDirty = false := by
  unfold State.decodeVisible
  rw [(State.foldl_decodeIfDirty a hg _ (visibleCells_mem hg k a) _).2.1, Tilemap.expand_allDirty]

theorem State.decodeVisible_layer {s : State} {t : TileId} (hg : (s.cfg.tm t).Good) (k : Clip) (a : RedrawArgs) :
    (s.decodeVisible t k a).layer = (s.tm t).layer := by
  unfold State.decodeVisible
  rw [(State.foldl_decodeIfDirty a hg _ (visibleCells_mem hg k a) _).2.2.1, Tilemap.expand_layer]

/-- In a coherent state every clean cell is fresh after the decodes. -/
theorem State.decodeVisible_cleanFresh {s : State} {t : TileId} (hg : (s.cfg.tm t).Good) (k : Clip) (a : RedrawArgs)
    (h : (s.tm t).allDirty = false → s.CleanFresh t a.fx a.fy (s.tm t)) :
    s.CleanFresh t a.fx a.fy (s.decodeVisible t k a) := by
  refine (State.foldl_decodeIfDirty a hg _ (visibleCells_mem hg k a) _).2.2.2 ?_
  intro cell hcell hclean px hpx py hpy
  rw [Tilemap.isDirty_expand] at hclean
  rw [Tilemap.expand_cache]
  have hlt := hg.scan_lt cell hcell
  cases had : (s.tm t).allDirty
  · exact h had cell hcell (by simpa [had] using hclean) px hpx py hpy
  · simp [had, hlt] at hclean

/-- Every cache pixel that a redraw of a coherent tilemap reads holds its fresh value (10_state.md R51, R239). -/
theorem State.find_decodeVisible {s : State} {t : TileId} (hg : (s.cfg.tm t).Good) {k : Clip} {a : RedrawArgs}
    (h : (s.tm t).allDirty = false → s.CleanFresh t a.fx a.fy (s.tm t)) {p : Nat × Nat} (hp : k.contains s.cfg p = true) :
    Sparse.find (s.decodeVisible t k a).cache (srcPos (s.cfg.tm t) a p) =
      some (s.decoded t a.fx a.fy (cellOf (s.cfg.tm t) a.fx a.fy (srcPos (s.cfg.tm t) a p))
        ((srcPos (s.cfg.tm t) a p).2 % (s.cfg.tm t).tileW) ((srcPos (s.cfg.tm t) a p).1 % (s.cfg.tm t).tileH)) := by
  have hq := srcPos_lt hg a p
  have hf := State.decodeVisible_cleanFresh hg k a h _ (cellOf_mem a.fx a.fy hq.1 hq.2)
  have hclean : (s.decodeVisible t k a).isDirty
      ((s.cfg.tm t).scanAt (cellOf (s.cfg.tm t) a.fx a.fy (srcPos (s.cfg.tm t) a p)).1
        (cellOf (s.cfg.tm t) a.fx a.fy (srcPos (s.cfg.tm t) a p)).2) = false := by
    rw [State.isDirty_decodeVisible hg]
    have hm : (s.cfg.tm t).scanAt (cellOf (s.cfg.tm t) a.fx a.fy (srcPos (s.cfg.tm t) a p)).1
        (cellOf (s.cfg.tm t) a.fx a.fy (srcPos (s.cfg.tm t) a p)).2 ∈ visibleTiles s.cfg t k a := by
      simp only [visibleTiles, visibleCells, List.map_map, List.mem_map, Clip.mem_pixels]
      exact ⟨p, hp, rfl⟩
    simp [hm]
  have hr := hf hclean ((srcPos (s.cfg.tm t) a p).2 % (s.cfg.tm t).tileW) (Nat.mod_lt _ hg.tileW)
    ((srcPos (s.cfg.tm t) a p).1 % (s.cfg.tm t).tileH) (Nat.mod_lt _ hg.tileH)
  rwa [blockPos_cellOf a.fx a.fy hq.1 hq.2] at hr

/-- The layer after the blit (R240). -/
theorem getD_blit_layer (c : Config) (t : TileId) (k : Clip) (a : RedrawArgs) (m : Tilemap) (p : Nat × Nat) :
    Sparse.getD CachePixel.zero (blit c t k a m).layer p =
      if k.contains c p = true then Sparse.getD CachePixel.zero m.cache (srcPos (c.tm t) a p)
      else Sparse.getD CachePixel.zero m.layer p := by
  simp only [blit]
  rw [Sparse.getD_putAll_map posLt CachePixel.zero m.layer (k.pixels c)
    (fun p => Sparse.getD CachePixel.zero m.cache (srcPos (c.tm t) a p))]
  simp only [Clip.mem_pixels]

/-- What a redraw can do when it ends in a next state: it changes one tilemap, and nothing else. -/
theorem State.redraw_eq_next {t : TileId} {k : Clip} {a : RedrawArgs} {s s' : State} (h : s.redraw t k a = .next s') :
    s' = s.setTm t (blit s.cfg t k a (s.decodeVisible t k a)) := by
  unfold State.redraw at h
  split at h
  · injection h with h
    exact h.symm
  · cases h

/-- A redraw of a coherent tilemap reads no cache pixel without value, so it completes (10_state.md R50, R51). -/
theorem State.redraw_completes {s : State} {t : TileId} (hg : (s.cfg.tm t).Good) (k : Clip) (a : RedrawArgs)
    (h : (s.tm t).allDirty = false → s.CleanFresh t a.fx a.fy (s.tm t)) :
    s.redraw t k a = .next (s.setTm t (blit s.cfg t k a (s.decodeVisible t k a))) := by
  unfold State.redraw
  have hd : blitDefined s.cfg t k a (s.decodeVisible t k a) = true := by
    simp only [blitDefined, List.all_eq_true, Clip.mem_pixels]
    intro p hp
    rw [State.find_decodeVisible hg h hp]
    rfl
  simp [hd]

/-- SCAN reaches every tile index: it is a bijection from the grid (00_scope.md R10). -/
theorem TilemapCfg.Good.scan_surj {g : TilemapCfg} (hg : g.Good) {i : Nat} (hi : i < g.nTiles) :
    ∃ cell ∈ g.cells, g.scanAt cell.1 cell.2 = i := by
  have hf : (Finset.univ : Finset (Fin g.cols × Fin g.rows)).card = (Finset.range g.nTiles).card := by
    simp [TilemapCfg.nTiles]
  have hmem : ∀ q : Fin g.cols × Fin g.rows, ((q.1 : Nat), (q.2 : Nat)) ∈ g.cells :=
    fun q => (g.mem_cells _).mpr ⟨q.1.2, q.2.2⟩
  have := Finset.surj_on_of_inj_on_of_card_le (s := (Finset.univ : Finset (Fin g.cols × Fin g.rows)))
    (t := Finset.range g.nTiles) (fun q _ => g.scanAt q.1 q.2)
    (fun q _ => Finset.mem_range.mpr (hg.scan_lt _ (hmem q)))
    (fun q r _ _ e => by
      have := hg.scan_inj _ (hmem q) _ (hmem r) e
      simp only [Prod.mk.injEq] at this
      exact Prod.ext (Fin.ext this.1) (Fin.ext this.2))
    (le_of_eq hf.symm) i (Finset.mem_range.mpr hi)
  obtain ⟨q, _, hq⟩ := this
  exact ⟨_, hmem q, hq.symm⟩

/-- A redraw depends on the scroll arguments through the source positions only. -/
theorem State.redraw_congr {s : State} {t : TileId} {k : Clip} {a b : RedrawArgs} (hfx : b.fx = a.fx) (hfy : b.fy = a.fy)
    (h : ∀ p, srcPos (s.cfg.tm t) b p = srcPos (s.cfg.tm t) a p) : s.redraw t k b = s.redraw t k a := by
  have hv : visibleCells s.cfg t k b = visibleCells s.cfg t k a := by
    unfold visibleCells
    rw [hfx, hfy]
    exact List.map_congr_left fun p _ => by rw [h]
  have hd : s.decodeIfDirty t b = s.decodeIfDirty t a := by
    funext m c
    unfold State.decodeIfDirty
    rw [hfx, hfy]
  have hdv : s.decodeVisible t k b = s.decodeVisible t k a := by
    unfold State.decodeVisible
    rw [hv, hd]
  have h1 : ∀ m, blitDefined s.cfg t k b m = blitDefined s.cfg t k a m := fun m => by simp only [blitDefined, h]
  have h2 : ∀ m, blit s.cfg t k b m = blit s.cfg t k a m := fun m => by simp only [blit, h]
  unfold State.redraw
  rw [hdv, h1, h2]

/-- The mirror image of a pixel column (or row) in its cell and in the grid. -/
theorem mirror_div_mod {cells size x : Nat} (hs : 0 < size) (hx : x < cells * size) :
    (cells * size - 1 - x) / size = cells - 1 - x / size ∧ (cells * size - 1 - x) % size = size - 1 - x % size := by
  have h1 := Nat.div_add_mod x size
  have h2 := Nat.mod_lt x hs
  have h3 : x / size < cells := (Nat.div_lt_iff_lt_mul hs).mpr hx
  have e : cells * size - 1 - x = (cells - 1 - x / size) * size + (size - 1 - x % size) := by
    obtain ⟨k, rfl⟩ : ∃ k, cells = x / size + 1 + k := ⟨cells - 1 - x / size, by omega⟩
    have : x / size + 1 + k - 1 - x / size = k := by omega
    rw [this, Nat.add_mul, Nat.add_mul, Nat.one_mul, Nat.mul_comm (x / size) size]
    omega
  rw [e, Nat.add_comm]
  constructor
  · rw [Nat.add_mul_div_right _ _ hs, Nat.div_eq_of_lt (by omega), Nat.zero_add]
  · rw [Nat.add_mul_mod_self_right, Nat.mod_eq_of_lt (by omega)]

/-! The statements' own copies of R239 and R241, and the engine's. -/

/-- The source position that the engine computes from the applied values is that of R241. -/
theorem State.srcPos_redrawArgs {s : State} {t : TileId} (hg : (s.cfg.tm t).Good) (y x : Nat) :
    srcPos (s.cfg.tm t) (s.redrawArgs t) (y, x) = s.sourceAt t y x := by
  have hx := fun j : Nat => Nat.mod_lt j hg.scrollNX.1
  have hy := fun j : Nat => Nat.mod_lt j hg.scrollNY.1
  simp only [srcPos, State.sourceAt, scrollEntry, State.redrawArgs, Regs.scrollX, Regs.scrollY, Regs.rowscroll,
    TilemapCfg.tmW, TilemapCfg.tmH, List.getD_eq_getElem?_getD, List.getElem?_map, List.getElem?_range (hx _),
    List.getElem?_range (hy _), Option.map_some, Option.getD_some]
  rfl

/-- The tiles that a redraw with the applied values sees are those that the pixels of its clip see (R239). -/
theorem State.mem_visibleTiles {s : State} {t : TileId} (hg : (s.cfg.tm t).Good) (k : Clip) (i : Nat) :
    i ∈ visibleTiles s.cfg t k (s.redrawArgs t) ↔ ∃ y x, k.contains s.cfg (y, x) = true ∧ s.tileSeen t y x = i := by
  simp only [visibleTiles, visibleCells, List.map_map, List.mem_map, Clip.mem_pixels, Prod.exists, Function.comp_apply,
    s.srcPos_redrawArgs hg]
  rfl

/-- The dirty bits after a redraw with the applied values: the expanded ones, but for the tiles seen (R232, R239). -/
theorem State.isDirty_redrawn {s : State} {t : TileId} (hg : (s.cfg.tm t).Good) (k : Clip) {i : Nat}
    (hi : i < (s.cfg.tm t).nTiles) :
    (blit s.cfg t k (s.redrawArgs t) (s.decodeVisible t k (s.redrawArgs t))).isDirty i = true ↔
      ((s.tm t).isDirty i = true ∨ (s.tm t).allDirty = true) ∧
        ¬ ∃ y x, k.contains s.cfg (y, x) = true ∧ s.tileSeen t y x = i := by
  rw [← s.mem_visibleTiles hg]
  show (s.decodeVisible t k (s.redrawArgs t)).isDirty i = true ↔ _
  rw [State.isDirty_decodeVisible hg]
  simp [hi]

end Sys2Proof.Machine
end

