-- ==== Sys2Proof/Laws/Scheduler.lean ====
section
/-! SUPPORT. Laws of the scheduler (44_scheduler.md): what the redraw of every tilemap, the render step and a tick can do. -/

namespace Sys2Proof.Machine

/-- The redraw of a list of tilemaps changes tilemaps only. -/
theorem redrawEach_eq_next {k : Clip} {ids : List TileId} {s s' : State} (h : redrawEach k ids s = .next s') :
    s' = { s with tilemaps := s'.tilemaps } ∧ ∀ t, t ∉ ids → s'.tm t = s.tm t := by
  induction ids generalizing s with
  | nil =>
    injection h with h
    subst h
    exact ⟨rfl, fun _ _ => rfl⟩
  | cons t ids ih =>
    obtain ⟨s1, h1, h2⟩ := andThen_eq_next h
    have h1 := State.redraw_eq_next h1
    obtain ⟨h3, h4⟩ := ih h2
    refine ⟨?_, fun u hu => ?_⟩
    · rw [h3, h1]
      rfl
    · rw [List.mem_cons, not_or] at hu
      rw [h4 u hu.2, h1, State.tm_setTm]
      simp [Ne.symm hu.1]

/-- What the redraw of a list of tilemaps without repeats does to each of them. -/
theorem redrawEach_tm {k : Clip} {ids : List TileId} (hn : ids.Nodup) {s s' : State} (h : redrawEach k ids s = .next s') :
    ∀ t ∈ ids, s'.tm t = blit s.cfg t k (s.redrawArgs t) (s.decodeVisible t k (s.redrawArgs t)) := by
  induction ids generalizing s with
  | nil => simp
  | cons u ids ih =>
    rw [List.nodup_cons] at hn
    obtain ⟨s1, h1, h2⟩ := andThen_eq_next h
    have h1 := State.redraw_eq_next h1
    intro t ht
    rw [List.mem_cons] at ht
    by_cases hu : t = u
    · subst hu
      rw [(redrawEach_eq_next h2).2 t hn.1, h1, State.tm_setTm]
      simp
    · have ht := ht.resolve_left hu
      have := ih hn.2 h2 t ht
      rw [this, h1]
      have htm : ∀ v : Tilemap, (s.setTm u v).tm t = s.tm t := fun v => by
        rw [State.tm_setTm]
        simp [Ne.symm hu]
      unfold State.decodeVisible
      rw [htm]
      rfl

/-- The render step changes the tilemaps, the sprite layer and the FrameBuffer only. -/
theorem State.renderLine_eq_next {n : U16} {s s' : State} (h : s.renderLine n = .next s') :
    ∃ s1, redrawEach (s.lineClip n) s.cfg.tileIds s = .next s1 ∧
      s' = (s1.drawSprites (s.lineClip n) s.active.flipX s.active.flipY).compose (s.lineClip n) ∧
      s' = { s with tilemaps := s1.tilemaps, spr := s'.spr, fb := s'.fb } := by
  obtain ⟨s1, h1, h2⟩ := andThen_eq_next h
  injection h2 with h2
  refine ⟨s1, h1, h2.symm, ?_⟩
  rw [← h2, (redrawEach_eq_next h1).1]
  rfl

/-- The state in which a tick renders its line: after the boundary, with the raster and PartialRedraw events emitted. -/
def State.atRender (s : State) : State :=
  ((s.advance.passBoundary s.nextLine).signalRaster (s.advance.firesAfter s.nextLine)).emit (.partialRedraw s.nextLine)

/-- What a tick can do when it ends in a next state (R350): the fatal halt, or the whole line. -/
theorem State.tick_eq_next {s s' : State} (h : s.tick = .next s') :
    (s.advance.boundaryInOrder s.nextLine = false ∧ s' = s.advance.raiseFatal .schedulerReentrancyViolation) ∨
    (s.advance.boundaryInOrder s.nextLine = true ∧
      ∃ r, s.atRender.renderLine s.nextLine = .next r ∧ s' = r.endLine s.nextLine) := by
  unfold State.tick at h
  cases ho : s.advance.boundaryInOrder s.nextLine
  · simp only [State.boundaryLatch, ho, Bool.false_eq_true, if_false, State.afterBoundary_outOfOrder ho] at h
    injection h with h
    exact .inl ⟨rfl, h.symm⟩
  · simp only [State.boundaryLatch, ho, if_true, State.afterBoundary_inOrder ho, State.tickLine] at h
    obtain ⟨r, h1, h2⟩ := andThen_eq_next h
    injection h2 with h2
    refine .inr ⟨rfl, r, ?_, h2.symm⟩
    rw [← h1]
    simp only [State.atRender, State.latch, State.passBoundary_eq]

theorem State.tick_outOfOrder {s : State} (ho : s.advance.boundaryInOrder s.nextLine = false) :
    s.tick = .next (s.advance.raiseFatal .schedulerReentrancyViolation) := by
  simp [State.tick, State.boundaryLatch, ho, State.afterBoundary_outOfOrder ho]

theorem State.tick_inOrder {s r : State} (ho : s.advance.boundaryInOrder s.nextLine = true)
    (hr : s.atRender.renderLine s.nextLine = .next r) : s.tick = .next (r.endLine s.nextLine) := by
  have h : s.advance.boundaryLatch s.nextLine = some (s.advance.passBoundary s.nextLine).latch := by
    simp [State.boundaryLatch, ho]
  have hl : (s.advance.passBoundary s.nextLine).latch.irqFire = s.advance.firesAfter s.nextLine := by
    simp only [State.latch, State.passBoundary_eq]
  simp only [State.tick, h, State.afterBoundary_inOrder ho, State.tickLine, hl]
  have hr' := hr
  unfold State.atRender at hr'
  rw [hr']
  rfl

/-- The state in which a tick renders, field by field. -/
theorem State.atRender_eq (s : State) :
    s.atRender =
      { s with
        counter := s.nextLine
        frameCount := if s.nextLine = 0 then s.frameCount + 1 else s.frameCount
        lastBoundary := some s.nextLine
        active := s.activeAfter s.nextLine
        pending := if s.appliesAt s.nextLine then [] else s.pending
        irqArmed := s.armedAfter s.nextLine && !s.firesAfter s.nextLine
        latchIrq := s.firesAfter s.nextLine
        tilemaps := s.tilemapsAfter s.nextLine
        trace := s.trace ++
          ((if s.firesAfter s.nextLine then [Event.interrupt .raster s.cfg.vecRaster] else []) ++
            [Event.partialRedraw s.nextLine]) } := by
  unfold State.atRender
  rw [State.passBoundary_eq]
  have hf : s.advance.firesAfter s.nextLine = s.firesAfter s.nextLine := rfl
  rw [hf]
  unfold State.signalRaster
  split
  · next h =>
    simp only [h]
    simp only [State.emit, List.append_assoc]
    rfl
  · next h =>
    simp only [h]
    rfl

/-- The end of a line (R355), field by field. -/
theorem State.endLine_eq (n : U16) (s : State) :
    s.endLine n =
      { s with
        completed := if n = s.active.visBottom then some s.fb else s.completed
        trace := s.trace ++ if n = s.active.visBottom then [Event.interrupt .vblank s.cfg.vecVblank] else [] } := by
  unfold State.endLine
  split
  · simp [State.emit]
  · simp

/-- The pixels of line N's clip (R352). -/
theorem State.lineClip_contains (s : State) (n : U16) (y x : Nat) :
    (s.lineClip n).contains s.cfg (y, x) = true ↔
      y = n.toNat ∧ s.active.visTop.toNat ≤ y ∧ y ≤ s.active.visBottom.toNat ∧ y < s.cfg.fbH ∧
        s.active.visLeft.toNat ≤ x ∧ x ≤ s.active.visRight.toNat ∧ x < s.cfg.fbW := by
  unfold State.lineClip
  split
  · next h =>
    simp only [State.visibleRow, Bool.and_eq_true, decide_eq_true_eq] at h
    simp only [Clip.contains, Bool.and_eq_true, decide_eq_true_eq]
    omega
  · next h =>
    simp only [State.visibleRow, Bool.and_eq_true, decide_eq_true_eq] at h
    simp only [Clip.emptyClip_contains]
    constructor
    · intro h'
      cases h'
    · rintro ⟨rfl, h1, h2, h3, _⟩
      exact absurd ⟨⟨h1, h2⟩, h3⟩ h

/-- The fields that every tick leaves alone or steps, the fatal one too. -/
theorem State.tick_frame {s t : State} (h : s.tick = .next t) :
    t.cfg = s.cfg ∧ t.mem = s.mem ∧ t.pal = s.pal ∧ t.stream = s.stream ∧ t.refused = s.refused ∧
      t.counter = s.nextLine ∧ t.frameCount = (if s.nextLine = 0 then s.frameCount + 1 else s.frameCount) ∧
      ∃ events, t.trace = s.trace ++ events := by
  rcases State.tick_eq_next h with ⟨-, rfl⟩ | ⟨-, r, hr, rfl⟩
  · exact ⟨rfl, rfl, rfl, rfl, rfl, rfl, rfl, [], by simp [State.advance]⟩
  · obtain ⟨s1, -, -, h3⟩ := State.renderLine_eq_next hr
    rw [State.endLine_eq, h3, State.atRender_eq]
    exact ⟨rfl, rfl, rfl, rfl, rfl, rfl, rfl, _, List.append_assoc _ _ _⟩

/-- A pixel's composition depends on the layers, the palette, the applied registers and the frame count only. -/
theorem State.composed_congr {s s' : State} (p : Nat × Nat) (hc : s'.cfg = s.cfg) (ht : s'.tilemaps = s.tilemaps)
    (hs : s'.spr = s.spr) (ha : s'.active = s.active) (hp : s'.pal = s.pal) (hf : s'.frameCount = s.frameCount) :
    s'.composed p = s.composed p := by
  have hcontr : ∀ slot, s'.contrib p slot = s.contrib p slot := by
    intro slot
    cases slot
    · simp only [State.contrib, State.tm, ht]
    · simp only [State.contrib, hs]
    · simp only [State.contrib, State.overlayContrib, hc, ha, hf]
  have hbest : s'.best p = s.best p := by
    unfold State.best
    rw [hc]
    simp only [hcontr]
  unfold State.composed
  rw [hbest]
  simp only [State.rgb, hp, hc, ha]

end Sys2Proof.Machine
end

