-- ==== Sys2Proof/Laws/Coherence.lean ====
section
/-! SUPPORT. Coherence of the tile cache (41_tilemap.md R245), operation by operation. -/

namespace Sys2Proof.Machine

/-- The decoded pixel depends on the configuration, the memory, GFX_BANK and the displayed palette bank only. -/
theorem State.decoded_congr {s s' : State} (hc : s'.cfg = s.cfg) (hm : s'.mem = s.mem)
    (hg : s'.active.gfxBank = s.active.gfxBank) (hp : s'.active.paletteBank = s.active.paletteBank) (t : TileId)
    (fx fy : Bool) (cell : Nat × Nat) (px py : Nat) :
    s'.decoded t fx fy cell px py = s.decoded t fx fy cell px py := by
  have hb : s'.gfxByte t = s.gfxByte t := by
    funext k
    simp only [State.gfxByte, hc, hm]
  have hti : s'.tileInfo t = s.tileInfo t := by
    funext i
    simp only [State.tileInfo, hc, hm, hg]
  have htp : s'.tilePix t = s.tilePix t := by
    funext e x y
    simp only [State.tilePix, hc, hb]
  have hpen : penOf s'.cfg s'.active = penOf s.cfg s.active := by
    funext base color bpp v
    simp only [penOf, bankBase, hc, hp]
  simp only [State.decoded, State.cellPixel, hti, htp, hpen]
  rw [hc]

theorem State.cleanFresh_congr {s s' : State} (hc : s'.cfg = s.cfg) (hm : s'.mem = s.mem)
    (hg : s'.active.gfxBank = s.active.gfxBank) (hp : s'.active.paletteBank = s.active.paletteBank) (t : TileId)
    (fx fy : Bool) (m : Tilemap) : s'.CleanFresh t fx fy m ↔ s.CleanFresh t fx fy m := by
  simp only [State.CleanFresh, State.decoded_congr hc hm hg hp, hc]

/-- Coherence is kept where the inputs of a decode and the tilemap are kept. -/
theorem State.coherentAt_congr {s s' : State} (hc : s'.cfg = s.cfg) (hm : s'.mem = s.mem)
    (hg : s'.active.globals = s.active.globals) {t : TileId} (ht : s'.tm t = s.tm t) (h : s.CoherentAt t) :
    s'.CoherentAt t := by
  simp only [Regs.globals, Prod.mk.injEq] at hg
  rw [State.coherentAt_iff] at h ⊢
  have hx : s'.active.flipX = s.active.flipX := by simp only [Regs.flipX, hg.2.2]
  have hy : s'.active.flipY = s.active.flipY := by simp only [Regs.flipY, hg.2.2]
  rw [ht, hx, hy, State.cleanFresh_congr hc hm hg.1 hg.2.1]
  exact h

/-- A tilemap whose every cell is marked is coherent. -/
theorem State.coherentAt_of_allDirty {s : State} {t : TileId} (h : (s.tm t).allDirty = true) : s.CoherentAt t := by
  rw [State.coherentAt_iff]
  intro h'
  simp [h] at h'

/-! Redraw. -/

/-- A redraw with the applied values keeps every tilemap coherent. -/
theorem State.coherentAt_redraw {s s' : State} {t : TileId} {k : Clip} (hg : (s.cfg.tm t).Good) (hc : s.CoherentAt t)
    (h : s.redraw t k (s.redrawArgs t) = .next s') (u : TileId) (hu : u = t ∨ s.CoherentAt u) : s'.CoherentAt u := by
  have h := State.redraw_eq_next h
  by_cases hut : u = t
  · subst hut
    rw [State.coherentAt_iff] at hc ⊢
    intro _
    have hf := State.decodeVisible_cleanFresh hg k (s.redrawArgs u) hc
    have htm : s'.tm u = blit s.cfg u k (s.redrawArgs u) (s.decodeVisible u k (s.redrawArgs u)) := by
      rw [h, State.tm_setTm]
      simp
    rw [htm]
    subst h
    exact hf
  · refine State.coherentAt_congr ?_ ?_ ?_ ?_ (hu.resolve_left hut)
    · rw [h]; rfl
    · rw [h]; rfl
    · rw [h]; rfl
    · rw [h, State.tm_setTm]
      simp [Ne.symm hut]

/-- The redraw of every tilemap of a coherent state completes, and keeps coherence. -/
theorem redrawEach_coherent {k : Clip} {ids : List TileId} {s : State} (hg : ∀ t ∈ ids, (s.cfg.tm t).Good)
    (hids : ∀ t ∈ ids, t ∈ s.cfg.tileIds) (hc : s.Coherent) : ∃ s', redrawEach k ids s = .next s' ∧ s'.Coherent := by
  induction ids generalizing s with
  | nil => exact ⟨s, rfl, hc⟩
  | cons t ids ih =>
    have hgt := hg t List.mem_cons_self
    have hct := hc t (hids t List.mem_cons_self)
    have h1 := State.redraw_completes hgt k (s.redrawArgs t) ((s.coherentAt_iff t).mp hct)
    have hc1 : ∀ u ∈ s.cfg.tileIds, State.CoherentAt (s.setTm t (blit s.cfg t k (s.redrawArgs t)
        (s.decodeVisible t k (s.redrawArgs t)))) u :=
      fun u hu => State.coherentAt_redraw hgt hct h1 u (.inr (hc u hu))
    obtain ⟨s', h2, hc2⟩ := ih (s := s.setTm t (blit s.cfg t k (s.redrawArgs t) (s.decodeVisible t k (s.redrawArgs t))))
      (fun u hu => hg u (List.mem_cons_of_mem _ hu)) (fun u hu => hids u (List.mem_cons_of_mem _ hu)) hc1
    exact ⟨s', by simp only [redrawEach, h1, andThen_next, h2], hc2⟩

/-! The boundary. -/

/-- An accepted boundary keeps coherence: a changed global marks every tilemap (43_latch.md R327). -/
theorem State.coherentAt_passBoundary {s : State} (n : U16) {t : TileId} (ht : t.toNat < s.cfg.nt) (h : s.CoherentAt t) :
    (s.passBoundary n).CoherentAt t := by
  have htm : (s.passBoundary n).tm t = (s.tilemapsAfter n).get t := by
    rw [State.passBoundary_eq]
    rfl
  by_cases hgl : (s.activeAfter n).globals = s.active.globals
  · refine State.coherentAt_congr ?_ ?_ ?_ ?_ h
    · rw [State.passBoundary_eq]
    · rw [State.passBoundary_eq]
    · rw [State.passBoundary_eq]
      exact hgl
    · rw [htm, State.tilemapsAfter_get, if_pos hgl]
  · apply State.coherentAt_of_allDirty
    rw [htm, State.tilemapsAfter_get, if_neg hgl, if_pos ht]
    rfl

/-! WMEM. -/

/-- The memory after a write, at every other address. -/
theorem State.writeMemory_eq {s : State} {a : Nat} (d : Byte) (ha : a < s.cfg.memSize) :
    s.writeMemory a d =
      { s with
        mem := s.mem.write a d
        tilemaps :=
          if d = s.mem.read a then s.tilemaps
          else mapTilemaps (fun t m => m.markWrite (s.cfg.tm t) a) s.cfg.tileIds s.tilemaps
        pal := paletteAfterWrite s.cfg (s.mem.write a d) a s.pal } := by
  simp [State.writeMemory, ha]

theorem State.writeMemory_outside {s : State} {a : Nat} (d : Byte) (ha : ¬ a < s.cfg.memSize) : s.writeMemory a d = s := by
  simp [State.writeMemory, ha]

/-- The tilemaps after a write (20_memory.md R106). -/
theorem State.writeMemory_tm {s : State} {a : Nat} (d : Byte) (ha : a < s.cfg.memSize) (t : TileId) :
    (s.writeMemory a d).tm t =
      if d = s.mem.read a ∨ ¬ t.toNat < s.cfg.nt then s.tm t else (s.tm t).markWrite (s.cfg.tm t) a := by
  rw [State.writeMemory_eq d ha]
  by_cases hd : d = s.mem.read a
  · simp [hd, State.tm]
  · simp only [State.tm, hd, if_false, false_or]
    rw [get_mapTilemaps _ _ s.cfg.tileIds_nodup]
    simp only [Config.mem_tileIds]
    by_cases ht : t.toNat < s.cfg.nt <;> simp [ht]

/-- A write of the value already there changes no byte. -/
theorem Memory.read_write_same (m : Memory) (a b : Nat) : (m.write a (m.read a)).read b = m.read b := by
  rw [Memory.read_write]
  split
  · next h => rw [h]
  · rfl

/-- The tile info of a tile that the address does not back is the same after the write. -/
theorem State.tileInfo_writeMemory {s : State} {a : Nat} (d : Byte) (ha : a < s.cfg.memSize) (t : TileId) (i : Nat)
    (hi : d = s.mem.read a ∨ a ∉ (s.cfg.tm t).backingAddrs i) :
    (s.writeMemory a d).tileInfo t i = s.tileInfo t i := by
  rw [State.writeMemory_eq d ha]
  unfold State.tileInfo
  have : ((s.cfg.tm t).backingAddrs i).map (s.mem.write a d).read = ((s.cfg.tm t).backingAddrs i).map s.mem.read := by
    apply List.map_congr_left
    intro b hb
    rcases hi with rfl | hi
    · exact Memory.read_write_same _ _ _
    · rw [Memory.read_write, if_neg]
      rintro rfl
      exact hi hb
  simp only [this]

/-- A pixel function reads only the source bytes that its index expressions name. -/
theorem PixelFn.eval_congr (f : PixelFn) {src src' : Nat → Byte} (bpp : Nat) (args : List Nat)
    (h : ∀ e ∈ f.reads, src' (e.eval args) = src (e.eval args)) : f.eval src' bpp args = f.eval src bpp args := by
  unfold PixelFn.eval
  have : (f.reads.map fun e => (src' (e.eval args)).toNat) = f.reads.map fun e => (src (e.eval args)).toNat :=
    List.map_congr_left fun e he => by rw [h e he]
  rw [this]

/-- Outside character RAM a write leaves the pixel values of in-range codes alone (R236). -/
theorem State.tilePix_writeMemory {s : State} (hw : s.cfg.wf = true) {a : Nat} (d : Byte) (ha : a < s.cfg.memSize)
    {t : TileId} (ht : t.toNat < s.cfg.nt) (hchar : d = s.mem.read a ∨ (s.cfg.tm t).inCharRam a = false) (e : TileEntry)
    {px py : Nat} (hpx : px < (s.cfg.tm t).tileW) (hpy : py < (s.cfg.tm t).tileH) :
    (s.writeMemory a d).tilePix t e px py = s.tilePix t e px py := by
  have hcfg : (s.writeMemory a d).cfg = s.cfg := by rw [State.writeMemory_eq d ha]
  unfold State.tilePix
  simp only [hcfg]
  split
  · next hcode =>
    apply PixelFn.eval_congr
    intro ex hex
    unfold State.gfxByte
    rw [hcfg]
    cases hsrc : (s.cfg.tm t).gfxSrc with
    | rom r => rfl
    | charRam lo hi =>
      have hdef := s.cfg.wf_holds hw .gfxPixelDefined
      simp only [ConfigCheck.holds, List.all_eq_true, Config.mem_tileIds] at hdef
      have hdef := hdef t ht
      simp only [Config.gfxPixelDefined, Config.gfxLength, hsrc, List.all_eq_true, List.mem_range, PixelFn.definedAt,
        decide_eq_true_eq] at hdef
      have hlt := hdef _ hcode _ hpx _ hpy ex hex
      have hmem : (s.writeMemory a d).mem = s.mem.write a d := by rw [State.writeMemory_eq d ha]
      simp only [hmem]
      rcases hchar with rfl | hchar
      · exact Memory.read_write_same _ _ _
      · rw [Memory.read_write, if_neg]
        rintro rfl
        simp only [TilemapCfg.inCharRam, hsrc, Bool.and_eq_false_iff, decide_eq_false_iff_not] at hchar
        omega
  · rfl

/-- A memory write keeps coherence: a changed backing byte marks its tile, changed character RAM marks every tile. -/
theorem State.coherentAt_writeMemory {s : State} (hw : s.cfg.wf = true) (a : Nat) (d : Byte) {t : TileId}
    (ht : t.toNat < s.cfg.nt) (h : s.CoherentAt t) : (s.writeMemory a d).CoherentAt t := by
  by_cases ha : a < s.cfg.memSize
  swap
  · rwa [State.writeMemory_outside d ha]
  have hg := s.cfg.good hw ht
  have hcfg : (s.writeMemory a d).cfg = s.cfg := by rw [State.writeMemory_eq d ha]
  have hact : (s.writeMemory a d).active = s.active := by rw [State.writeMemory_eq d ha]
  rw [State.coherentAt_iff] at h ⊢
  rw [State.writeMemory_tm d ha]
  intro had
  have had' : (s.tm t).allDirty = false ∧ (d = s.mem.read a ∨ (s.cfg.tm t).inCharRam a = false) := by
    split at had
    · next hor => exact ⟨had, .inl (hor.resolve_right (fun hn => hn ht))⟩
    · rw [Tilemap.markWrite_allDirty, Bool.or_eq_false_iff] at had
      exact ⟨had.1, .inr had.2⟩
  intro cell hcell hclean px hpx py hpy
  rw [hcfg] at hcell hclean hpx hpy
  have hlt := hg.scan_lt cell hcell
  have hclean' : (s.tm t).isDirty ((s.cfg.tm t).scanAt cell.1 cell.2) = false ∧
      (d = s.mem.read a ∨ a ∉ (s.cfg.tm t).backingAddrs ((s.cfg.tm t).scanAt cell.1 cell.2)) := by
    split at hclean
    · next hor => exact ⟨hclean, .inl (hor.resolve_right (fun hn => hn ht))⟩
    · rw [Tilemap.isDirty_markWrite, Bool.or_eq_false_iff, decide_eq_false_iff_not] at hclean
      exact ⟨hclean.1, .inr fun hb => hclean.2 (TilemapCfg.mem_backedTiles hlt hb)⟩
  have hold := h had'.1 cell hcell hclean'.1 px hpx py hpy
  have hcache : (if d = s.mem.read a ∨ ¬ t.toNat < s.cfg.nt then s.tm t
      else (s.tm t).markWrite (s.cfg.tm t) a).cache = (s.tm t).cache := by
    split
    · rfl
    · rw [Tilemap.markWrite_cache]
  rw [hcache, hcfg, hact, hold]
  congr 1
  unfold State.decoded
  rw [hcfg, State.tileInfo_writeMemory d ha t _ hclean'.2]
  unfold State.cellPixel
  simp only [hcfg, hact]
  rw [State.tilePix_writeMemory hw d ha ht had'.2 _ (mirror_lt hpx) (mirror_lt hpy)]

/-! The whole state. -/

/-- Coherence is kept where the inputs of a decode and the tilemaps are kept. -/
theorem State.coherent_congr {s s' : State} (hc : s'.cfg = s.cfg) (hm : s'.mem = s.mem)
    (hg : s'.active.globals = s.active.globals) (ht : s'.tilemaps = s.tilemaps) (h : s.Coherent) : s'.Coherent := by
  intro t hmem
  rw [hc] at hmem
  exact State.coherentAt_congr hc hm hg (by simp [State.tm, ht]) (h t hmem)

/-- Marking keeps coherence. -/
theorem State.coherentAt_markDirty {s : State} {t u : TileId} (i : Nat) (h : s.CoherentAt u) :
    (s.setTm t ((s.tm t).markDirty i)).CoherentAt u := by
  by_cases hut : t = u
  · subst hut
    rw [State.coherentAt_iff] at h ⊢
    simp only [State.tm_setTm, if_true, Tilemap.markDirty_allDirty]
    intro ha cell hc hd
    rw [Tilemap.isDirty_markDirty] at hd
    have hd' : (s.tm t).isDirty ((s.cfg.tm t).scanAt cell.1 cell.2) = false := by
      simp only [Bool.or_eq_false_iff, State.setTm_cfg] at hd
      exact hd.2
    exact h ha cell hc hd'
  · exact State.coherentAt_congr (s := s) (s' := s.setTm t _) rfl rfl rfl (by rw [State.tm_setTm, if_neg hut]) h

theorem State.coherentAt_markAll {s : State} {t u : TileId} (h : s.CoherentAt u) :
    (s.setTm t (s.tm t).markAll).CoherentAt u := by
  by_cases hut : t = u
  · subst hut
    apply State.coherentAt_of_allDirty
    simp
  · exact State.coherentAt_congr (s := s) (s' := s.setTm t _) rfl rfl rfl (by rw [State.tm_setTm, if_neg hut]) h

/-- The state in which a tick renders is coherent: its boundary has marked what a global change makes stale. -/
theorem State.coherent_atRender {s : State} (h : s.Coherent) : s.atRender.Coherent := by
  intro t ht
  have ht' : t ∈ s.cfg.tileIds := by
    rw [State.atRender_eq] at ht
    exact ht
  have h1 : s.advance.CoherentAt t := State.coherentAt_congr (s := s) rfl rfl rfl rfl (h t ht')
  have h2 : (s.advance.passBoundary s.nextLine).CoherentAt t :=
    State.coherentAt_passBoundary (s := s.advance) s.nextLine ((s.cfg.mem_tileIds t).mp ht') h1
  have he : s.atRender = { s.advance.passBoundary s.nextLine with trace := s.atRender.trace } := by
    rw [State.atRender_eq, State.passBoundary_eq]
    rfl
  rw [he]
  exact State.coherentAt_congr (s := s.advance.passBoundary s.nextLine) rfl rfl rfl rfl h2

/-- The render step of a coherent state completes, keeps coherence, and changes the three pixel buffers only. -/
theorem State.renderLine_completes {s : State} (hw : s.cfg.wf = true) (h : s.Coherent) (n : U16) :
    ∃ r, s.renderLine n = .next r ∧ r.Coherent ∧ r = { s with tilemaps := r.tilemaps, spr := r.spr, fb := r.fb } := by
  obtain ⟨s1, h1, h2⟩ := redrawEach_coherent (k := s.lineClip n) (ids := s.cfg.tileIds) (s := s)
    (fun t ht => s.cfg.good hw ((s.cfg.mem_tileIds t).mp ht)) (fun t ht => ht) h
  refine ⟨_, by simp only [State.renderLine, h1, andThen_next]; rfl, ?_, ?_⟩
  · exact State.coherent_congr (s := s1) rfl rfl rfl rfl h2
  · rw [(redrawEach_eq_next h1).1]
    rfl

end Sys2Proof.Machine
end

