-- ==== Sys2Proof/Laws/Pixels.lean ====
section
/-! SUPPORT. Laws of the palette, the sprite layer and the FrameBuffer, in terms of reads of one entry or one pixel. -/

namespace Sys2Proof

/-- A filter that looks at keys only: the kept keys read as before, the others read nothing. -/
theorem Sparse.find_filter_key {κ α : Type} [DecidableEq κ] (p : κ → Bool) (m : List (κ × α)) (k : κ) :
    Sparse.find (m.filter fun e => p e.1) k = if p k then Sparse.find m k else none := by
  induction m with
  | nil => simp
  | cons e m ih =>
    rw [List.filter_cons]
    by_cases he : p e.1 = true
    · simp only [he, if_true, Sparse.find_cons, ih]
      by_cases hk : e.1 = k
      · subst hk
        simp [he]
      · simp [hk]
    · simp only [he, Bool.false_eq_true, if_false, ih, Sparse.find_cons]
      by_cases hk : e.1 = k
      · subst hk
        simp [he]
      · simp [hk]

/-- Writes of at most one value per key, given by an optional value: the read is that value, else what was there. -/
theorem Sparse.getD_putAll_filterMap {κ α : Type} [DecidableEq κ] [DecidableEq α] (lt : κ → κ → Bool) (d : α)
    (m : List (κ × α)) (ks : List κ) (f : κ → Option α) (j : κ) :
    Sparse.getD d (Sparse.putAll lt d m (ks.filterMap fun k => (f k).map fun v => (k, v))) j =
      if j ∈ ks then (f j).getD (Sparse.getD d m j) else Sparse.getD d m j := by
  rw [Sparse.getD_putAll]
  cases hf : f j with
  | none =>
    have : Sparse.find (ks.filterMap fun k => (f k).map fun v => (k, v)).reverse j = none := by
      rw [Sparse.find_eq_none]
      intro e he hj
      simp only [List.mem_reverse, List.mem_filterMap, Option.map_eq_some_iff] at he
      obtain ⟨k, _, v, hv, rfl⟩ := he
      simp only at hj
      subst hj
      simp [hf] at hv
    simp [this]
  | some v =>
    have hv : ∀ e ∈ (ks.filterMap fun k => (f k).map fun v => (k, v)).reverse, e.2 = (f e.1).getD d := by
      intro e he
      simp only [List.mem_reverse, List.mem_filterMap, Option.map_eq_some_iff] at he
      obtain ⟨k, _, v, hv, rfl⟩ := he
      simp [hv]
    rw [Sparse.find_of_fun (f := fun k => (f k).getD d) hv]
    have hm : j ∈ (ks.filterMap fun k => (f k).map fun v => (k, v)).reverse.map Prod.fst ↔ j ∈ ks := by
      simp only [List.mem_map, List.mem_reverse, List.mem_filterMap, Option.map_eq_some_iff]
      constructor
      · rintro ⟨e, ⟨k, hk, v', _, rfl⟩, rfl⟩
        exact hk
      · intro hj
        exact ⟨(j, v), ⟨j, hj, v, hf, rfl⟩, rfl⟩
    simp only [hm, hf, Option.getD_some]
    split <;> rfl

namespace Machine

/-! The palette. -/

/-- Every entry of a decoded palette (R201, R205). -/
theorem getD_decodePalette (c : Config) (m : Memory) (i : Nat) :
    Sparse.getD Rgb.black (decodePalette c m) i =
      if i < c.pal.entries then entryRgb c.pal (rawBytes c m i) else Rgb.black := by
  unfold decodePalette
  rw [Sparse.getD_putAll_map natLt Rgb.black [] (List.range c.pal.entries) (fun i => entryRgb c.pal (rawBytes c m i))]
  simp only [List.mem_range, Sparse.getD_nil]

/-- The palette after a write (R204): the entry that holds the address, and no other. -/
theorem getD_paletteAfterWrite (c : Config) (m : Memory) (a : Nat) (pal : List (Nat × Rgb)) (i : Nat) :
    Sparse.getD Rgb.black (paletteAfterWrite c m a pal) i =
      if c.pal.entryAt a = some i then entryRgb c.pal (rawBytes c m i) else Sparse.getD Rgb.black pal i := by
  unfold paletteAfterWrite
  cases h : c.pal.entryAt a with
  | none => simp
  | some j =>
    simp only [writeDynamic, Sparse.getD_put, Option.some.injEq]
    by_cases hj : j = i
    · simp [hj]
    · simp [hj]

theorem canonical_paletteAfterWrite (c : Config) (m : Memory) (a : Nat) (pal : List (Nat × Rgb))
    (h : Sparse.canonical natLt Rgb.black pal = true) :
    Sparse.canonical natLt Rgb.black (paletteAfterWrite c m a pal) = true := by
  unfold paletteAfterWrite
  split
  · exact Sparse.canonical_put natLt_ordered _ _ _ _ h
  · exact h

theorem canonical_decodePalette (c : Config) (m : Memory) :
    Sparse.canonical natLt Rgb.black (decodePalette c m) = true :=
  Sparse.canonical_putAll natLt_ordered _ _ _ rfl

/-! The sprite layer. -/

/-- Every pixel that a copy of a sprite writes is in the clip (R289). -/
theorem copyWrites_in_clip {c : Config} {g : Regs} {k : Clip} {r : SpriteRecord} {fx fy : Bool} {ox oy : Int}
    {e : (Nat × Nat) × SprPixel} (h : e ∈ copyWrites c g k r fx fy ox oy) : k.contains c e.1 = true := by
  simp only [copyWrites, List.mem_flatMap, List.mem_filterMap] at h
  obtain ⟨j, _, i, _, h⟩ := h
  unfold clipPixel at h
  split at h
  · cases h
  · next p hp =>
    split at hp
    · next hin =>
      injection hp with hp
      simp only [Option.map_eq_some_iff] at h
      obtain ⟨v, _, rfl⟩ := h
      rw [← hp]
      exact hin.2.2
    · cases hp

/-- Every pixel that the draw operation writes is in the clip (R280). -/
theorem spriteWrites_in_clip {c : Config} {g : Regs} {m : Memory} {k : Clip} {fx fy : Bool}
    {e : (Nat × Nat) × SprPixel} (h : e ∈ spriteWrites c g m k fx fy) : k.contains c e.1 = true := by
  simp only [spriteWrites, List.mem_flatMap] at h
  obtain ⟨j, _, h⟩ := h
  split at h
  · cases h
  · split at h
    · simp only [drawOne, List.mem_flatMap] at h
      obtain ⟨_, _, _, _, h⟩ := h
      exact copyWrites_in_clip h
    · cases h

theorem getD_clearClip (c : Config) (k : Clip) (spr : PixMap SprPixel) (p : Nat × Nat) :
    Sparse.getD .blank (clearClip c k spr) p = if k.contains c p = true then .blank else Sparse.getD .blank spr p := by
  unfold Sparse.getD clearClip
  rw [Sparse.find_filter_key (fun q => !k.contains c q)]
  cases k.contains c p <;> simp

/-- The sprite layer after the draw operation (R280): inside the clip the last pixel written, else None. -/
theorem State.getD_drawnSprites (s : State) (k : Clip) (fx fy : Bool) (p : Nat × Nat) :
    Sparse.getD .blank (s.drawnSprites k fx fy) p =
      if k.contains s.cfg p = true then
        (Sparse.find (spriteWrites s.cfg s.active s.mem k fx fy).reverse p).getD .blank
      else Sparse.getD .blank s.spr p := by
  unfold State.drawnSprites
  rw [Sparse.getD_putAll, getD_clearClip]
  by_cases hp : k.contains s.cfg p = true
  · simp [hp]
  · have hn : Sparse.find (spriteWrites s.cfg s.active s.mem k fx fy).reverse p = none := by
      rw [Sparse.find_eq_none]
      intro e he hep
      exact hp (hep ▸ spriteWrites_in_clip (List.mem_reverse.mp he))
    simp [hp, hn]

theorem State.canonical_drawnSprites (s : State) (k : Clip) (fx fy : Bool)
    (h : Sparse.canonical posLt SprPixel.blank s.spr = true) :
    Sparse.canonical posLt SprPixel.blank (s.drawnSprites k fx fy) = true :=
  Sparse.canonical_putAll posLt_ordered _ _ _ (Sparse.canonical_filter _ _ _ _ h)

/-! The FrameBuffer. -/

/-- The FrameBuffer after a composition (R383): inside the clip the composed colour, where there is one. -/
theorem State.getD_composedFrame (s : State) (k : Clip) (p : Nat × Nat) :
    Sparse.getD Rgb.black (s.composedFrame k) p =
      if k.contains s.cfg p = true then (s.composed p).getD (Sparse.getD Rgb.black s.fb p)
      else Sparse.getD Rgb.black s.fb p := by
  unfold State.composedFrame
  rw [Sparse.getD_putAll_filterMap]
  simp only [Clip.mem_pixels]

theorem State.canonical_composedFrame (s : State) (k : Clip) (h : Sparse.canonical posLt Rgb.black s.fb = true) :
    Sparse.canonical posLt Rgb.black (s.composedFrame k) = true :=
  Sparse.canonical_putAll posLt_ordered _ _ _ h

/-- The contributor that `compose` finds (R383): the last slot of the list that contributes. -/
theorem State.best_append (s : State) (p : Nat × Nat) (lower upper : List Slot) (slot : Slot) (x : Contrib)
    (hs : s.cfg.slots = lower ++ slot :: upper) (hx : s.contrib p slot = some x)
    (hu : ∀ u ∈ upper, s.contrib p u = none) : s.best p = some x := by
  have hfold : ∀ (l : List Slot) (b : Option Contrib), (∀ u ∈ l, s.contrib p u = none) →
      l.foldl (fun best slot => (s.contrib p slot).or best) b = b := by
    intro l
    induction l with
    | nil => intro b _; rfl
    | cons u l ih =>
      intro b hl
      rw [List.foldl_cons, hl u List.mem_cons_self, Option.none_or]
      exact ih b fun v hv => hl v (List.mem_cons_of_mem _ hv)
  unfold State.best
  rw [hs, List.foldl_append, List.foldl_cons, hx, Option.some_or, hfold upper _ hu]

theorem State.best_none (s : State) (p : Nat × Nat) (hn : ∀ u ∈ s.cfg.slots, s.contrib p u = none) : s.best p = none := by
  unfold State.best
  generalize s.cfg.slots = l at hn
  induction l with
  | nil => rfl
  | cons u l ih =>
    rw [List.foldl_cons, hn u List.mem_cons_self, Option.none_or]
    exact ih fun v hv => hn v (List.mem_cons_of_mem _ hv)

/-! The bytes of a palette entry. -/

theorem PalCfg.mem_pairs (p : PalCfg) (i k : Nat) : (i, k) ∈ p.pairs ↔ i < p.entries ∧ k < p.bytes := by
  simp only [PalCfg.pairs, List.mem_flatMap, List.mem_map, List.mem_range, Prod.mk.injEq]
  constructor
  · rintro ⟨_, hi, _, hk, rfl, rfl⟩
    exact ⟨hi, hk⟩
  · rintro ⟨hi, hk⟩
    exact ⟨i, hi, k, hk, rfl, rfl⟩

/-- An address that is byte `k` of entry `i` is found to be so (40_palette.md R204), as no other entry has it. -/
theorem PalCfg.entryAt_eq {p : PalCfg} {a i k : Nat} (hk : p.kind = .dynamicRam) (hi : i < p.entries) (hkb : k < p.bytes)
    (hinj : ∀ q ∈ p.pairs, ∀ r ∈ p.pairs, p.off q.1 q.2 = p.off r.1 r.2 → q = r) (ha : (a : Int) = p.ramPos i k) :
    p.entryAt a = some i := by
  have hpair : ∀ i k, i < p.entries → k < p.bytes → (i, k) ∈ p.pairs := fun i k h1 h2 => (PalCfg.mem_pairs p i k).mpr ⟨h1, h2⟩
  have huniq : ∀ j < p.entries, ((List.range p.bytes).any fun k => decide ((a : Int) = p.ramPos j k)) = true → j = i := by
    intro j hj h
    simp only [List.any_eq_true, List.mem_range, decide_eq_true_eq] at h
    obtain ⟨k', hk', h⟩ := h
    have := hinj (j, k') (hpair j k' hj hk') (i, k) (hpair i k hi hkb) (by
      simp only [PalCfg.ramPos] at h ha
      dsimp only
      omega)
    simp only [Prod.mk.injEq] at this
    exact this.1
  have hself : ((List.range p.bytes).any fun k => decide ((a : Int) = p.ramPos i k)) = true := by
    simp only [List.any_eq_true, List.mem_range, decide_eq_true_eq]
    exact ⟨k, hkb, ha⟩
  unfold PalCfg.entryAt
  rw [hk]
  dsimp only
  cases hf : (List.range p.entries).find? (fun i => (List.range p.bytes).any fun k => decide ((a : Int) = p.ramPos i k)) with
  | none =>
    rw [List.find?_eq_none] at hf
    exact absurd hself (hf i (List.mem_range.mpr hi))
  | some j =>
    have h1 := List.mem_of_find?_eq_some hf
    have h2 := List.find?_some hf
    rw [huniq j (List.mem_range.mp h1) h2]

/-- In a well-formed configuration every byte of palette RAM lies in VideoMemoryRegion (R481). -/
theorem PalCfg.ramPos_inside {c : Config} (hw : c.wf = true) (hk : c.pal.kind = .dynamicRam) {i k : Nat}
    (hi : i < c.pal.entries) (hb : k < c.pal.bytes) : 0 ≤ c.pal.ramPos i k ∧ c.pal.ramPos i k < c.memSize := by
  have h := c.wf_holds hw .palOffsetsInside
  simp only [ConfigCheck.holds, hk, List.all_eq_true, Bool.and_eq_true, decide_eq_true_eq] at h
  exact h (i, k) ((PalCfg.mem_pairs c.pal i k).mpr ⟨hi, hb⟩)

/-- In a well-formed configuration every byte of a static palette lies below PROM_LEN_MIN (R481). -/
theorem PalCfg.off_inside {c : Config} (hw : c.wf = true) (hk : c.pal.kind = .staticProm) {i k : Nat}
    (hi : i < c.pal.entries) (hb : k < c.pal.bytes) : 0 ≤ c.pal.off i k ∧ c.pal.off i k < c.pal.promLenMin := by
  have h := c.wf_holds hw .palOffsetsInside
  simp only [ConfigCheck.holds, hk, List.all_eq_true, Bool.and_eq_true, decide_eq_true_eq] at h
  exact h (i, k) ((PalCfg.mem_pairs c.pal i k).mpr ⟨hi, hb⟩)

/-- The raw bytes of an entry are kept where its bytes of palette RAM are. -/
theorem rawBytes_congr {c : Config} {m m' : Memory} {i : Nat}
    (h : c.pal.kind = .dynamicRam →
      ∀ k, k < c.pal.bytes → m'.read (c.pal.ramAddr i k) = m.read (c.pal.ramAddr i k)) :
    rawBytes c m' i = rawBytes c m i := by
  unfold rawBytes
  apply List.map_congr_left
  intro k hk
  unfold rawByte
  cases hkind : c.pal.kind
  · rfl
  · exact h hkind k (List.mem_range.mp hk)

end Machine

end Sys2Proof
end

