-- ==== Sys2Proof/Laws/Init.lean ====
section
/-! SUPPORT. Laws of initialisation (70_reset_and_hazards.md R480, R481): what building a machine and RESET can do. -/

namespace Sys2Proof.Machine

theorem buildable_iff (c : Config) :
    buildable c = true ↔
      c.wf = true ∧ regionsPresent c = true ∧ (c.pal.kind = .dynamicRam ∨ c.pal.promLenMin ≤ c.prom.length) := by
  simp [buildable, and_assoc]

/-- Every named region is present (R481 step 3). -/
theorem regionsPresent_iff (c : Config) : regionsPresent c = true ↔ ∀ g ∈ c.namedRegions, c.region g ≠ none := by
  unfold regionsPresent
  rw [List.all_eq_true]
  refine forall_congr' fun g => forall_congr' fun _ => ?_
  cases c.region g <;> simp

/-- A register that is none of the ten fixed ones is 0 after initialise. -/
theorem Regs.get_atReset (c : Config) (r : RegId) (h : 0x000A ≤ r.toNat) : (Regs.atReset c).get r = 0 := by
  rw [Regs.get_scroll]
  · rfl
  · rintro (h | h | h | h | h | h | h | h | h | h) <;> subst h <;> revert h <;> decide

/-- The palette step (R480 step 4) writes the palette and the fatal state only. -/
theorem State.initPalette_frame (s : State) :
    s.initPalette =
      { s with
        pal := s.initPalette.pal
        halted := s.initPalette.halted
        fatalCode := s.initPalette.fatalCode } := by
  unfold State.initPalette
  cases s.cfg.pal.kind
  · dsimp only
    unfold State.decodeStatic
    split <;> rfl
  · rfl

/-- All that `initialise` can do beside the field values: the palette and the fatal state. -/
theorem State.initialise_frame (launch : Memory) (keepMem : Bool) (s : State) :
    s.initialise launch keepMem =
      { s.initFields launch keepMem with
        pal := (s.initialise launch keepMem).pal
        halted := (s.initialise launch keepMem).halted
        fatalCode := (s.initialise launch keepMem).fatalCode } := by
  unfold State.initialise
  split
  · exact State.initPalette_frame _
  · rfl

/-- `initialise` where no step of it is fatal: the field values, and the palette decoded from memory. -/
theorem State.initialise_buildable {launch : Memory} {keepMem : Bool} {s : State} (hb : buildable s.cfg = true) :
    s.initialise launch keepMem =
      { s.initFields launch keepMem with pal := decodePalette s.cfg (s.initFields launch keepMem).mem } := by
  obtain ⟨_, h2, h3⟩ := (buildable_iff _).mp hb
  unfold State.initialise
  rw [if_pos h2]
  unfold State.initPalette
  have hc : (s.initFields launch keepMem).cfg = s.cfg := rfl
  rw [hc]
  cases hk : s.cfg.pal.kind
  · dsimp only
    unfold State.decodeStatic
    rw [hc, if_neg]
    rcases h3 with h3 | h3
    · rw [hk] at h3
      cases h3
    · omega
  · rfl

/-- A decoded palette is coherent with its bytes (40_palette.md R205). -/
theorem State.palCoherent_of_decode {t : State} (h : t.pal = decodePalette t.cfg t.mem) : t.PalCoherent := by
  intro i hi
  simp only [State.rgb, h]
  rw [getD_decodePalette, if_pos (List.mem_range.mp hi)]

/-- Palette coherence depends on the configuration, the memory and the palette only. -/
theorem State.palCoherent_congr {s s' : State} (hc : s'.cfg = s.cfg) (hm : s'.mem = s.mem) (hp : s'.pal = s.pal)
    (h : s.PalCoherent) : s'.PalCoherent := by
  intro i hi
  rw [hc] at hi
  rw [hc, hm]
  have := h i hi
  simp only [State.rgb] at this ⊢
  rw [hp]
  exact this

/-- What `State.build` can do when it builds a machine. -/
theorem State.build_eq_next {c : Config} {launch : Memory} {t : State} (h : State.build c launch = .next t) :
    c.wf = true ∧ launchOk c launch = true ∧ t = ({ State.reset with cfg := c } : State).initialise launch false := by
  unfold State.build at h
  split at h
  · next hc =>
    injection h with h
    simp only [Bool.and_eq_true] at hc
    exact ⟨hc.1, hc.2, h.symm⟩
  · cases h

/-! Save state (10_state.md R90). -/

/-- Restoring palette RAM keeps the canonical form of memory. -/
theorem Memory.wf_restorePalRam (cells : List Host.Cell) (m : Memory) (h : m.wf = true) :
    (m.restorePalRam cells).wf = true := by
  unfold Memory.restorePalRam
  induction cells generalizing m with
  | nil => exact h
  | cons e l ih => exact ih _ (Memory.wf_write m e.1 e.2 h)

/-- A byte read after palette RAM is restored from bytes that their addresses determine. -/
theorem Memory.read_restorePalRam {cells : List Host.Cell} {f : Nat → Byte} (h : ∀ e ∈ cells, e.2 = f e.1) (m : Memory)
    (a : Nat) : (m.restorePalRam cells).read a = if a ∈ cells.map Prod.fst then f a else m.read a := by
  unfold Memory.restorePalRam
  induction cells generalizing m with
  | nil => simp
  | cons e l ih =>
    rw [List.foldl_cons, ih (fun e' he' => h e' (List.mem_cons_of_mem _ he')), Memory.read_write]
    have he := h e List.mem_cons_self
    by_cases h1 : a ∈ l.map Prod.fst
    · simp [h1]
    · by_cases h2 : e.1 = a
      · subst h2
        simp [h1, he]
      · simp [h1, h2, Ne.symm h2]

/-- Memory is in the canonical form after reset. -/
theorem State.wf_reset : State.reset.mem.wf = true := rfl

end Sys2Proof.Machine
end

