-- ==== Sys2Proof/Laws/Canonical.lean ====
section
/-! SUPPORT. The canonical form of the state's maps (log 10): its parts field by field, and the operations that keep it. -/

namespace Sys2Proof.Machine

/-- The parts of `State.canonical`, field by field. -/
structure CanonicalParts (s : State) : Prop where
  memWf : s.mem.wf = true
  memWithin : s.mem.within s.cfg.memSize = true
  pendingSorted : Sparse.sorted idLt s.pending = true
  pendingWritable : ∀ e ∈ s.pending, s.cfg.writable e.1 = true
  scroll : Sparse.canonical idLt 0 s.active.scroll = true
  tilemaps : ∀ t, (s.tilemaps.get t).canonical = true
  spr : Sparse.canonical posLt SprPixel.blank s.spr = true
  pal : Sparse.canonical natLt Rgb.black s.pal = true
  fb : Sparse.canonical posLt Rgb.black s.fb = true
  completed : ∀ f, s.completed = some f → Sparse.canonical posLt Rgb.black f = true

theorem State.canonical_iff (s : State) : s.canonical = true ↔ CanonicalParts s := by
  have hq : ∀ t : TileId, t = 0 ∨ t = 1 ∨ t = 2 ∨ t = 3 := by decide
  unfold State.canonical
  simp only [Bool.and_eq_true, List.all_eq_true]
  constructor
  · rintro ⟨⟨⟨⟨⟨⟨⟨⟨⟨⟨⟨⟨h1, h2⟩, h3⟩, h4⟩, h5⟩, h6⟩, h7⟩, h8⟩, h9⟩, h10⟩, h11⟩, h12⟩, h13⟩
    refine ⟨h1, h2, h3, h4, h5, ?_, h10, h11, h12, ?_⟩
    · intro t
      rcases hq t with rfl | rfl | rfl | rfl
      · exact h6
      · exact h7
      · exact h8
      · exact h9
    · intro f hf
      rw [hf] at h13
      exact h13
  · rintro ⟨h1, h2, h3, h4, h5, h6, h7, h8, h9, h10⟩
    refine ⟨⟨⟨⟨⟨⟨⟨⟨⟨⟨⟨⟨h1, h2⟩, h3⟩, h4⟩, h5⟩, h6 0⟩, h6 1⟩, h6 2⟩, h6 3⟩, h7⟩, h8⟩, h9⟩, ?_⟩
    split
    · rfl
    · next f hf => exact h10 f hf

theorem Tilemap.canonical_iff (m : Tilemap) :
    m.canonical = true ↔
      Sparse.canonical natLt false m.dirty = true ∧ Sparse.sorted posLt m.cache = true ∧
        Sparse.canonical posLt CachePixel.zero m.layer = true := by
  simp [Tilemap.canonical, and_assoc]

theorem Tilemap.canonical_markDirty {m : Tilemap} (i : Nat) (h : m.canonical = true) : (m.markDirty i).canonical = true := by
  rw [Tilemap.canonical_iff] at h ⊢
  exact ⟨Sparse.canonical_put natLt_ordered false m.dirty i true h.1, h.2⟩

theorem Tilemap.canonical_markAll {m : Tilemap} (h : m.canonical = true) : m.markAll.canonical = true := h

theorem Tilemap.canonical_markWrite {g : TilemapCfg} {a : Nat} {m : Tilemap} (h : m.canonical = true) :
    (m.markWrite g a).canonical = true := by
  have hl : ∀ (l : List Nat) (m : Tilemap), m.canonical = true → (l.foldl (fun m i => m.markDirty i) m).canonical = true := by
    intro l
    induction l with
    | nil => exact fun m h => h
    | cons i l ih => exact fun m h => ih _ (Tilemap.canonical_markDirty i h)
  unfold Tilemap.markWrite
  dsimp only
  split
  · exact Tilemap.canonical_markAll (hl _ _ h)
  · exact hl _ _ h

theorem Tilemap.canonical_expand {n : Nat} {m : Tilemap} (h : m.canonical = true) : (m.expand n).canonical = true := by
  unfold Tilemap.expand
  split
  · rw [Tilemap.canonical_iff] at h ⊢
    exact ⟨Sparse.canonical_putAll natLt_ordered _ _ _ h.1, h.2⟩
  · exact h

theorem State.canonical_decodeVisible {s : State} {t : TileId} (k : Clip) (a : RedrawArgs) (h : (s.tm t).canonical = true) :
    (s.decodeVisible t k a).canonical = true := by
  have hl : ∀ (l : List (Nat × Nat)) (m : Tilemap), m.canonical = true →
      (l.foldl (s.decodeIfDirty t a) m).canonical = true := by
    intro l
    induction l with
    | nil => exact fun m h => h
    | cons c l ih =>
      intro m h
      refine ih _ ?_
      unfold State.decodeIfDirty
      split
      · rw [Tilemap.canonical_iff] at h ⊢
        exact ⟨Sparse.canonical_put natLt_ordered false m.dirty ((s.cfg.tm t).scanAt c.1 c.2) false h.1,
          Sparse.sorted_insertAll posLt_ordered _ _ h.2.1, h.2.2⟩
      · exact h
  exact hl _ _ (Tilemap.canonical_expand h)

theorem Tilemap.canonical_blit {c : Config} {t : TileId} {k : Clip} {a : RedrawArgs} {m : Tilemap} (h : m.canonical = true) :
    (blit c t k a m).canonical = true := by
  rw [Tilemap.canonical_iff] at h ⊢
  exact ⟨h.1, h.2.1, Sparse.canonical_putAll posLt_ordered _ _ _ h.2.2⟩

theorem CanonicalParts.setTm {s : State} (t : TileId) {v : Tilemap} (h : CanonicalParts s) (hv : v.canonical = true) :
    CanonicalParts (s.setTm t v) := by
  refine ⟨h.1, h.2, h.3, h.4, h.5, ?_, h.7, h.8, h.9, h.10⟩
  intro u
  show ((s.tilemaps.set t v).get u).canonical = true
  rw [Quad.get_set]
  split
  · exact hv
  · exact h.6 u

theorem CanonicalParts.redraw {s s' : State} {t : TileId} {k : Clip} {a : RedrawArgs} (h : CanonicalParts s)
    (he : s.redraw t k a = .next s') : CanonicalParts s' := by
  rw [State.redraw_eq_next he]
  exact h.setTm t (Tilemap.canonical_blit (State.canonical_decodeVisible k a (h.6 t)))

theorem CanonicalParts.latchWrite {s : State} (r : RegId) (d : U16) (h : CanonicalParts s) :
    CanonicalParts (s.latchWrite r d) := by
  by_cases hw : s.cfg.writable r = true
  · rw [State.latchWrite_writable d hw]
    refine ⟨h.1, h.2, Sparse.sorted_insert idLt_ordered _ _ _ h.3, ?_, h.5, h.6, h.7, h.8, h.9, h.10⟩
    intro e he
    rcases Sparse.mem_insert _ _ _ _ _ he with rfl | he
    · exact hw
    · exact h.4 e he
  · rw [State.latchWrite_ignored d (by simpa using hw)]
    exact h

theorem CanonicalParts.passBoundary {s : State} (n : U16) (h : CanonicalParts s) : CanonicalParts (s.passBoundary n) := by
  rw [State.passBoundary_eq]
  refine ⟨h.1, h.2, ?_, ?_, ?_, ?_, h.7, h.8, h.9, h.10⟩
  · dsimp only
    split
    · rfl
    · exact h.3
  · dsimp only
    split
    · simp
    · exact h.4
  · dsimp only [State.activeAfter]
    split
    · exact Regs.canonical_apply _ _ h.5
    · exact h.5
  · intro t
    dsimp only
    rw [State.tilemapsAfter_get]
    split
    · exact h.6 t
    · split
      · exact h.6 t
      · exact h.6 t

theorem CanonicalParts.writeMemory {s : State} (a : Nat) (d : Byte) (h : CanonicalParts s) :
    CanonicalParts (s.writeMemory a d) := by
  by_cases ha : a < s.cfg.memSize
  swap
  · rwa [State.writeMemory_outside d ha]
  rw [State.writeMemory_eq d ha]
  refine ⟨Memory.wf_write _ _ _ h.1, Memory.within_write _ _ _ _ ha h.2, h.3, h.4, h.5, ?_, h.7,
    canonical_paletteAfterWrite _ _ _ _ h.8, h.9, h.10⟩
  intro t
  dsimp only
  split
  · exact h.6 t
  · rw [get_mapTilemaps _ _ s.cfg.tileIds_nodup]
    split
    · exact Tilemap.canonical_markWrite (h.6 t)
    · exact h.6 t

/-- The fields without a map may change. -/
theorem CanonicalParts.of_eq {s s' : State} (h : CanonicalParts s)
    (e : s' =
      { s with
        halted := s'.halted
        fatalCode := s'.fatalCode
        refused := s'.refused
        trace := s'.trace
        stream := s'.stream
        hostDraws := s'.hostDraws
        draws := s'.draws }) : CanonicalParts s' := by
  rw [e]
  exact ⟨h.1, h.2, h.3, h.4, h.5, h.6, h.7, h.8, h.9, h.10⟩

theorem CanonicalParts.initialise {s : State} (launch : Memory) (keepMem : Bool)
    (h1 : (if keepMem then s.mem else launch).wf = true)
    (h2 : (if keepMem then s.mem else launch).within s.cfg.memSize = true) :
    CanonicalParts (s.initialise launch keepMem) := by
  have hp : Sparse.canonical natLt Rgb.black (s.initialise launch keepMem).pal = true := by
    unfold State.initialise State.initPalette State.decodeStatic
    split
    · split
      · split
        · rfl
        · exact canonical_decodePalette _ _
      · exact canonical_decodePalette _ _
    · rfl
  have hi : CanonicalParts (s.initFields launch keepMem) :=
    ⟨h1, h2, rfl, by simp [State.initFields], rfl,
      by intro t; simp [State.initFields, Tilemap.atReset, Tilemap.canonical], rfl, rfl, rfl, by simp [State.initFields]⟩
  rw [State.initialise_frame]
  exact ⟨hi.1, hi.2, hi.3, hi.4, hi.5, hi.6, hi.7, hp, hi.9, hi.10⟩

end Sys2Proof.Machine
end

