-- ==== Sys2Proof/Laws/Encoding.lean ====
section
/-! SUPPORT. Laws of the encoding, bit by bit (30_encoding.md R140, R147): a masked comparison and the value of a field as
statements about single bits, and what the decoder's search finds. -/

namespace Sys2Proof

/-- A masked comparison, bit by bit. -/
theorem Cmd.masked_iff (w m v : Cmd) : w &&& m = v ↔ ∀ i < 64, (w.getLsbD i && m.getLsbD i) = v.getLsbD i := by
  rw [BitVec.eq_of_getLsbD_eq_iff]
  simp only [BitVec.getLsbD_and]

/-- The value of a field of `n` bits from bit `k`, bit by bit. -/
theorem Cmd.field_iff {n : Nat} (w : Cmd) (k : Nat) (c : BitVec n) :
    w.extractLsb' k n = c ↔ ∀ i < n, w.getLsbD (k + i) = c.getLsbD i := by
  rw [BitVec.eq_of_getLsbD_eq_iff]
  constructor
  · intro h i hi
    have := h i hi
    simpa [BitVec.getLsbD_extractLsb', hi] using this
  · intro h i hi
    simpa [BitVec.getLsbD_extractLsb', hi] using h i hi

/-- What the decoder's search for a row finds: none, or a row of the table that the word matches. -/
theorem find_opRow (w : Cmd) :
    (opRows.find? fun r => r.matches w) = none ∨
      ∃ r ∈ opRows, (opRows.find? fun r => r.matches w) = some r ∧ w &&& r.mask = r.word := by
  cases h : opRows.find? fun r => r.matches w with
  | none => exact .inl rfl
  | some r =>
    refine .inr ⟨r, List.mem_of_find?_eq_some h, rfl, ?_⟩
    have := List.find?_some h
    simpa [OpRow.matches] using this

/-- A word that matches no row decodes to no command. -/
theorem decode_of_no_row {w : Cmd} (h : (opRows.find? fun r => r.matches w) = none) (i : Instr) : decode w ≠ .command i := by
  unfold decode
  rw [h]
  dsimp only
  cases rowOfOp w <;> simp

/-- No two rows of the table have the same OP byte. -/
theorem opRows_byte_inj : ∀ r ∈ opRows, ∀ q ∈ opRows, r.op.byte = q.op.byte → r = q := by decide

/-- The OP byte of a row's match word is its mnemonic's. -/
theorem opRows_byte : ∀ r ∈ opRows, fieldOp r.word = r.op.byte := by decide

/-- The operands of two mnemonics are never the same command. -/
theorem Op.operands_inj (o p : Op) (w : Cmd) (h : o.operands w = p.operands w) : o = p := by
  cases o <;> cases p <;> simp [Op.operands] at h <;> rfl

end Sys2Proof
end

