-- ==== Sys2Proof/Laws/PerInstr.lean ====
section
/-! SUPPORT. Statements made for every command as syntax, one lemma for each constructor of Instr. -/

namespace Sys2Proof

/-- The mnemonic of a command (30_encoding.md R146). -/
def Instr.op : Instr → Op
  | .nop => .nop
  | .wmem _ _ => .wmem
  | .wreg _ _ => .wreg
  | .rreg _ => .rreg
  | .tick => .tick
  | .getfb => .getfb
  | .reset => .reset
  | .markd _ _ => .markd
  | .marka _ => .marka
  | .redraw _ _ _ _ _ => .redraw
  | .sprites _ _ _ _ => .sprites
  | .compose _ _ _ _ => .compose
  | .lwrite _ _ => .lwrite
  | .boundary _ => .boundary

/-- The OP field of format A, format N and format R words is their first byte (30_encoding.md R141 to R143). -/
theorem fieldOp_formatA (op : BitVec 8) (t : TileId) (addr : Addr) (data : U16) : fieldOp (formatA op t addr data) = op := by
  unfold fieldOp formatA
  apply BitVec.eq_of_getLsbD_eq
  intro i hi
  simp only [BitVec.getLsbD_extractLsb', BitVec.getLsbD_append]
  interval_cases i <;> simp

theorem fieldOp_formatN (op : BitVec 8) : fieldOp (formatN op) = op := by
  unfold fieldOp formatN
  apply BitVec.eq_of_getLsbD_eq
  intro i hi
  simp only [BitVec.getLsbD_extractLsb', BitVec.getLsbD_append]
  interval_cases i <;> simp

theorem fieldOp_formatR (op : BitVec 8) (t : TileId) (x0 x1 y0 y1 : Bound) : fieldOp (formatR op t x0 x1 y0 y1) = op := by
  unfold fieldOp formatR
  apply BitVec.eq_of_getLsbD_eq
  intro i hi
  simp only [BitVec.getLsbD_extractLsb', BitVec.getLsbD_append]
  interval_cases i <;> simp

namespace Laws.EncodeOp

/-- The OP byte of a command's word is the one the opcode map gives its mnemonic (30_encoding.md R146). -/
def Statement (i : Instr) : Prop := fieldOp (encode i) = i.op.byte

theorem nop : Statement .nop := fieldOp_formatN _
theorem wmem (a : Addr) (d : Byte) : Statement (.wmem a d) := fieldOp_formatA _ _ _ _
theorem wreg (a : Addr) (d : U16) : Statement (.wreg a d) := fieldOp_formatA _ _ _ _
theorem rreg (a : Addr) : Statement (.rreg a) := fieldOp_formatA _ _ _ _
theorem tick : Statement .tick := fieldOp_formatN _
theorem getfb : Statement .getfb := fieldOp_formatN _
theorem reset : Statement .reset := fieldOp_formatN _
theorem markd (t : TileId) (i : Addr) : Statement (.markd t i) := fieldOp_formatA _ _ _ _
theorem marka (t : TileId) : Statement (.marka t) := fieldOp_formatA _ _ _ _
theorem redraw (t : TileId) (x0 x1 y0 y1 : Bound) : Statement (.redraw t x0 x1 y0 y1) := fieldOp_formatR _ _ _ _ _ _
theorem sprites (x0 x1 y0 y1 : Bound) : Statement (.sprites x0 x1 y0 y1) := fieldOp_formatR _ _ _ _ _ _
theorem compose (x0 x1 y0 y1 : Bound) : Statement (.compose x0 x1 y0 y1) := fieldOp_formatR _ _ _ _ _ _
theorem lwrite (r : RegId) (d : U16) : Statement (.lwrite r d) := fieldOp_formatA _ _ _ _
theorem boundary (n : U16) : Statement (.boundary n) := fieldOp_formatA _ _ _ _

end Laws.EncodeOp

end Sys2Proof
end

