-- ==== Sys2Proof/Laws/Sprites.lean ====
section
/-! SUPPORT. Laws of the sprite compositor (42_sprites.md R289): which pixels a copy of a sprite writes. -/

namespace Sys2Proof

/-- The last write to a key is the one the map holds. -/
theorem Sparse.find_reverse_split {κ α : Type} [DecidableEq κ] {writes before later : List (κ × α)} {p : κ} {v : α}
    (h : writes = before ++ (p, v) :: later) (hl : ∀ e ∈ later, e.1 ≠ p) : Sparse.find writes.reverse p = some v := by
  subst h
  rw [List.reverse_append, List.reverse_cons, Sparse.find_append, Sparse.find_append]
  have : Sparse.find later.reverse p = none := by
    rw [Sparse.find_eq_none]
    intro e he
    exact hl e (List.mem_reverse.mp he)
  simp [this]

namespace Machine

/-- The shifts of the wrap copies. -/
theorem mem_wrapShifts (enabled : Bool) (k : Int) : k ∈ wrapShifts enabled ↔ k = 0 ∨ (enabled = true ∧ (k = -1 ∨ k = 1)) := by
  cases enabled <;> simp [wrapShifts]
  omega

/-- Signed coordinates that meet the clip are those of a clip pixel. -/
theorem clipPixel_eq_some (c : Config) (k : Clip) (y x : Int) (p : Nat × Nat) :
    clipPixel c k y x = some p ↔ k.contains c p = true ∧ y = p.1 ∧ x = p.2 := by
  unfold clipPixel
  obtain ⟨a, b⟩ := p
  split
  · next h =>
    simp only [Option.some.injEq, Prod.mk.injEq]
    constructor
    · rintro ⟨rfl, rfl⟩
      exact ⟨h.2.2, by omega, by omega⟩
    · rintro ⟨_, h2, h3⟩
      omega
  · next h =>
    simp only [reduceCtorEq, false_iff]
    rintro ⟨h1, rfl, rfl⟩
    apply h
    simpa using h1

/-- The pixels that one copy of a sprite writes. -/
theorem mem_copyWrites {c : Config} {g : Regs} {k : Clip} {r : SpriteRecord} {fx fy : Bool} {ox oy : Int} {p : Nat × Nat}
    {v : SprPixel} :
    (p, v) ∈ copyWrites c g k r fx fy ox oy ↔
      k.contains c p = true ∧ ∃ i j : Nat, i < (sizeOf c r).1 ∧ j < (sizeOf c r).2 ∧
        (p.2 : Int) = ox + i ∧ (p.1 : Int) = oy + j ∧
        plotValue c g r (sprPix c r (flipIndex (xor r.flipX fx) (sizeOf c r).1 i)
          (flipIndex (xor r.flipY fy) (sizeOf c r).2 j)) = some v := by
  simp only [copyWrites, List.mem_flatMap, List.mem_filterMap, List.mem_range]
  constructor
  · rintro ⟨j, hj, i, hi, h⟩
    split at h
    · cases h
    · next q hq =>
      rw [clipPixel_eq_some] at hq
      simp only [Option.map_eq_some_iff, Prod.mk.injEq] at h
      obtain ⟨v', hv, rfl, rfl⟩ := h
      exact ⟨hq.1, i, j, hi, hj, hq.2.2.symm, hq.2.1.symm, hv⟩
  · rintro ⟨hp, i, j, hi, hj, hx, hy, hv⟩
    refine ⟨j, hj, i, hi, ?_⟩
    rw [(clipPixel_eq_some c k _ _ p).mpr ⟨hp, hy.symm, hx.symm⟩]
    simp [hv]

/-- The order of the copies of a sprite: ky first, then kx (R289). -/
def copyLt (a b : Int × Int) : Prop := a.1 < b.1 ∨ (b.1 = a.1 ∧ a.2 < b.2)

/-- The shifts (ky, kx) of the copies, in drawing order. -/
def copyShifts (c : Config) : List (Int × Int) :=
  (wrapShifts c.spr.wrapY).flatMap fun ky => (wrapShifts c.spr.wrapX).map fun kx => (ky, kx)

theorem mem_copyShifts (c : Config) (q : Int × Int) :
    q ∈ copyShifts c ↔ q.1 ∈ wrapShifts c.spr.wrapY ∧ q.2 ∈ wrapShifts c.spr.wrapX := by
  obtain ⟨ky, kx⟩ := q
  simp [copyShifts]

theorem copyShifts_sorted (c : Config) : (copyShifts c).Pairwise copyLt := by
  unfold copyShifts copyLt
  cases c.spr.wrapY <;> cases c.spr.wrapX <;> decide

/-- A list in strict order, cut at one of its elements: the smaller ones come before it and the greater ones after it. -/
theorem pairwise_cut {α : Type} {lt : α → α → Prop} {l : List α} (hs : l.Pairwise lt) (hirr : ∀ a, ¬ lt a a)
    (hasymm : ∀ a b, lt a b → ¬ lt b a) {x : α} (hx : x ∈ l) :
    ∃ before later, l = before ++ x :: later ∧ (∀ a, a ∈ before ↔ a ∈ l ∧ lt a x) ∧
      ∀ a, a ∈ later ↔ a ∈ l ∧ lt x a := by
  obtain ⟨before, later, rfl⟩ := List.append_of_mem hx
  rw [List.pairwise_append, List.pairwise_cons] at hs
  obtain ⟨_, ⟨hxl, _⟩, hbx⟩ := hs
  refine ⟨before, later, rfl, fun a => ⟨fun ha => ⟨by simp [ha], hbx a ha x List.mem_cons_self⟩, ?_⟩,
    fun a => ⟨fun ha => ⟨by simp [ha], hxl a ha⟩, ?_⟩⟩
  · rintro ⟨ha, hlt⟩
    rw [List.mem_append, List.mem_cons] at ha
    rcases ha with ha | rfl | ha
    · exact ha
    · exact absurd hlt (hirr _)
    · exact absurd (hxl a ha) (hasymm _ _ hlt)
  · rintro ⟨ha, hlt⟩
    rw [List.mem_append, List.mem_cons] at ha
    rcases ha with ha | rfl | ha
    · exact absurd (hbx a ha x List.mem_cons_self) (hasymm _ _ hlt)
    · exact absurd hlt (hirr _)
    · exact ha

/-- What the copy with shifts q = (ky, kx) writes (R289). -/
def shiftedWrites (c : Config) (g : Regs) (k : Clip) (fx fy : Bool) (r : SpriteRecord) (q : Int × Int) :
    List ((Nat × Nat) × SprPixel) :=
  copyWrites c g k r fx fy ((position c r fx fy).1 + q.2 * (c.spr.wrapW : Int))
    ((position c r fx fy).2 + q.1 * (c.spr.wrapH : Int))

/-- A sprite writes the pixels of its copies, copy after copy (R289). -/
theorem drawOne_eq (c : Config) (g : Regs) (k : Clip) (fx fy : Bool) (r : SpriteRecord) :
    drawOne c g k fx fy r = (copyShifts c).flatMap (shiftedWrites c g k fx fy r) := by
  simp only [drawOne, copyShifts, List.flatMap_assoc, List.flatMap_map, shiftedWrites]

/-- The pixels of a sprite, cut at one of its copies. -/
theorem drawOne_cut (c : Config) (g : Regs) (k : Clip) (fx fy : Bool) (r : SpriteRecord) {q : Int × Int}
    (hq : q ∈ copyShifts c) :
    ∃ before later, drawOne c g k fx fy r = before ++ shiftedWrites c g k fx fy r q ++ later ∧
      (∀ e, e ∈ before ↔ ∃ a ∈ copyShifts c, copyLt a q ∧ e ∈ shiftedWrites c g k fx fy r a) ∧
      ∀ e, e ∈ later ↔ ∃ a ∈ copyShifts c, copyLt q a ∧ e ∈ shiftedWrites c g k fx fy r a := by
  obtain ⟨before, later, hl, hb, ha⟩ := pairwise_cut (copyShifts_sorted c)
    (by rintro ⟨a, b⟩; simp only [copyLt]; omega) (by rintro ⟨a, b⟩ ⟨d, e⟩; simp only [copyLt]; omega) hq
  refine ⟨before.flatMap (shiftedWrites c g k fx fy r), later.flatMap (shiftedWrites c g k fx fy r), ?_, ?_, ?_⟩
  · rw [drawOne_eq, hl, List.flatMap_append, List.flatMap_cons, List.append_assoc]
  · intro e
    simp only [List.mem_flatMap, hb, and_assoc]
  · intro e
    simp only [List.mem_flatMap, ha, and_assoc]

/-! The fields of a record (R282). -/

/-- A further segment of a field is less significant than those before it. -/
theorem spriteField_append (c : Config) (m : Memory) (j absent : Nat) (segs : List Seg) (g : Seg) :
    spriteField c m j (some (segs ++ [g])) absent =
      spriteField c m j (some segs) absent * 2 ^ (g.hi + 1 - g.lo) +
        bitsOf (m.read (c.spr.base + j * c.spr.stride + g.byte)) g.hi g.lo := by
  simp only [spriteField, List.foldl_append, List.foldl_cons, List.foldl_nil]

end Machine

end Sys2Proof
end

