-- ==== Sys2Proof/Tests/Slice0.lean ====
section
/-! SUPPORT. Tests. Part 1: decoding of words written out from 30_encoding.md R141 to R147. Part 2: an ill-formed term for
each check of WellFormed. Part 3: one-step vectors of 95_test_vectors.md, at most two for each command. Part 4: for each
obligation with hypotheses, a concrete state that meets them. -/

namespace Sys2Proof.Tests

open Sys2Proof Sys2Proof.Machine

/-- The next state of an outcome, if it is one. -/
def nextOf : Out → Option State
  | .next s => some s
  | .fault _ => none
  | .refused _ => none

/-- What is read of the state after a command, none where the command stops. -/
def after {α : Type} (i : Instr) (s : State) (f : State → α) : Option α := (nextOf (exec i s)).map f

/-- The command stops with no fault and no refusal. -/
theorem next_of_isSome {o : Out} (h : (nextOf o).isSome = true) : ∃ t, o = .next t := by
  cases o with
  | next s => exact ⟨s, rfl⟩
  | fault r => cases h
  | refused r => cases h

/-- The state after reset with some bytes of memory set. -/
def withMem (m : Memory) : State := { State.reset with mem := m }

/-- The bytes 0 to 15 of set-up A (95_test_vectors.md 3.3): byte i holds i mod 4. -/
def setUpA : Memory :=
  [(1, 1), (2, 2), (3, 3), (5, 1), (6, 2), (7, 3), (9, 1), (10, 2), (11, 3), (13, 1), (14, 2), (15, 3)]

/-- The machine after reset with its cache empty and no tile dirty: marks are seen alone. -/
def unmarked : State := { State.reset with tilemaps := Quad.all ⟨[], false, [], []⟩ }

/-! ## Part 1: decoding (95_test_vectors.md 3.1, 30_encoding.md R172) -/

theorem test_decode_nop : decode 0x0000000000000000 = .command .nop := by decide
theorem test_decode_wmem : decode 0x0100000005000002 = .command (.wmem 0x05 0x02) := by decide
theorem test_decode_wmem_high_address : decode 0x0101000005000002 = .command (.wmem 0x1000005 0x02) := by decide
theorem test_decode_wreg : decode 0x02000000030000FF = .command (.wreg 3 0x00FF) := by decide
theorem test_decode_rreg : decode 0x0300000010000000 = .command (.rreg 0x10) := by decide
theorem test_decode_tick : decode 0x0400000000000000 = .command .tick := by decide
theorem test_decode_getfb : decode 0x0500000000000000 = .command .getfb := by decide
theorem test_decode_reset : decode 0x0600000000000000 = .command .reset := by decide
theorem test_decode_markd : decode 0x1000000005000000 = .command (.markd 0 5) := by decide
theorem test_decode_marka : decode 0x1140000000000000 = .command (.marka 1) := by decide
theorem test_decode_redraw : decode 0x12400000FF010010 = .command (.redraw 1 0 255 16 16) := by decide
theorem test_decode_sprites : decode 0x1300000007000007 = .command (.sprites 0 7 0 7) := by decide
theorem test_decode_compose : decode 0x1400000007000007 = .command (.compose 0 7 0 7) := by decide
theorem test_decode_lwrite : decode 0x150000100000000A = .command (.lwrite 0x1000 10) := by decide
theorem test_decode_boundary : decode 0x1600000032000000 = .command (.boundary 50) := by decide

theorem test_decode_must_be_zero :
    decode 0x0000000000000001 = .illegal (.mustBeZero .nop) ∧ decode 0x0100000005000102 = .illegal (.mustBeZero .wmem) ∧
    decode 0x0140000005000002 = .illegal (.mustBeZero .wmem) ∧ decode 0x0300000010000001 = .illegal (.mustBeZero .rreg) ∧
    decode 0x0400000000000001 = .illegal (.mustBeZero .tick) ∧
    decode 0x1301000000000000 = .illegal (.mustBeZero .sprites) ∧
    decode 0x1500010000000000 = .illegal (.mustBeZero .lwrite) ∧
    decode 0x1600000032000001 = .illegal (.mustBeZero .boundary) := by decide

theorem test_decode_reserved :
    decode 0x0700000000000000 = .illegal (.reservedOpcode 0x07) ∧
    decode 0x1700000000000000 = .illegal (.reservedOpcode 0x17) ∧
    decode 0xFF00000000000000 = .illegal (.reservedOpcode 0xFF) := by decide

theorem test_decodeTableWord :
    decodeTableWord 64 0x1600000032000000 = some (.boundary 50) ∧ decodeTableWord 64 0x0700000000000000 = none := by decide

/-- A word of the opcode table is the next one that a step runs. -/
theorem test_withFetchWord :
    (nextOf (step (State.reset.withFetchWord 64 0x0300000010000000))).map State.trace = some [.readData 9] := by
  decide

/-! ## Part 2: well-formedness -/

/-- For each check of 70_reset_and_hazards.md R481 step 1, a configuration that it refuses. -/
def illFormed : List (ConfigCheck × Config) :=
  let tile (g : TilemapCfg) : Config := { tc with tilemaps := { tc.tilemaps with t0 := g } }
  let pal (p : PalCfg) : Config := { tc with pal := p }
  let spr (s : SprCfg) : Config := { tc with spr := s }
  [(.ntRange, { tc with nt := 5 }),
   (.memSizeRange, { tc with memSize := 2 ^ 30 + 1 }),
   (.fbRange, { tc with fbW := 4097 }),
   (.pixelClockPositive, { tc with pixelClock := 0 }),
   (.totalsPositive, { tc with vtotalRst := 0 }),
   (.gridRange, tile { tcTilemap with rows := 0 }),
   (.tileRange, tile { tcTilemap with tileW := 16385 }),
   (.scanBijective, tile { tcTilemap with scan := .var 0 }),
   (.backingInMemory, tile { tcTilemap with backing := [⟨241, 1⟩] }),
   (.charRamInMemory, tile { tcTilemap with gfxSrc := .charRam 0xA0 0x100 }),
   (.numCodesPositive, tile { tcTilemap with numCodes := 0 }),
   (.tileBppRange, tile { tcTilemap with bpp := 9 }),
   (.gfxPixelDefined, tile { tcTilemap with numCodes := 5 }),
   (.blankTileRange, tile { tcTilemap with blank := .lit 4 }),
   (.tilePenBaseRange, tile { tcTilemap with penBase := 16 }),
   (.scrollCountRange, tile { tcTilemap with scrollNX := 1025 }),
   (.rowscrollGroupPositive, tile { tcTilemap with rowscrollGroup := 0 }),
   (.palBanksPositive, pal { tcPal with numBanks := 0 }),
   (.palEntriesRange, pal { tcPal with numBanks := 4097 }),
   (.palBytesRange, pal { tcPal with bytes := 5 }),
   (.palOffsetsInjective, pal { tcPal with entryStride := 0 }),
   (.chTableRange, pal { tcPal with chR := [⟨0, 8, 1⟩] }),
   (.promLenPositive, pal { tcPal with promLenMin := 0 }),
   (.palOffsetsInside, pal { tcPal with ramBase := 225 }),
   (.sprRecordsInMemory, spr { tcSpr with base := 249 }),
   (.sprSegmentsRange, spr { tcSpr with stride := 3 }),
   (.sprSeqRange, spr { tcSpr with seq := .listed [⟨.lit 1, 2⟩] }),
   (.sizesAreCells, spr { tcSpr with sizes := [(3, 2)] }),
   (.cellPositive, spr { tcSpr with cellW := 0 }),
   (.sprCodesPositive, spr { tcSpr with codes := 0 }),
   (.sprBppRange, spr { tcSpr with bpp := 0 }),
   (.sgfxPixelDefined, spr { tcSpr with codes := 9 }),
   (.sprTpenRange, spr { tcSpr with tpen := 4 }),
   (.maskPenDistinct, spr { tcSpr with maskPen := some 0 }),
   (.sprPenBaseRange, spr { tcSpr with penBase := 16 }),
   (.wrapPositive, spr { tcSpr with wrapH := 0 }),
   (.flipPositive, spr { tcSpr with flipW := 0 }),
   (.slotsNonempty, { tc with slots := [] }),
   (.slotsNameTilemaps, { tc with slots := [.tile 1 .any] }),
   (.bgPenRange, { tc with bgPen := 16 })]

theorem test_each_config_check_refuses :
    illFormed.map Prod.fst = ConfigCheck.list ∧ ∀ e ∈ illFormed, e.1.holds e.2 = false := by decide

/-- A palette RAM whose entries run downwards is well-formed, down to address 0 and no further (00_scope.md R11, R14). -/
theorem test_palette_may_run_downwards :
    let pal (base : Nat) : Config := { tc with pal := { tcPal with ramBase := base, entryStride := -1 } }
    (pal 31).wf = true ∧ (pal 31).pal.ramAddr 31 0 = 0 ∧ (pal 31).pal.entryAt 26 = some 5 ∧ (pal 30).wf = false := by decide

theorem test_tc_and_variants_are_wellFormed : tc.wf = true ∧ tcF.wf = true := by decide

/-- Every refusal by value of 30_encoding.md R160 (b) and (c), at its boundary. -/
theorem test_illegal_by_value :
    (Instr.markd 0 15).legal tc = true ∧ (Instr.markd 0 16).legal tc = false ∧ (Instr.markd 1 0).legal tc = false ∧
    (Instr.marka 0).legal tc = true ∧ (Instr.marka 1).legal tc = false ∧
    (Instr.redraw 0 0 0 0 0).legal tc = true ∧ (Instr.redraw 1 0 0 0 0).legal tc = false := by decide

/-! ## Part 3: vectors of 95_test_vectors.md -/

/-- 3.8: building TC gives the state after reset. -/
theorem build_tc : State.build tc [] = .next State.reset := by
  have h1 : (tc.wf && launchOk tc []) = true := by decide
  have h2 : ({ State.reset with cfg := tc } : State).initialise [] false = State.reset := by decide
  unfold State.build
  rw [h1, h2]
  rfl

/-- A PROM of 256 bytes (3.8). -/
def prom256 : List Byte := [0x07, 0x38, 0xC0] ++ List.replicate 253 0

/-- What 3.8 lists of a machine built with a zero launch memory: `halted`, `fatal_code` and palette entries 0 to 3. -/
def built (c : Config) : Option (Bool × Option Byte × List Rgb) :=
  (nextOf (State.build c [])).map fun s => (s.halted, s.fatalCode, (List.range 4).map s.rgb)

theorem test_build_static :
    built (tcP prom256) = some (false, none, [⟨255, 0, 0⟩, ⟨0, 255, 0⟩, ⟨0, 0, 255⟩, ⟨0, 0, 0⟩]) ∧
    (built (tcP (prom256.take 255))).map (fun r => (r.1, r.2.1)) = some (true, some 1) := by decide +kernel

theorem test_build_missing_region :
    (built { tc with regions := [(regionSprites, tcSpriteRom)] }).map (fun r => (r.1, r.2.1)) = some (true, some 2) ∧
    built { tc with slots := [.tile 1 .any] } = none := by decide

/-- 3.2: entry_rgb with TC's tables. -/
theorem test_entryRgb :
    entryRgb tcPal [0x07] = ⟨255, 0, 0⟩ ∧ entryRgb tcPal [0x05] = ⟨184, 0, 0⟩ ∧ entryRgb tcPal [0x92] = ⟨71, 71, 174⟩ := by
  decide

/-- 3.2: the clamp. -/
theorem test_entryRgb_clamps :
    (entryRgb { tcPal with chR := [⟨0, 0, -0x30⟩, ⟨0, 1, 0x21⟩] } [0x03]).r = 0 ∧
    (entryRgb { tcPal with chR := [⟨0, 0, 0xC8⟩, ⟨0, 1, 0xC8⟩] } [0x03]).r = 255 := by decide

/-- 3.2: pens, with a bank number past the last bank and a colour past the end of the bank. -/
theorem test_penOf :
    penOf tc { Regs.atReset tc with paletteBank := 3 } 0 0 2 1 = 17 ∧
    penOf tc { Regs.atReset tc with paletteBank := 1 } 8 3 2 3 = 23 := by decide

theorem test_nop : after .nop State.reset id = some State.reset := by decide

/-- 3.9. -/
theorem test_wmem_marks :
    after (.wmem 0x15 0x10) unmarked (fun s => (s.mem, (s.tm 0).dirty, (s.tm 0).allDirty)) =
      some ([(0x15, 0x10)], [(5, true)], false) := by decide

theorem test_wmem_palette :
    after (.wmem 0x81 0x07) unmarked (fun s => (s.pal, (s.tm 0).dirty)) = some ([(1, ⟨255, 0, 0⟩)], []) := by decide

theorem test_wreg :
    after (.wreg 0x3 2) State.reset (fun s => (s.pending, s.active.irqLine, s.irqArmed)) = some ([(3, 2)], 0, false) := by
  decide

theorem test_wreg_without_effect :
    after (.wreg 0x10000 5) State.reset id = some State.reset ∧ after (.wreg 0x10 5) State.reset id = some State.reset := by
  decide

theorem test_rreg_scanline : after (.rreg 0x10) State.reset State.trace = some [.readData 9] := by decide

theorem test_rreg_draw :
    after (.rreg 0x11) { State.reset with hostDraws := [0x1234] } (fun s => (s.trace, s.hostDraws)) =
      some ([.readData 0x1234], []) := by decide

/-- 3.9: the first tick starts line 0 and decodes tile row 0. -/
theorem test_tick :
    after .tick State.reset (fun s => (s.counter, s.frameCount, s.trace)) = some (0, 1, [.partialRedraw 0]) ∧
    after .tick State.reset (fun s => ((s.tm 0).allDirty, (s.tm 0).dirty.map Prod.fst)) =
      some (false, [4, 5, 6, 7, 8, 9, 10, 11, 12, 13, 14, 15]) := by decide

/-- 3.6: the raster interrupt comes before PartialRedraw, and the last visible line completes the frame. -/
theorem test_tick_events :
    after .tick { State.reset with counter := 6, pending := [(3, 7)] } (fun s => (s.trace, s.completed)) =
      some ([.interrupt .raster 0x11, .partialRedraw 7, .interrupt .vblank 0x10], some []) := by decide

theorem test_getfb : after .getfb State.reset State.trace = some [.frame none] := by decide

/-- R407: RESET keeps memory and trace, discards pending writes and decodes the palette again. -/
theorem test_reset :
    let s := { withMem [(5, 2), (0x81, 7)] with pending := [(3, 2)], counter := 0, trace := [.readData 1] }
    after .reset s (fun t => (t.pending, t.counter)) = some ([], 9) ∧
    after .reset s (fun t => (t.mem, t.trace, t.pal)) =
      some ([(5, 2), (0x81, 7)], [.readData 1], [(1, ⟨255, 0, 0⟩)]) := by decide

theorem test_markd : after (.markd 0 5) unmarked (fun s => (s.tm 0).dirty) = some [(5, true)] := by decide
theorem test_marka : after (.marka 0) unmarked (fun s => ((s.tm 0).dirty, (s.tm 0).allDirty)) = some ([], true) := by
  decide

/-- The pixel values of row 0 of the layer, 0 where the pixel is transparent (3.3). -/
def row0 (s : State) : List Nat :=
  (List.range 8).map fun x => if (s.layerAt 0 (0, x)).opaq then (s.layerAt 0 (0, x)).pen.toNat else 0

/-- 3.3: cell 1 has its own flip_x under the global FLIP_X. -/
theorem test_redraw_double_flip :
    after (.redraw 0 0 7 0 0)
      { withMem (setUpA ++ [(0x11, 0x10)]) with active := { Regs.atReset tc with modeFlags := 1 } } row0 =
      some [1, 0, 3, 3, 1, 2, 0, 0] := by decide

/-- 3.3: scroll x = 1. -/
theorem test_redraw_scroll :
    after (.redraw 0 0 7 0 0) { withMem setUpA with active := { Regs.atReset tc with scroll := [(0x1000, 1)] } } row0 =
      some [0, 1, 2, 3, 3, 0, 1, 0] := by decide

/-- 3.4: the corner wrap, as ((y, x), pixel). -/
theorem test_sprites_wrap :
    after (.sprites 0 7 0 7) (withMem [(0x40, 7), (0x41, 7), (0x42, 2), (0x43, 0x80)]) State.spr =
      some [((0, 0), .pix 10 0), ((0, 7), .pix 10 0), ((7, 0), .pix 10 0), ((7, 7), .pix 10 0)] := by decide

/-- 3.4: the mask pen. -/
theorem test_sprites_mask :
    after (.sprites 0 7 0 7) (withMem [(0x42, 3), (0x43, 0x80)]) State.spr =
      some [((0, 0), .mask 0), ((0, 1), .mask 0)] := by decide

/-- A machine whose pixel (0, 0) has a layer and a sprite pixel, with the pens 5 and 9 in two colours (3.7). -/
def onePixel (tilePixel : CachePixel) (sprite : SprPixel) : State :=
  { State.reset with
    tilemaps := Quad.all ⟨[], false, [], [((0, 0), tilePixel)]⟩
    spr := [((0, 0), sprite)]
    pal := [(5, ⟨5, 5, 5⟩), (9, ⟨9, 9, 9⟩)]
    fb := [((0, 0), ⟨1, 2, 3⟩)] }

/-- 3.7: a sprite above a BACK tile, and a FRONT tile above the sprite. -/
theorem test_compose_priority :
    after (.compose 0 0 0 0) (onePixel ⟨5, true, false⟩ (.pix 9 0)) (fun s => s.fbAt (0, 0)) = some ⟨9, 9, 9⟩ ∧
    after (.compose 0 0 0 0) (onePixel ⟨5, true, true⟩ (.pix 9 0)) (fun s => s.fbAt (0, 0)) = some ⟨5, 5, 5⟩ := by
  decide

/-- 3.7: a mask keeps the prior pixel, and a FRONT tile hides it. -/
theorem test_compose_mask :
    after (.compose 0 0 0 0) (onePixel ⟨5, true, false⟩ (.mask 0)) (fun s => s.fbAt (0, 0)) = some ⟨1, 2, 3⟩ ∧
    after (.compose 0 0 0 0) (onePixel ⟨5, true, true⟩ (.mask 0)) (fun s => s.fbAt (0, 0)) = some ⟨5, 5, 5⟩ := by
  decide

theorem test_lwrite :
    after (.lwrite 0x1000 20) { State.reset with pending := [(0x1000, 10)] } State.pending = some [(0x1000, 20)] ∧
    after (.lwrite 0x1008 1) State.reset id = some State.reset := by decide

/-- 3.5: an IRQ_LINE applied at its own boundary fires there. -/
theorem test_boundary_fires :
    after (.boundary 1) { State.reset with lastBoundary := some 0, pending := [(3, 1)] }
      (fun s => (s.latchIrq, s.irqArmed, s.lastBoundary)) = some (true, false, some 1) := by decide

/-- 3.5: after boundary 9, boundary 1 is out of order and boundary 0 wraps. -/
theorem test_boundary_order :
    after (.boundary 1) { State.reset with lastBoundary := some 9 } (fun s => (s.halted, s.fatalCode)) = some (true, some 3) ∧
    after (.boundary 0) { State.reset with lastBoundary := some 9 } (fun s => (s.halted, s.fatalCode)) = some (false, none) := by
  decide

/-- 3.7: OVERLAY_XS with TC's seed. -/
theorem test_overlayXs :
    overlayXs 0x12345678 1 3 5 = some 5 ∧ overlayXs 0x12345678 1 0 0 = none ∧ xs32 1 = 0x00042021 := by decide

/-- 3.3: a CHARRAM write marks every tile when the byte changes. -/
def charRamCfg : Config := { tc with tilemaps := Quad.all { tcTilemap with gfxSrc := .charRam 0xA0 0xBF } }

theorem test_wmem_charRam :
    after (.wmem 0xBF 1) { unmarked with cfg := charRamCfg } (fun s => (s.tm 0).allDirty) = some true ∧
    after (.wmem 0xBF 0) { unmarked with cfg := charRamCfg } (fun s => (s.tm 0).allDirty) = some false := by decide

/-- 3.9: an illegal word is refused. -/
theorem test_refused :
    (nextOf (step { State.reset with stream := [0x0700000000000000] })).map (fun s => (s.refused, s.halted)) =
      some (true, false) := by decide

/-! ## Part 4: a state that meets the hypotheses of each obligation, and each of its clauses at a boundary value -/

/-- The machine after the fatal halt. -/
def haltedState : State := { State.reset with halted := true, fatalCode := some 3 }

/-- The machine after reset in PER_FRAME mode (TC-F). -/
def perFrame : State := { State.reset with cfg := tcF }

/-- The machine after boundary 9, the last line of TC. -/
def afterNine : State := { State.reset with lastBoundary := some 9 }

theorem inOrder_of {s : State} {n : U16} (h : s.boundaryInOrder n = true) : s.InOrder n := (s.boundaryInOrder_iff n).mp h

theorem not_inOrder_of {s : State} {n : U16} (h : s.boundaryInOrder n = false) : ¬ s.InOrder n := fun hi => by
  rw [(s.boundaryInOrder_iff n).mpr hi] at h
  cases h

theorem test_witness_O1 :
    ({ State.reset with stream := [0x0400000000000000] } : State).stream = 0x0400000000000000 :: [] ∧
    decode 0x0400000000000000 = .command .tick ∧ State.reset.stream = [] := by decide

/-- The three cases of R160, each at its boundary, and the last word that is none of them. -/
theorem test_witness_O2 :
    illegalWord tc 0x0700000000000000 ∧ illegalWord tc 0x1140000000000000 ∧ illegalWord tc 0x1000000010000000 ∧
    ¬ illegalWord tc 0x100000000F000000 := by decide

theorem test_witness_O4 : decode 0x0101000005000002 = .command (.wmem 0x1000005 0x02) := by decide

theorem test_witness_O5 : ∀ r ∈ opRows, r.word &&& r.mask = r.word := by decide

theorem test_witness_O7 :
    (fieldOp 0x0700000000000000).toNat = 7 ∧ (fieldOp 0x0F00000000000000).toNat = 0x0F ∧
    (fieldOp 0x1700000000000000).toNat = 0x17 ∧ (fieldOp 0xFF00000000000000).toNat = 0xFF := by decide

theorem test_witness_O9_O10 : haltedState.halted = true ∧ Instr.tick.legal haltedState.cfg = true := by decide

theorem test_witness_O11 : fieldOp 0x0000000000000001 = 0x00 ∧ (0x0000000000000001 : Cmd) ≠ 0 := by decide

theorem test_witness_O12_O13 :
    State.reset.halted = false ∧ (0 : Addr).toNat < State.reset.cfg.memSize ∧ (0xFF : Addr).toNat < State.reset.cfg.memSize ∧
    State.reset.cfg.memSize ≤ (0x100 : Addr).toNat := by decide

/-- The last backing byte, with a new value and with the old one. -/
theorem test_witness_O14 :
    unmarked.cfg.wf = true ∧ unmarked.halted = false ∧ (0x1F : Addr).toNat < unmarked.cfg.memSize ∧
    (0 : TileId).toNat < unmarked.cfg.nt ∧ 15 < (unmarked.cfg.tm 0).nTiles ∧ 0x1F ∈ (unmarked.cfg.tm 0).backingAddrs 15 ∧
    (1 : Byte) ≠ unmarked.mem.read 0x1F ∧ (0 : Byte) = unmarked.mem.read 0x1F := by decide

/-- The first and the last byte of palette RAM. -/
theorem test_witness_O15_inside :
    State.reset.cfg.wf = true ∧ State.reset.halted = false ∧ tcPal.kind = .dynamicRam ∧ 31 < tcPal.entries ∧ 0 < tcPal.bytes ∧
    ((0x80 : Addr).toNat : Int) = (tcPal.ramBase : Int) + (((0 : Nat) : Int) * tcPal.entryStride + ((0 : Nat) : Int) * tcPal.planeStride) ∧
    ((0x9F : Addr).toNat : Int) = (tcPal.ramBase : Int) + (((31 : Nat) : Int) * tcPal.entryStride + ((0 : Nat) : Int) * tcPal.planeStride) := by
  decide

theorem test_witness_O15_static :
    let c : Config := tcP prom256
    c.wf = true ∧ c.pal.kind = .staticProm ∧ c.region c.pal.promRegion = some prom256 ∧ c.pal.promLenMin ≤ prom256.length := by
  decide +kernel

/-- The bytes on both sides of palette RAM are bytes of no entry. -/
theorem test_witness_O15_outside (i k : Nat) (hi : i < tcPal.entries) :
    ((0x7F : Addr).toNat : Int) ≠ (tcPal.ramBase : Int) + ((i : Int) * tcPal.entryStride + (k : Int) * tcPal.planeStride) ∧
    ((0xA0 : Addr).toNat : Int) ≠ (tcPal.ramBase : Int) + ((i : Int) * tcPal.entryStride + (k : Int) * tcPal.planeStride) := by
  have he : tcPal.entries = 32 := rfl
  have hb : tcPal.ramBase = 128 := rfl
  have hs : tcPal.entryStride = 1 := rfl
  have hp : tcPal.planeStride = 0 := rfl
  have h1 : (0x7F : Addr).toNat = 127 := rfl
  have h2 : (0xA0 : Addr).toNat = 160 := rfl
  rw [hs, hp, hb, h1, h2]
  omega

theorem test_witness_O16_O17_O18 :
    tc.regDecodeAt 0x10000 = none ∧ tc.regDecodeAt 0x10 = some 0x0010 ∧ tc.writable 0x0010 = false ∧
    tc.regDecodeAt 9 = some 9 ∧ tc.writable 9 = true ∧ tc.regDecodeAt 0x11 ≠ some 0x0010 ∧ State.reset.hostDraws = [] ∧
    ({ State.reset with hostDraws := [7] } : State).hostDraws = 7 :: [] ∧ State.reset.halted = false := by decide

theorem test_witness_O19_O20 : State.reset.halted = false ∧ buildable State.reset.cfg = true := by decide

theorem test_witness_O21_rejected : ¬ (({ tc with slots := [] } : Config).wf = true) := by decide

theorem test_witness_O21_missing :
    let c : Config := { tc with regions := [(regionSprites, tcSpriteRom)] }
    (c.wf = true ∧ launchOk c [] = true) ∧ ∃ g ∈ c.namedRegions, c.region g = none := by decide

theorem test_witness_O21_prom :
    let c : Config := tcP (prom256.take 255)
    (c.wf = true ∧ launchOk c [] = true) ∧ (∀ g ∈ c.namedRegions, c.region g ≠ none) ∧ c.pal.kind = .staticProm ∧
      c.prom.length < c.pal.promLenMin ∧
      ¬ ((tcP prom256).pal.kind = .staticProm ∧ (tcP prom256).prom.length < (tcP prom256).pal.promLenMin) := by
  decide +kernel

theorem test_witness_O22 :
    State.build tc [] = .next State.reset ∧ buildable tc = true ∧ ∃ t, exec .reset State.reset = .next t :=
  ⟨build_tc, by decide, next_of_isSome (by decide)⟩

theorem test_witness_O24_O26 : tc.wf = true := by decide

theorem test_witness_O25 :
    buildable State.reset.cfg = true ∧ State.reset.PalCoherent ∧
    ∃ t, step { State.reset with stream := [0x0100000081000007] } = .next t :=
  ⟨by decide, by decide, next_of_isSome (by decide)⟩

/-- The first and last writable id of each range, and an id on each side that is not. -/
theorem test_witness_O27_O28 :
    State.reset.halted = false ∧ tc.writable 0x0009 = true ∧ tc.writable 0x1000 = true ∧ tc.writable 0x1007 = true ∧
    tc.writable 0x2000 = true ∧ tc.writable 0x000A = false ∧ tc.writable 0x1008 = false ∧ tc.writable 0x1400 = false ∧
    tc.writable 0x2001 = false := by decide

theorem test_witness_O29 :
    afterNine.halted = false ∧ afterNine.InOrder 0 ∧ afterNine.Applies 0 ∧ perFrame.InOrder 5 ∧ ¬ perFrame.Applies 5 ∧
    perFrame.Applies 0 :=
  ⟨by decide, inOrder_of (by decide), by decide, inOrder_of (by decide), by decide,
    by decide⟩

/-- A boundary that changes GFX_BANK, and one that changes no global. -/
theorem test_witness_O30 :
    (0 : TileId).toNat < afterNine.cfg.nt ∧
    after (.boundary 0) { afterNine with pending := [(1, 5)] } (fun t => t.active.get idGfxBank) = some 5 ∧
    afterNine.active.get idGfxBank = 0 ∧
    after (.boundary 0) afterNine (fun t => t.active.globals) = some afterNine.active.globals := by decide

/-- Armed by this boundary and fired; not armed. -/
theorem test_witness_O31 :
    afterNine.InOrder 0 ∧ ({ afterNine with pending := [(3, 0)] } : State).pendingAt idIrqLine ≠ none ∧
    after (.boundary 0) { afterNine with pending := [(3, 0)] } State.latchIrq = some true :=
  ⟨inOrder_of (by decide), by decide, by decide⟩

/-- One line too far, and a repeated line. -/
theorem test_witness_O32 : afterNine.halted = false ∧ ¬ afterNine.InOrder 1 ∧ ¬ afterNine.InOrder 9 :=
  ⟨by decide, not_inOrder_of (by decide), not_inOrder_of (by decide)⟩

theorem test_witness_O33 :
    afterNine.halted = false ∧ afterNine.InOrder 0 ∧ afterNine.Applies 0 ∧ afterNine.cfg.writable 0x1007 = true :=
  ⟨by decide, inOrder_of (by decide), by decide, by decide⟩

theorem test_witness_O34_O35 :
    State.reset.halted = false ∧ (0 : TileId).toNat < State.reset.cfg.nt ∧
    (15 : Addr).toNat < (State.reset.cfg.tm 0).nTiles := by decide

/-- The last pixel of the clip, and the first one outside the FrameBuffer. -/
theorem test_witness_O36 :
    State.reset.cfg.wf = true ∧ State.reset.halted = false ∧ (0 : TileId).toNat < State.reset.cfg.nt ∧
    State.reset.CoherentAt 0 ∧ (Clip.ofBounds 0 8 0 8).contains tc (7, 7) = true ∧
    (Clip.ofBounds 0 8 0 8).contains tc (7, 8) = false := by decide

theorem test_witness_O37 :
    (∃ u, exec (.redraw 0 0 7 0 7) State.reset = .next u) ∧
    ∀ i ∈ List.range (tc.tm 0).nTiles, ∃ y ∈ List.range 8, ∃ x ∈ List.range 8, State.reset.tileSeen 0 y x = i :=
  ⟨next_of_isSome (by decide +kernel), by decide +kernel⟩

/-- Scroll values a full period apart, up to the greatest 16-bit one. -/
theorem test_witness_O38 :
    let a : RedrawArgs := ⟨[65527, 0, 0, 0, 0, 0, 0, 0], [65527], false, false, false⟩
    let b : RedrawArgs := { a with sx := [65535, 8, 8, 8, 8, 8, 8, 8] }
    let c : RedrawArgs := { a with sy := [65535] }
    tc.wf = true ∧ (0 : TileId).toNat < tc.nt ∧ a.sx.length = (tc.tm 0).scrollNX ∧ a.sy.length = (tc.tm 0).scrollNY ∧
    b.sy = a.sy ∧ (∀ j ∈ List.range a.sx.length, (b.sx.getD j 0).toNat = (a.sx.getD j 0).toNat + (tc.tm 0).tmW) ∧
    c.sx = a.sx ∧ (∀ j ∈ List.range a.sy.length, (c.sy.getD j 0).toNat = (a.sy.getD j 0).toNat + (tc.tm 0).tmH) := by
  decide

theorem test_witness_O39 :
    tc.wf = true ∧ (0 : TileId).toNat < tc.nt ∧ 7 < (tc.tm 0).cols * (tc.tm 0).tileW ∧ 7 < (tc.tm 0).rows * (tc.tm 0).tileH := by
  decide

/-- A pixel that is written last here, one that is not written, and one outside the clip. -/
theorem test_witness_O40 :
    let s := withMem [(0x42, 1), (0x43, 0x80)]
    let k := Clip.ofBounds 0 7 0 7
    let writes := spriteWrites s.cfg s.active s.mem k s.active.flipX s.active.flipY
    s.halted = false ∧ k.contains s.cfg (0, 1) = true ∧
    writes = [((0, 0), .pix 9 0)] ++ ((0, 1), .pix 10 0) :: [((1, 0), .pix 9 0)] ∧
    (∀ e ∈ [((1, 0), SprPixel.pix 9 0)], e.1 ≠ (0, 1)) ∧ k.contains s.cfg (7, 7) = true ∧ (∀ e ∈ writes, e.1 ≠ (7, 7)) ∧
    k.contains s.cfg (8, 7) = false := by decide

/-- Both records, the last one drawn first; the other standard order. -/
theorem test_witness_O41 :
    spriteOrder tc (decodeRecords tc []) = [1] ++ [0] ∧ tc.spr.seq = .descending ∧ 1 < tc.spr.num ∧
    ({ tcSpr with seq := .ascending } : SprCfg).seq = .ascending := by decide

/-- The outermost copies, with wraparound and without. -/
theorem test_witness_O42 :
    let shift : Bool → Int → Prop := fun wrap d => d = 0 ∨ (wrap = true ∧ (d = -1 ∨ d = 1))
    tc.spr.wrapX = true ∧ shift tc.spr.wrapX (-1) ∧ shift tc.spr.wrapX 1 ∧ shift false 0 := by
  refine ⟨rfl, ?_, ?_, ?_⟩ <;> simp [tc, tcSpr]

/-- The transparent pen, the mask pen, and the two coloured pens of a 2-bit pixel. -/
theorem test_witness_O43 :
    tc.wf = true ∧ tc.spr.tpen = 0 ∧ tc.spr.maskPen = some 3 ∧ ∀ p ∈ [1, 2], p ≠ tc.spr.tpen ∧ tc.spr.maskPen ≠ some p := by
  decide

/-- The sprite slot wins with a mask and with a pen under an empty upper slot, and a pixel with no contributor. -/
theorem test_witness_O44 :
    let masked := onePixel ⟨5, true, false⟩ (.mask 0)
    let shown := onePixel ⟨5, true, false⟩ (.pix 9 0)
    tc.slots = [.tile 0 .back] ++ .sprite .any :: [.tile 0 .front] ∧ masked.halted = false ∧
    masked.contrib (0, 0) (.sprite .any) = some .mask ∧ (∀ u ∈ [Slot.tile 0 .front], masked.contrib (0, 0) u = none) ∧
    shown.contrib (0, 0) (.sprite .any) = some (.pen 9) ∧ (∀ u ∈ [Slot.tile 0 .front], shown.contrib (0, 0) u = none) ∧
    (∀ u ∈ tc.slots, shown.contrib (7, 7) u = none) ∧ (Clip.ofBounds 0 7 0 7).contains tc (0, 0) = true ∧
    (Clip.ofBounds 0 7 0 7).contains tc (7, 7) = true ∧ (Clip.ofBounds 0 7 0 7).contains tc (7, 8) = false := by
  decide

theorem test_witness_O46 : State.reset.halted = false ∧ ∃ t, exec .tick State.reset = .next t :=
  ⟨by decide, next_of_isSome (by decide)⟩

/-- A tick that applies, one in PER_FRAME mode that does not, and the interrupt's premise. -/
theorem test_witness_O47 :
    State.reset.cfg.wf = true ∧ State.reset.Coherent ∧ State.reset.halted = false ∧ State.reset.InStep ∧
    State.reset.nextLine = 0 ∧ State.reset.Applies 0 ∧
    ({ perFrame with counter := 0 } : State).nextLine = 1 ∧ ({ perFrame with counter := 0 } : State).cfg.wf = true ∧
    ({ perFrame with counter := 0 } : State).Coherent ∧ ¬ ({ perFrame with counter := 0 } : State).Applies 1 := by
  decide

/-- The counter steps to 0, and the last boundary was line 0. -/
theorem test_witness_O48 :
    let s := { State.reset with lastBoundary := some 0 }
    s.halted = false ∧ s.nextLine = 0 ∧ ¬ s.InOrder 0 :=
  ⟨by decide, by decide, not_inOrder_of (by decide)⟩

/-- The first tick renders line 0: pixels (0, 0) and (0, 7) are in its visible part, (1, 0) and (0, 8) are not. It sees the tiles
of the first row and not the next one. -/
theorem test_witness_O49 :
    (∃ t, exec .tick State.reset = .next t) ∧
    after .tick State.reset (fun t => (t.counter, t.active.get idVisTop, t.active.get idVisBottom)) = some (0, 0, 7) ∧
    after .tick State.reset (fun t => (t.active.get idVisLeft, t.active.get idVisRight)) = some (0, 7) ∧
    State.reset.cfg.fbW = 8 ∧ State.reset.cfg.fbH = 8 ∧
    after .tick State.reset (fun t => ((t.tm 0).isDirty 3, (t.tm 0).isDirty 4, (t.tm 0).allDirty)) = some (false, true, false) :=
  ⟨next_of_isSome (by decide), by decide, by decide, by decide, by decide, by decide⟩

theorem test_witness_O50 :
    State.reset.cfg.wf = true ∧ State.reset.Coherent ∧ State.reset.halted = false ∧ State.reset.InStep ∧
    State.reset.pendingAt idVtotal = none ∧
    max 1 (State.reset.active.get idVtotal).toNat ≤ State.reset.counter.toNat + 1 := by decide

/-- A step that runs TICK. -/
theorem test_witness_O51_O52_O59 :
    let s := { State.reset with stream := [0x0400000000000000] }
    buildable s.cfg = true ∧ s.Coherent ∧ s.canonical = true ∧ ∃ t, step s = .next t :=
  ⟨by decide, by decide, by decide, next_of_isSome (by decide)⟩

theorem test_witness_O53 :
    let s := { State.reset with stream := [0x0400000000000000] }
    buildable s.cfg = true ∧ s.Coherent ∧ s.halted = false ∧ s.InStep ∧
    ∀ w rest n, s.stream = w :: rest → decode w ≠ .command (.boundary n) := by
  refine ⟨by decide, by decide, by decide, by decide, ?_⟩
  intro w rest n h
  injection h with h1 _
  subst h1
  have hd : decode 0x0400000000000000 = .command .tick := by decide
  rw [hd]
  simp

theorem test_witness_O54 : State.build tc [] = .next State.reset ∧ State.reset.halted = false := ⟨build_tc, rfl⟩

theorem test_witness_O56 : Reachable State.reset := .built tc [] State.reset build_tc

/-- A command that is not WMEM, and a WMEM that changes memory, so that the premise is needed. -/
theorem test_witness_O57_O58 :
    (∃ t, exec .getfb State.reset = .next t) ∧ (∀ a d, Instr.getfb ≠ .wmem a d) ∧
    after (.wmem 5 2) State.reset (fun t => t.mem.read 5) = some 2 :=
  ⟨next_of_isSome (by decide), by simp, by decide⟩

theorem test_witness_O60 : unmarked.cfg = State.reset.cfg := by decide

end Sys2Proof.Tests
end

section
/-! SUPPORT. What a step can do, down to the effect of one command, and the proof shape of an invariant that every step keeps
(46_interface.md R430). -/

namespace Sys2Proof.Machine

/-- What a step can do when it ends in a next state: nothing, no more than taking a word from the stream (a halted machine), the
refusal of the word, or the effect of a legal command on a live machine. -/
theorem step_cases {s t : State} (h : step s = .next t) :
    t = s ∨ ∃ rest, t = { s with stream := rest } ∨ t = ({ s with stream := rest } : State).refuse ∨
      ∃ i, i.legal s.cfg = true ∧ s.halted = false ∧ effect i { s with stream := rest } = .next t := by
  rcases step_eq_next h with ⟨-, rfl⟩ | ⟨w, rest, -, ⟨e, -, rfl⟩ | ⟨i, -, hx⟩⟩
  · exact .inl rfl
  · exact .inr ⟨rest, .inr (.inl rfl)⟩
  · rcases exec_eq_next hx with ⟨-, rfl⟩ | ⟨-, -, rfl⟩ | ⟨hl, hh, he⟩
    · exact .inr ⟨rest, .inr (.inl rfl)⟩
    · exact .inr ⟨rest, .inl rfl⟩
    · exact .inr ⟨rest, .inr (.inr ⟨i, hl, hh, he⟩)⟩

/-- A property that ignores the stream and the mark of a refusal, and that the effect of every legal command on a live machine
keeps, is kept by every step. -/
theorem step_keeps {P : State → Prop} (hstream : ∀ s rest, P s → P { s with stream := rest })
    (hrefuse : ∀ s, P s → P s.refuse)
    (heffect : ∀ i s t, i.legal s.cfg = true → s.halted = false → P s → effect i s = .next t → P t)
    {s t : State} (hs : P s) (h : step s = .next t) : P t := by
  rcases step_cases h with rfl | ⟨rest, rfl | rfl | ⟨i, hl, hh, he⟩⟩
  · exact hs
  · exact hstream s rest hs
  · exact hrefuse _ (hstream s rest hs)
  · exact heffect i { s with stream := rest } t hl hh (hstream s rest hs) he

/-- A step completes where the effect of every legal command on a live machine does. -/
theorem step_completes {s : State}
    (h : s.halted = false → ∀ i rest, i.legal s.cfg = true → ∃ t, effect i { s with stream := rest } = .next t) :
    ∃ t, step s = .next t := by
  unfold step
  split
  · exact ⟨_, rfl⟩
  · next w rest _ =>
    split
    · exact ⟨_, rfl⟩
    · next i _ =>
      rw [exec_eq]
      unfold command
      split
      · next hl =>
        split
        · exact ⟨_, rfl⟩
        · next hh => exact h (by simpa using hh) i rest hl
      · exact ⟨_, rfl⟩

/-! What the smaller operations leave unchanged. -/

/-- All that a read can change is what the model counts of draws. -/
theorem State.afterRead_frame (s : State) (id : Option RegId) :
    s.afterRead id = { s with hostDraws := (s.afterRead id).hostDraws, draws := (s.afterRead id).draws } := by
  unfold State.afterRead State.afterDraw
  split
  · rfl
  · split <;> rfl

/-- All that a memory write can change is the byte, the marks and the palette. -/
theorem State.writeMemory_frame (s : State) (a : Nat) (d : Byte) :
    s.writeMemory a d =
      { s with
        mem := (s.writeMemory a d).mem
        tilemaps := (s.writeMemory a d).tilemaps
        pal := (s.writeMemory a d).pal } := by
  unfold State.writeMemory
  split <;> rfl

/-- All that a boundary can change, accepted or fatal. -/
theorem State.afterBoundary_frame (s : State) (n : U16) :
    s.afterBoundary n =
      { s with
        lastBoundary := (s.afterBoundary n).lastBoundary
        active := (s.afterBoundary n).active
        pending := (s.afterBoundary n).pending
        irqArmed := (s.afterBoundary n).irqArmed
        latchIrq := (s.afterBoundary n).latchIrq
        tilemaps := (s.afterBoundary n).tilemaps
        halted := (s.afterBoundary n).halted
        fatalCode := (s.afterBoundary n).fatalCode } := by
  cases h : s.boundaryInOrder n
  · rw [State.afterBoundary_outOfOrder h]
    rfl
  · rw [State.afterBoundary_inOrder h, State.passBoundary_eq]

/-- What WREG can do (46_interface.md R402): nothing at an address that decodes to no register, else the latch write. -/
theorem effect_wreg_eq_next {a : Addr} {d : U16} {s t : State} (h : effect (.wreg a d) s = .next t) :
    (s.cfg.regDecodeAt a = none ∧ t = s) ∨ ∃ r, s.cfg.regDecodeAt a = some r ∧ t = s.latchWrite r d := by
  dsimp only [effect] at h
  split at h
  · next hr => cases h; exact .inl ⟨hr, rfl⟩
  · next r hr => cases h; exact .inr ⟨r, hr, rfl⟩

/-- The fields that the effect of every command leaves alone, and the trace, which it only appends to (10_state.md R70). -/
theorem effect_frame {i : Instr} {s t : State} (h : effect i s = .next t) :
    t.cfg = s.cfg ∧ t.stream = s.stream ∧ t.refused = s.refused ∧ ∃ events, t.trace = s.trace ++ events := by
  have same : ∀ {u : State}, u.cfg = s.cfg → u.stream = s.stream → u.refused = s.refused → u.trace = s.trace →
      u.cfg = s.cfg ∧ u.stream = s.stream ∧ u.refused = s.refused ∧ ∃ events, u.trace = s.trace ++ events :=
    fun hc hs hr ht => ⟨hc, hs, hr, [], by rw [ht, List.append_nil]⟩
  cases i with
  | nop => cases h; exact same rfl rfl rfl rfl
  | wmem a d => cases h; rw [State.writeMemory_frame]; exact same rfl rfl rfl rfl
  | wreg a d =>
    rcases effect_wreg_eq_next h with ⟨-, rfl⟩ | ⟨r, -, rfl⟩
    · exact same rfl rfl rfl rfl
    · rw [State.latchWrite_frame]; exact same rfl rfl rfl rfl
  | rreg a => cases h; rw [State.afterRead_frame]; exact ⟨rfl, rfl, rfl, _, rfl⟩
  | tick =>
    obtain ⟨hc, -, -, hs, hr, -, -, ht⟩ := State.tick_frame h
    exact ⟨hc, hs, hr, ht⟩
  | getfb => cases h; exact ⟨rfl, rfl, rfl, _, rfl⟩
  | reset => cases h; rw [State.initialise_frame]; exact same rfl rfl rfl rfl
  | markd u k => cases h; exact same rfl rfl rfl rfl
  | marka u => cases h; exact same rfl rfl rfl rfl
  | redraw u x0 x1 y0 y1 => rw [State.redraw_eq_next h]; exact same rfl rfl rfl rfl
  | sprites x0 x1 y0 y1 => cases h; exact same rfl rfl rfl rfl
  | compose x0 x1 y0 y1 => cases h; exact same rfl rfl rfl rfl
  | lwrite r d => cases h; rw [State.latchWrite_frame]; exact same rfl rfl rfl rfl
  | boundary n => cases h; rw [State.afterBoundary_frame]; exact same rfl rfl rfl rfl

/-- Settles O59: the effect of a command appends to the trace and leaves `refused` alone, and a refusal only sets it. -/
theorem traceOnlyGrows : Obligations.TraceOnlyGrows := by
  intro s t h
  rcases step_cases h with rfl | ⟨rest, rfl | rfl | ⟨i, -, -, he⟩⟩
  · exact ⟨⟨[], (List.append_nil _).symm⟩, id⟩
  · exact ⟨⟨[], (List.append_nil _).symm⟩, id⟩
  · exact ⟨⟨[], (List.append_nil _).symm⟩, fun _ => rfl⟩
  · obtain ⟨-, -, hr, ht⟩ := effect_frame he
    exact ⟨ht, fun hs => hr.trans hs⟩

end Sys2Proof.Machine
end

section
/-! SUPPORT. The canonical form (log 10) through the effect of every command. -/

namespace Sys2Proof.Machine

theorem CanonicalParts.drawSprites {s : State} (k : Clip) (fx fy : Bool) (h : CanonicalParts s) :
    CanonicalParts (s.drawSprites k fx fy) :=
  { h with spr := s.canonical_drawnSprites k fx fy h.spr }

theorem CanonicalParts.compose {s : State} (k : Clip) (h : CanonicalParts s) : CanonicalParts (s.compose k) :=
  { h with fb := s.canonical_composedFrame k h.fb }

theorem CanonicalParts.advance {s : State} (h : CanonicalParts s) : CanonicalParts s.advance := { h with }

theorem CanonicalParts.afterBoundary {s : State} (n : U16) (h : CanonicalParts s) : CanonicalParts (s.afterBoundary n) := by
  cases ho : s.boundaryInOrder n
  · rw [State.afterBoundary_outOfOrder ho]
    exact h.of_eq rfl
  · rw [State.afterBoundary_inOrder ho]
    exact h.passBoundary n

theorem CanonicalParts.redrawEach {k : Clip} {ids : List TileId} {s s' : State} (h : CanonicalParts s)
    (he : redrawEach k ids s = .next s') : CanonicalParts s' := by
  induction ids generalizing s with
  | nil => cases he; exact h
  | cons t ids ih =>
    obtain ⟨s1, h1, h2⟩ := andThen_eq_next he
    exact ih (h.redraw h1) h2

theorem CanonicalParts.renderLine {n : U16} {s s' : State} (h : CanonicalParts s) (he : s.renderLine n = .next s') :
    CanonicalParts s' := by
  obtain ⟨s1, h1, rfl, -⟩ := State.renderLine_eq_next he
  exact ((h.redrawEach h1).drawSprites _ _ _).compose _

theorem CanonicalParts.endLine {s : State} (n : U16) (h : CanonicalParts s) : CanonicalParts (s.endLine n) := by
  rw [State.endLine_eq]
  refine { h with completed := fun f hf => ?_ }
  dsimp only at hf
  split at hf
  · cases hf; exact h.fb
  · exact h.completed f hf

theorem CanonicalParts.atRender {s : State} (h : CanonicalParts s) : CanonicalParts s.atRender := by
  have hb := h.advance.passBoundary s.nextLine
  unfold State.atRender State.signalRaster
  split
  · exact hb.of_eq rfl
  · exact hb.of_eq rfl

theorem CanonicalParts.tick {s s' : State} (h : CanonicalParts s) (he : s.tick = .next s') : CanonicalParts s' := by
  rcases State.tick_eq_next he with ⟨-, rfl⟩ | ⟨-, r, hr, rfl⟩
  · exact h.advance.of_eq rfl
  · exact (h.atRender.renderLine hr).endLine _

/-- The effect of every command keeps the canonical form. -/
theorem CanonicalParts.effect {i : Instr} {s t : State} (h : CanonicalParts s) (he : effect i s = .next t) :
    CanonicalParts t := by
  cases i with
  | nop => cases he; exact h
  | wmem a d => cases he; exact h.writeMemory a.toNat d
  | wreg a d =>
    rcases effect_wreg_eq_next he with ⟨-, rfl⟩ | ⟨r, -, rfl⟩
    · exact h
    · exact h.latchWrite r d
  | rreg a => cases he; rw [State.afterRead_frame]; exact h.of_eq rfl
  | tick => exact h.tick he
  | getfb => cases he; exact h.of_eq rfl
  | reset => cases he; exact CanonicalParts.initialise [] true h.memWf h.memWithin
  | markd u k => cases he; exact h.setTm u (Tilemap.canonical_markDirty k.toNat (h.tilemaps u))
  | marka u => cases he; exact h.setTm u (Tilemap.canonical_markAll (h.tilemaps u))
  | redraw u x0 x1 y0 y1 => exact h.redraw he
  | sprites x0 x1 y0 y1 => cases he; exact h.drawSprites _ _ _
  | compose x0 x1 y0 y1 => cases he; exact h.compose _
  | lwrite r d => cases he; exact h.latchWrite r d
  | boundary n => cases he; exact h.afterBoundary n

/-- Settles O52: the effect of every command keeps each map canonical, and nothing else that a step does touches a map. -/
theorem canonicalFormIsKept : Obligations.CanonicalFormIsKept := by
  intro s t hs h
  rw [State.canonical_iff] at hs ⊢
  exact step_keeps (fun _ _ hu => hu.of_eq rfl) (fun _ hu => hu.of_eq rfl)
    (fun _ _ _ _ _ hu he => hu.effect he) hs h

end Sys2Proof.Machine
end

section
/-! SUPPORT. The invariants of a machine that was built without error: coherence of the tile cache (41_tilemap.md R245) and of the
palette (40_palette.md R205), through the effect of every command. -/

namespace Sys2Proof.Machine

/-! Coherence of the tile cache. -/

theorem State.coherent_of_atReset {s : State} (h : s.tilemaps = Quad.all Tilemap.atReset) : s.Coherent := by
  intro t _
  apply State.coherentAt_of_allDirty
  simp [State.tm, h, Tilemap.atReset]

theorem State.coherent_initialise (launch : Memory) (keepMem : Bool) (s : State) :
    (s.initialise launch keepMem).Coherent := by
  apply State.coherent_of_atReset
  rw [State.initialise_frame]
  rfl

theorem State.coherent_writeMemory {s : State} (hw : s.cfg.wf = true) (a : Nat) (d : Byte) (h : s.Coherent) :
    (s.writeMemory a d).Coherent := by
  intro t ht
  rw [State.writeMemory_frame] at ht
  exact State.coherentAt_writeMemory hw a d ((s.cfg.mem_tileIds t).mp ht) (h t ht)

theorem State.coherent_latchWrite {s : State} (r : RegId) (d : U16) (h : s.Coherent) : (s.latchWrite r d).Coherent := by
  rw [State.latchWrite_frame]
  exact State.coherent_congr (s := s) rfl rfl rfl rfl h

theorem State.coherent_afterBoundary {s : State} (n : U16) (h : s.Coherent) : (s.afterBoundary n).Coherent := by
  intro t ht
  rw [State.afterBoundary_frame] at ht
  cases ho : s.boundaryInOrder n
  · rw [State.afterBoundary_outOfOrder ho]
    exact State.coherent_congr (s := s) rfl rfl rfl rfl h t ht
  · rw [State.afterBoundary_inOrder ho]
    exact State.coherentAt_passBoundary n ((s.cfg.mem_tileIds t).mp ht) (h t ht)

theorem State.coherent_endLine {s : State} (n : U16) (h : s.Coherent) : (s.endLine n).Coherent := by
  rw [State.endLine_eq]
  exact State.coherent_congr (s := s) rfl rfl rfl rfl h

/-- The state in which a tick renders has the configuration of the machine. -/
theorem State.atRender_cfg (s : State) : s.atRender.cfg = s.cfg := by
  rw [State.atRender_eq]

theorem State.coherent_tick {s t : State} (hw : s.cfg.wf = true) (h : s.Coherent) (he : s.tick = .next t) : t.Coherent := by
  rcases State.tick_eq_next he with ⟨-, rfl⟩ | ⟨-, r, hr, rfl⟩
  · exact State.coherent_congr (s := s) rfl rfl rfl rfl h
  · obtain ⟨r', hr', hc, -⟩ :=
      State.renderLine_completes (s.atRender_cfg.symm ▸ hw) (State.coherent_atRender h) s.nextLine
    cases hr.symm.trans hr'
    exact State.coherent_endLine _ hc

/-- The effect of every legal command keeps the tile cache coherent. -/
theorem State.Coherent.effect {i : Instr} {s t : State} (hw : s.cfg.wf = true) (hl : i.legal s.cfg = true) (h : s.Coherent)
    (he : effect i s = .next t) : t.Coherent := by
  have same : ∀ {u : State}, u.cfg = s.cfg → u.mem = s.mem → u.active.globals = s.active.globals →
      u.tilemaps = s.tilemaps → u.Coherent :=
    fun hc hm hg ht => State.coherent_congr hc hm hg ht h
  cases i with
  | nop => cases he; exact h
  | wmem a d => cases he; exact State.coherent_writeMemory hw a.toNat d h
  | wreg a d =>
    rcases effect_wreg_eq_next he with ⟨-, rfl⟩ | ⟨r, -, rfl⟩
    · exact h
    · exact State.coherent_latchWrite r d h
  | rreg a => cases he; rw [State.afterRead_frame]; exact same rfl rfl rfl rfl
  | tick => exact State.coherent_tick hw h he
  | getfb => cases he; exact same rfl rfl rfl rfl
  | reset => cases he; exact s.coherent_initialise [] true
  | markd v k => cases he; exact fun u hu => State.coherentAt_markDirty k.toNat (h u hu)
  | marka v => cases he; exact fun u hu => State.coherentAt_markAll (h u hu)
  | redraw v x0 x1 y0 y1 =>
    have hv : v.toNat < s.cfg.nt := by simpa [Instr.legal] using hl
    intro u hu
    have hcfg : t.cfg = s.cfg := (effect_frame he).1
    rw [hcfg] at hu
    exact State.coherentAt_redraw (s.cfg.good hw hv) (h v ((s.cfg.mem_tileIds v).mpr hv)) he u (.inr (h u hu))
  | sprites x0 x1 y0 y1 => cases he; exact same rfl rfl rfl rfl
  | compose x0 x1 y0 y1 => cases he; exact same rfl rfl rfl rfl
  | lwrite r d => cases he; exact State.coherent_latchWrite r d h
  | boundary n => cases he; exact State.coherent_afterBoundary n h

/-! Coherence of the palette. -/

/-- The palette offsets of a well-formed configuration are distinct (00_scope.md R11). -/
theorem PalCfg.off_inj {c : Config} (hw : c.wf = true) :
    ∀ q ∈ c.pal.pairs, ∀ r ∈ c.pal.pairs, c.pal.off q.1 q.2 = c.pal.off r.1 r.2 → q = r := by
  have h := c.wf_holds hw .palOffsetsInjective
  simpa only [ConfigCheck.holds, List.all_eq_true, decide_eq_true_eq] using h

/-- The raw bytes of an entry that does not hold the address are the same after the write (40_palette.md R204). -/
theorem rawBytes_write {c : Config} (hw : c.wf = true) (m : Memory) {a i : Nat} (d : Byte) (hi : i < c.pal.entries)
    (ha : c.pal.entryAt a ≠ some i) : rawBytes c (m.write a d) i = rawBytes c m i := by
  apply rawBytes_congr
  intro hk k hkb
  rw [Memory.read_write, if_neg]
  intro hak
  refine ha (PalCfg.entryAt_eq hk hi hkb (PalCfg.off_inj hw) ?_)
  have hpos := (PalCfg.ramPos_inside hw hk hi hkb).1
  rw [hak, PalCfg.ramAddr, Int.toNat_of_nonneg hpos]

/-- A memory write keeps the palette coherent: it decodes again the one entry whose bytes it can change (40_palette.md R204). -/
theorem State.palCoherent_writeMemory {s : State} (hw : s.cfg.wf = true) (a : Nat) (d : Byte) (h : s.PalCoherent) :
    (s.writeMemory a d).PalCoherent := by
  by_cases ha : a < s.cfg.memSize
  swap
  · rwa [State.writeMemory_outside d ha]
  rw [State.writeMemory_eq d ha]
  intro i hi
  simp only [State.rgb, getD_paletteAfterWrite]
  split
  · rfl
  · next hne =>
    rw [rawBytes_write hw s.mem d (List.mem_range.mp hi) hne]
    exact h i hi

theorem State.palCoherent_initialise {s : State} (launch : Memory) (keepMem : Bool) (hb : buildable s.cfg = true) :
    (s.initialise launch keepMem).PalCoherent := by
  apply State.palCoherent_of_decode
  rw [State.initialise_buildable hb]
  rfl

/-- The effect of every command keeps the palette coherent. -/
theorem State.PalCoherent.effect {i : Instr} {s t : State} (hb : buildable s.cfg = true) (h : s.PalCoherent)
    (he : effect i s = .next t) : t.PalCoherent := by
  have same : ∀ {u : State}, u.cfg = s.cfg → u.mem = s.mem → u.pal = s.pal → u.PalCoherent :=
    fun hc hm hp => State.palCoherent_congr hc hm hp h
  cases i with
  | nop => cases he; exact h
  | wmem a d => cases he; exact State.palCoherent_writeMemory ((buildable_iff _).mp hb).1 a.toNat d h
  | wreg a d =>
    rcases effect_wreg_eq_next he with ⟨-, rfl⟩ | ⟨r, -, rfl⟩
    · exact h
    · rw [State.latchWrite_frame]; exact same rfl rfl rfl
  | rreg a => cases he; rw [State.afterRead_frame]; exact same rfl rfl rfl
  | tick =>
    obtain ⟨hc, hm, hp, -⟩ := State.tick_frame he
    exact same hc hm hp
  | getfb => cases he; exact same rfl rfl rfl
  | reset => cases he; exact State.palCoherent_initialise [] true hb
  | markd v k => cases he; exact same rfl rfl rfl
  | marka v => cases he; exact same rfl rfl rfl
  | redraw v x0 x1 y0 y1 => rw [State.redraw_eq_next he]; exact same rfl rfl rfl
  | sprites x0 x1 y0 y1 => cases he; exact same rfl rfl rfl
  | compose x0 x1 y0 y1 => cases he; exact same rfl rfl rfl
  | lwrite r d => cases he; rw [State.latchWrite_frame]; exact same rfl rfl rfl
  | boundary n => cases he; rw [State.afterBoundary_frame]; exact same rfl rfl rfl

/-! Completion (10_state.md R50, R51). -/

/-- A tick of a coherent machine completes, by the fatal halt or with its whole line. -/
theorem State.tick_completes {s : State} (hw : s.cfg.wf = true) (h : s.Coherent) : ∃ t, s.tick = .next t := by
  cases ho : s.advance.boundaryInOrder s.nextLine
  · exact ⟨_, State.tick_outOfOrder ho⟩
  · obtain ⟨r, hr, -⟩ :=
      State.renderLine_completes (s.atRender_cfg.symm ▸ hw) (State.coherent_atRender h) s.nextLine
    exact ⟨_, State.tick_inOrder ho hr⟩

/-- The effect of every legal command on a coherent machine completes: only REDRAW and TICK read the tile cache, and where the
cache is coherent they read no pixel without value. -/
theorem effect_completes {i : Instr} {s : State} (hw : s.cfg.wf = true) (hl : i.legal s.cfg = true) (h : s.Coherent) :
    ∃ t, effect i s = .next t := by
  cases i with
  | tick => exact State.tick_completes hw h
  | redraw v x0 x1 y0 y1 =>
    have hv : v.toNat < s.cfg.nt := by simpa [Instr.legal] using hl
    exact ⟨_, State.redraw_completes (s.cfg.good hw hv) _ _
      ((s.coherentAt_iff v).mp (h v ((s.cfg.mem_tileIds v).mpr hv)))⟩
  | wreg a d =>
    dsimp only [effect]
    cases s.cfg.regDecodeAt a with
    | none => exact ⟨_, rfl⟩
    | some r => exact ⟨_, rfl⟩
  | nop => exact ⟨_, rfl⟩
  | wmem a d => exact ⟨_, rfl⟩
  | rreg a => exact ⟨_, rfl⟩
  | getfb => exact ⟨_, rfl⟩
  | reset => exact ⟨_, rfl⟩
  | markd v k => exact ⟨_, rfl⟩
  | marka v => exact ⟨_, rfl⟩
  | sprites x0 x1 y0 y1 => exact ⟨_, rfl⟩
  | compose x0 x1 y0 y1 => exact ⟨_, rfl⟩
  | lwrite r d => exact ⟨_, rfl⟩
  | boundary n => exact ⟨_, rfl⟩

/-! Machines that were built. -/

/-- Initialising halts where the configuration lacks a ROM region or has a PROM that is too short (R480, R481): a live machine
has a buildable configuration. -/
theorem State.buildable_of_live_initialise {launch : Memory} {keepMem : Bool} {s : State} (hw : s.cfg.wf = true)
    (hlive : (s.initialise launch keepMem).halted = false) : buildable s.cfg = true := by
  refine (buildable_iff _).mpr ⟨hw, ?_⟩
  unfold State.initialise at hlive
  split at hlive
  · next hr =>
    refine ⟨hr, ?_⟩
    unfold State.initPalette State.decodeStatic at hlive
    have hc : (s.initFields launch keepMem).cfg = s.cfg := rfl
    rw [hc] at hlive
    cases hk : s.cfg.pal.kind
    · rw [hk] at hlive
      dsimp only at hlive
      split at hlive
      · cases hlive
      · exact .inr (by omega)
    · exact .inl rfl
  · cases hlive

/-- What holds of every machine that was built: unless it has halted, its configuration passed every check of 70_reset_and_hazards.md
R481, and its tile cache and palette are coherent. -/
def State.LiveSound (s : State) : Prop := s.halted = false → buildable s.cfg = true ∧ s.Coherent ∧ s.PalCoherent

/-- The stream and the host's values take no part in it. -/
theorem State.LiveSound.feed {s : State} (h : s.LiveSound) (ws : List Cmd) (vs : List U16) :
    State.LiveSound { s with stream := ws, hostDraws := vs } := by
  intro hh
  obtain ⟨hb, hc, hp⟩ := h hh
  exact ⟨hb, State.coherent_congr (s := s) rfl rfl rfl rfl hc, State.palCoherent_congr (s := s) rfl rfl rfl hp⟩

theorem State.LiveSound.refuse {s : State} (h : s.LiveSound) : s.refuse.LiveSound := by
  intro hh
  obtain ⟨hb, hc, hp⟩ := h hh
  exact ⟨hb, State.coherent_congr (s := s) rfl rfl rfl rfl hc, State.palCoherent_congr (s := s) rfl rfl rfl hp⟩

theorem State.LiveSound.effect {i : Instr} {s t : State} (hl : i.legal s.cfg = true) (hh : s.halted = false)
    (h : s.LiveSound) (he : effect i s = .next t) : t.LiveSound := by
  obtain ⟨hb, hc, hp⟩ := h hh
  have hcfg := (effect_frame he).1
  exact fun _ => ⟨hcfg.symm ▸ hb, hc.effect ((buildable_iff _).mp hb).1 hl he, hp.effect hb he⟩

theorem State.LiveSound.step {s t : State} (h : s.LiveSound) (he : step s = .next t) : t.LiveSound :=
  step_keeps (fun s rest hs => hs.feed rest s.hostDraws) (fun _ hs => hs.refuse) (fun _ _ _ hl hh hs he => hs.effect hl hh he)
    h he

theorem State.LiveSound.of_build {c : Config} {launch : Memory} {t : State} (h : State.build c launch = .next t) :
    t.LiveSound := by
  obtain ⟨hw, -, rfl⟩ := State.build_eq_next h
  intro hh
  have hb := State.buildable_of_live_initialise hw hh
  refine ⟨?_, State.coherent_initialise _ _ _, State.palCoherent_initialise _ _ hb⟩
  rw [State.initialise_frame]
  exact hb

theorem Reachable.liveSound {s : State} (h : Reachable s) : s.LiveSound := by
  induction h with
  | built c launch s h => exact .of_build h
  | fed s ws vs _ ih => exact ih.feed ws vs
  | stepped s s' _ hs ih => exact ih.step hs

/-- A step of a machine that was built completes. -/
theorem State.LiveSound.step_completes {s : State} (h : s.LiveSound) : ∃ t, Machine.step s = .next t := by
  refine Machine.step_completes fun hh i rest hl => ?_
  obtain ⟨hb, hc, -⟩ := h.feed rest s.hostDraws hh
  exact effect_completes ((buildable_iff _).mp hb).1 hl hc

/-- Settles O56: a live machine that was built is coherent, so that no redraw reads a cache pixel without value; a halted one only
takes or refuses words. -/
theorem noReachableStepStops : Obligations.NoReachableStepStops := by
  intro s hr
  have hs := hr.liveSound
  refine ⟨hs.step_completes, fun hh => ?_⟩
  obtain ⟨-, hc, hp⟩ := hs hh
  exact ⟨hc, hp⟩

end Sys2Proof.Machine
end

section
/-! SUPPORT. The ids of the scroll registers (30_encoding.md R148). -/

namespace Sys2Proof

/-- A scroll id is a base, 0x400 per tilemap, and an index: the tilemap and the index are the quotient and the remainder, as no
tilemap has more than 0x400 indices. -/
theorem scrollId_iff (base nt r : Nat) (count : TileId → Nat) (hcount : ∀ t : TileId, t.toNat < nt → count t ≤ 0x400) :
    (base ≤ r ∧ r ≤ base + 0xFFF ∧ (r - base) / 0x400 < nt ∧
        (r - base) % 0x400 < count (BitVec.ofNat 2 ((r - base) / 0x400))) ↔
      ∃ (t : TileId) (i : Nat), t.toNat < nt ∧ i < count t ∧ r = base + 0x400 * t.toNat + i := by
  constructor
  · rintro ⟨hlo, hhi, ht, hi⟩
    have htn : (BitVec.ofNat 2 ((r - base) / 0x400)).toNat = (r - base) / 0x400 := by
      rw [BitVec.toNat_ofNat]
      omega
    exact ⟨_, _, by rwa [htn], hi, by rw [htn]; omega⟩
  · rintro ⟨t, i, ht, hi, rfl⟩
    have hi' := hcount t ht
    have hlt := t.isLt
    have hdiv : (base + 0x400 * t.toNat + i - base) / 0x400 = t.toNat := by omega
    have hmod : (base + 0x400 * t.toNat + i - base) % 0x400 = i := by omega
    have htid : BitVec.ofNat 2 t.toNat = t := by simp
    rw [hdiv, hmod, htid]
    exact ⟨by omega, by omega, ht, hi⟩

theorem Config.scrollXAssigned_iff {c : Config} (hw : c.wf = true) (r : RegId) :
    c.scrollXAssigned r = true ↔
      ∃ (t : TileId) (i : Nat), t.toNat < c.nt ∧ i < (c.tm t).scrollNX ∧ r.toNat = 0x1000 + 0x400 * t.toNat + i := by
  rw [← scrollId_iff 0x1000 c.nt r.toNat (fun t => (c.tm t).scrollNX) fun t ht => (c.good hw ht).scrollNX.2]
  simp only [Config.scrollXAssigned, Bool.and_eq_true, decide_eq_true_eq, and_assoc]

theorem Config.scrollYAssigned_iff {c : Config} (hw : c.wf = true) (r : RegId) :
    c.scrollYAssigned r = true ↔
      ∃ (t : TileId) (i : Nat), t.toNat < c.nt ∧ i < (c.tm t).scrollNY ∧ r.toNat = 0x2000 + 0x400 * t.toNat + i := by
  rw [← scrollId_iff 0x2000 c.nt r.toNat (fun t => (c.tm t).scrollNY) fun t ht => (c.good hw ht).scrollNY.2]
  simp only [Config.scrollYAssigned, Bool.and_eq_true, decide_eq_true_eq, and_assoc]

/-- Settles O26, from the two ranges of scroll ids. -/
theorem writableRegisterIds : Obligations.WritableRegisterIds := by
  intro c r hw
  rw [← Config.scrollXAssigned_iff hw, ← Config.scrollYAssigned_iff hw]
  simp only [Config.writable, Bool.or_eq_true, decide_eq_true_eq, or_assoc]

end Sys2Proof
end

section
/-! SUPPORT. Save state (10_state.md R90): what a restore gives back. -/

namespace Sys2Proof.Machine

/-- Each tilemap after a restore: its saved dirty bits, everything marked, no cached value. -/
theorem State.restored_tm (p : Persisted) (s : State) (t : TileId) :
    (s.restored p).tm t = (s.tm t).restored (p.dirty.get t) := by
  have hq : ∀ t : TileId, t = 0 ∨ t = 1 ∨ t = 2 ∨ t = 3 := by decide
  rcases hq t with rfl | rfl | rfl | rfl <;> rfl

theorem State.persisted_dirty (s : State) (t : TileId) : s.persisted.dirty.get t = (s.tm t).dirty :=
  Quad.get_map _ _ _

theorem State.coherent_restored (p : Persisted) (s : State) : (s.restored p).Coherent := by
  intro t _
  apply State.coherentAt_of_allDirty
  rw [State.restored_tm]
  rfl

/-- A byte after the palette RAM of `s` is restored (R90): that of `s` at an address of palette RAM, else as before. -/
theorem State.read_restored (s u : State) (a : Nat) :
    (u.restored s.persisted).mem.read a = if a ∈ palRamAddrs s.cfg then s.mem.read a else u.mem.read a := by
  have hcells : ∀ e ∈ s.persisted.palRam, e.2 = s.mem.read e.1 := by
    simp [State.persisted]
  have hkeys : s.persisted.palRam.map Prod.fst = palRamAddrs s.cfg := by
    simp [State.persisted, Function.comp_def]
  calc (u.restored s.persisted).mem.read a
      = (u.mem.restorePalRam s.persisted.palRam).read a := rfl
    _ = _ := by rw [Memory.read_restorePalRam hcells, hkeys]

/-- Settles O60. -/
theorem restoreMarksEverythingDirty : Obligations.RestoreMarksEverythingDirty := by
  intro s u _
  have hbytes : ∀ a ∈ palRamAddrs s.cfg, (u.restored s.persisted).mem.read a = s.mem.read a := by
    intro a ha
    rw [State.read_restored, if_pos ha]
  have htm : ∀ v : TileId, (u.restored s.persisted).tm v = (u.tm v).restored (s.tm v).dirty := by
    intro v
    rw [State.restored_tm, State.persisted_dirty]
  refine ⟨rfl, rfl, rfl, rfl, rfl, rfl, rfl, hbytes, fun v => ?_, State.coherent_restored _ _⟩
  rw [htm]
  exact ⟨rfl, rfl, rfl⟩

end Sys2Proof.Machine
end

section
/-! SUPPORT. Memory and its write path (20_memory.md): the marks of a WMEM, the commands that leave memory alone. -/

namespace Sys2Proof

theorem TilemapCfg.inCharRam_iff (g : TilemapCfg) (a : Nat) :
    g.inCharRam a = true ↔ ∃ lo hi, g.gfxSrc = .charRam lo hi ∧ lo ≤ a ∧ a ≤ hi := by
  unfold TilemapCfg.inCharRam
  split
  · next hsrc => simp [hsrc]
  · next lo hi hsrc => simp [hsrc]

namespace Machine

/-! WMEM. -/

/-- WMEM is legal on every configuration, so that on a live machine it is the memory write. -/
theorem exec_wmem_live {s : State} (a : Addr) (d : Byte) (hh : s.halted = false) :
    exec (.wmem a d) s = .next (s.writeMemory a.toNat d) :=
  exec_live rfl hh

/-- Settles O13: a halted machine takes no command, and on a live one the write is outside memory. -/
theorem wmemOutsideMemoryHasNoEffect : Obligations.WmemOutsideMemoryHasNoEffect := by
  intro s a d ha
  cases hh : s.halted
  · rw [exec_wmem_live a d hh, State.writeMemory_outside d (Nat.not_lt.mpr ha)]
  · rw [exec_eq, command_halted rfl hh]

theorem State.writeMemory_tilemaps_same {s : State} {a : Nat} (ha : a < s.cfg.memSize) :
    (s.writeMemory a (s.mem.read a)).tilemaps = s.tilemaps := by
  rw [State.writeMemory_eq _ ha]
  exact if_pos rfl

/-- The dirty bits after a write (20_memory.md R106): the tiles that the address backs are marked when the byte changes. -/
theorem State.isDirty_writeMemory {s : State} {a : Nat} (d : Byte) (ha : a < s.cfg.memSize) {u : TileId}
    (hu : u.toNat < s.cfg.nt) (hg : (s.cfg.tm u).Good) {i : Nat} (hi : i < (s.cfg.tm u).nTiles) :
    ((s.writeMemory a d).tm u).isDirty i = true ↔
      (s.tm u).isDirty i = true ∨ (d ≠ s.mem.read a ∧ a ∈ (s.cfg.tm u).backingAddrs i) := by
  rw [State.writeMemory_tm d ha]
  by_cases hd : d = s.mem.read a
  · simp [hd]
  · have hmarks : i ∈ (s.cfg.tm u).backedTiles a ↔ a ∈ (s.cfg.tm u).backingAddrs i := by
      rw [TilemapCfg.mem_backedTiles_iff hg, and_iff_right hi]
    simp [hd, hu, Tilemap.isDirty_markWrite, hmarks]

/-- The mark of the whole tilemap after a write (R106): set when the byte changes and is in character RAM. -/
theorem State.allDirty_writeMemory {s : State} {a : Nat} (d : Byte) (ha : a < s.cfg.memSize) {u : TileId}
    (hu : u.toNat < s.cfg.nt) :
    ((s.writeMemory a d).tm u).allDirty = true ↔
      (s.tm u).allDirty = true ∨ (d ≠ s.mem.read a ∧ (s.cfg.tm u).inCharRam a = true) := by
  rw [State.writeMemory_tm d ha]
  by_cases hd : d = s.mem.read a
  · simp [hd]
  · simp [hd, hu, Tilemap.markWrite_allDirty]

/-- Settles O14, from the marks of one memory write. -/
theorem wmemMarksWhatItChanges : Obligations.WmemMarksWhatItChanges := by
  intro s a d hw hh ha
  refine ⟨_, exec_wmem_live a d hh, ?_, fun u hu => ⟨fun i hi => ?_, ?_⟩⟩
  · rintro rfl
    exact State.writeMemory_tilemaps_same ha
  · exact State.isDirty_writeMemory d ha hu (s.cfg.good hw hu) hi
  · rw [← TilemapCfg.inCharRam_iff]
    exact State.allDirty_writeMemory d ha hu

/-! Every other command. -/

/-- The effect of a command other than WMEM leaves memory alone (R112): RESET initialises with `keepMem`, and a tick reads only. -/
theorem effect_mem {i : Instr} {s t : State} (h : effect i s = .next t) (hi : ∀ a d, i ≠ .wmem a d) : t.mem = s.mem := by
  cases i with
  | wmem a d => exact absurd rfl (hi a d)
  | wreg a d =>
    rcases effect_wreg_eq_next h with ⟨-, rfl⟩ | ⟨r, -, rfl⟩
    · rfl
    · rw [State.latchWrite_frame]
  | tick =>
    obtain ⟨-, hm, -⟩ := State.tick_frame h
    exact hm
  | reset => cases h; rw [State.initialise_frame]; rfl
  | redraw u x0 x1 y0 y1 => rw [State.redraw_eq_next h]; rfl
  | rreg a => cases h; rw [State.afterRead_frame]; rfl
  | lwrite r d => cases h; rw [State.latchWrite_frame]
  | boundary n => cases h; rw [State.afterBoundary_frame]
  | nop => cases h; rfl
  | getfb => cases h; rfl
  | markd u k => cases h; rfl
  | marka u => cases h; rfl
  | sprites x0 x1 y0 y1 => cases h; rfl
  | compose x0 x1 y0 y1 => cases h; rfl

/-- Settles O57: a refusal, a halted machine and the effect of every command but WMEM leave memory alone. -/
theorem onlyWmemWritesMemory : Obligations.OnlyWmemWritesMemory := by
  intro i s t h hi b
  rcases exec_eq_next h with ⟨-, rfl⟩ | ⟨-, -, rfl⟩ | ⟨-, -, he⟩
  · rfl
  · rfl
  · rw [effect_mem he hi]

end Machine

end Sys2Proof
end

section
/-! SUPPORT. The formats of a command word (30_encoding.md R141 to R145): a word is of a format, with given operands, exactly when
its fields are those. A format word is a row of fields side by side, so that all of it rests on one law about two neighbours. -/

namespace Sys2Proof

/-- A field of `m + n` bits holds two parts side by side exactly when its high and its low part hold them. -/
theorem Cmd.field_append_iff {m n : Nat} (w : Cmd) (k : Nat) (x : BitVec m) (y : BitVec n) :
    w.extractLsb' k (m + n) = x ++ y ↔ w.extractLsb' (k + n) m = x ∧ w.extractLsb' k n = y := by
  rw [← BitVec.extractLsb'_append_extractLsb'_eq_extractLsb' rfl]
  constructor
  · intro h
    constructor
    · rw [← BitVec.extractLsb'_append_eq_left (a := x) (b := y), ← h, BitVec.extractLsb'_append_eq_left]
    · rw [← BitVec.extractLsb'_append_eq_right (a := x) (b := y), ← h, BitVec.extractLsb'_append_eq_right]
  · rintro ⟨rfl, rfl⟩
    rfl

/-- A field of `m + n` bits is an operand of `n` bits exactly when its high part is 0 and its low part is the operand (R145). -/
theorem Cmd.field_eq_setWidth_iff {m n : Nat} (w : Cmd) (k : Nat) (y : BitVec n) :
    w.extractLsb' k (m + n) = y.setWidth (m + n) ↔ w.extractLsb' (k + n) m = 0 ∧ w.extractLsb' k n = y := by
  have hy : y.setWidth (m + n) = 0#m ++ y := by
    rw [BitVec.setWidth_eq_append (by omega)]
    simp
  rw [hy, Cmd.field_append_iff]
  rfl

theorem fieldAddr_eq_setWidth_iff (w : Cmd) (r : U16) :
    fieldAddr w = r.setWidth 30 ↔ fieldAddrHigh w = 0 ∧ fieldAddr16 w = r :=
  w.field_eq_setWidth_iff 24 r (m := 14)

theorem fieldData_eq_setWidth_iff (w : Cmd) (d : Byte) :
    fieldData w = d.setWidth 16 ↔ fieldDataHigh w = 0 ∧ fieldData8 w = d :=
  w.field_eq_setWidth_iff 0 d (m := 8)

theorem formatA_eq_iff (w : Cmd) (op : BitVec 8) (t : TileId) (addr : Addr) (data : U16) :
    formatA op t addr data = w ↔
      fieldOp w = op ∧ fieldT w = t ∧ fieldAddr w = addr ∧ fieldRsv w = 0 ∧ fieldData w = data := by
  calc formatA op t addr data = w
      ↔ w.extractLsb' 0 (8 + 2 + 30 + 8 + 16) = op ++ t ++ addr ++ 0#8 ++ data := by
        rw [BitVec.extractLsb'_eq_self]
        exact eq_comm
    _ ↔ _ := by
      simp only [Cmd.field_append_iff, and_assoc]
      rfl

theorem formatN_eq_iff (w : Cmd) (op : BitVec 8) : formatN op = w ↔ fieldOp w = op ∧ fieldZ w = 0 := by
  calc formatN op = w
      ↔ w.extractLsb' 0 (8 + 56) = op ++ 0#56 := by
        rw [BitVec.extractLsb'_eq_self]
        exact eq_comm
    _ ↔ _ := w.field_append_iff 0 op 0#56

theorem formatR_eq_iff (w : Cmd) (op : BitVec 8) (t : TileId) (x0 x1 y0 y1 : Bound) :
    formatR op t x0 x1 y0 y1 = w ↔
      fieldOp w = op ∧ fieldT w = t ∧ fieldRrsv w = 0 ∧ fieldX0 w = x0 ∧ fieldX1 w = x1 ∧ fieldY0 w = y0 ∧ fieldY1 w = y1 := by
  calc formatR op t x0 x1 y0 y1 = w
      ↔ w.extractLsb' 0 (8 + 2 + 6 + 12 + 12 + 12 + 12) = op ++ t ++ 0#6 ++ x0 ++ x1 ++ y0 ++ y1 := by
        rw [BitVec.extractLsb'_eq_self]
        exact eq_comm
    _ ↔ _ := by
      simp only [Cmd.field_append_iff, and_assoc]
      rfl

end Sys2Proof
end

section
/-! SUPPORT. The encoder (30_encoding.md R146) and the match and mask table (R147): the word of a command is the one word with its
OP byte, its zero fields and its operands, and a word matches a row exactly when it has the row's OP byte and zero fields. -/

namespace Sys2Proof

/-- The word of a command, by its fields: the OP byte of its mnemonic, the must-be-zero fields, the operands. -/
theorem encode_eq_iff (i : Instr) (w : Cmd) :
    encode i = w ↔ fieldOp w = i.op.byte ∧ i.op.zeroFields w = true ∧ i.op.operands w = i := by
  cases i with
  | nop | tick | getfb | reset =>
    simp [encode, formatN_eq_iff, Instr.op, Op.byte, Op.zeroFields, Op.operands]
  | wmem | wreg | rreg | markd | marka | lwrite | boundary =>
    simp [encode, formatA_eq_iff, fieldData_eq_setWidth_iff, fieldAddr_eq_setWidth_iff, Instr.op, Op.byte, Op.zeroFields,
      Op.operands, and_assoc, and_comm, and_left_comm]
  | redraw | sprites | compose =>
    simp [encode, formatR_eq_iff, Instr.op, Op.byte, Op.zeroFields, Op.operands, and_assoc, and_comm, and_left_comm]

/-- The `n` bits from bit `k` set to the value `c`, every other bit 0. -/
def fieldWord (k : Nat) {n : Nat} (c : BitVec n) : Cmd := c.setWidth 64 <<< k

/-- The mask of the `n` bits from bit `k`. -/
abbrev fieldMask (k n : Nat) : Cmd := fieldWord k (BitVec.allOnes n)

/-- A word compared under the mask of one field is that field compared. -/
theorem masked_field_iff {n : Nat} (w : Cmd) {k : Nat} (hk : k + n ≤ 64) (c : BitVec n) :
    w &&& fieldMask k n = fieldWord k c ↔ w.extractLsb' k n = c := by
  rw [Cmd.masked_iff, Cmd.field_iff]
  simp only [fieldMask, fieldWord, BitVec.getLsbD_shiftLeft, BitVec.getLsbD_setWidth, BitVec.getLsbD_allOnes]
  constructor
  · intro h i hi
    simpa [hi, show k + i < 64 by omega, show i < 64 by omega] using h (k + i) (by omega)
  · intro h i hi
    by_cases hki : k ≤ i ∧ i < k + n
    · obtain ⟨j, rfl⟩ := Nat.exists_eq_add_of_le hki.1
      have hj : j < n := by omega
      simpa [hi, hj, show j < 64 by omega] using h j hj
    · by_cases hk' : i < k
      · simp [hk']
      · have hn : ¬ i - k < n := by omega
        simp [hn, BitVec.getLsbD_of_ge c (i - k) (by omega)]

/-- The must-be-zero fields of a mnemonic (R146), each as its first bit and its width. -/
def Op.zeroRanges : Op → List (Nat × Nat)
  | .nop | .tick | .getfb | .reset => [(0, 56)]
  | .wmem => [(54, 2), (16, 8), (8, 8)]
  | .wreg => [(54, 2), (16, 8)]
  | .rreg => [(54, 2), (16, 8), (0, 16)]
  | .markd => [(16, 8), (0, 16)]
  | .marka => [(24, 30), (16, 8), (0, 16)]
  | .redraw => [(48, 6)]
  | .sprites | .compose => [(54, 2), (48, 6)]
  | .lwrite => [(54, 2), (40, 14), (16, 8)]
  | .boundary => [(54, 2), (40, 14), (16, 8), (0, 16)]

theorem Op.zeroFields_iff (o : Op) (w : Cmd) : o.zeroFields w = true ↔ ∀ f ∈ o.zeroRanges, w.extractLsb' f.1 f.2 = 0 := by
  cases o <;>
    (simp only [Op.zeroFields, Op.zeroRanges, Bool.and_eq_true, decide_eq_true_eq, List.forall_mem_cons, List.not_mem_nil,
      false_implies, implies_true, and_true, and_assoc]
     rfl)

/-- The mask of a list of fields. -/
def fieldsMask (l : List (Nat × Nat)) : Cmd := l.foldr (fun f m => fieldMask f.1 f.2 ||| m) 0

/-- A word is 0 under the mask of a list of fields exactly when each of the fields is 0. -/
theorem masked_fields_iff (w : Cmd) {l : List (Nat × Nat)} (hl : ∀ f ∈ l, f.1 + f.2 ≤ 64) :
    w &&& fieldsMask l = 0 ↔ ∀ f ∈ l, w.extractLsb' f.1 f.2 = 0 := by
  induction l with
  | nil => simp [fieldsMask]
  | cons f l ih =>
    obtain ⟨hf, hl⟩ := List.forall_mem_cons.mp hl
    have hzero : fieldWord f.1 (0 : BitVec f.2) = 0 := by simp [fieldWord]
    calc w &&& fieldsMask (f :: l) = 0
        ↔ (w &&& fieldMask f.1 f.2) ||| (w &&& fieldsMask l) = 0 := by rw [← BitVec.and_or_distrib_left]; rfl
      _ ↔ w &&& fieldMask f.1 f.2 = 0 ∧ w &&& fieldsMask l = 0 := BitVec.or_eq_zero_iff
      _ ↔ _ := by rw [ih hl, ← hzero, masked_field_iff w hf, List.forall_mem_cons]

/-- Where two masks share no bit and the value lies under the first one, a word has the value under both exactly when it has it
under the first one and is 0 under the second one. -/
theorem masked_or_iff {a b v : Cmd} (hab : a &&& b = 0) (hv : v &&& a = v) (w : Cmd) :
    w &&& (a ||| b) = v ↔ w &&& a = v ∧ w &&& b = 0 := by
  constructor
  · intro h
    have ha : w &&& (a ||| b) &&& a = w &&& a := by
      ext i
      grind
    have hb : w &&& (a ||| b) &&& b = w &&& b := by
      ext i
      grind
    rw [h] at ha hb
    refine ⟨ha.symm.trans hv, ?_⟩
    rw [← hb, ← hv, BitVec.and_assoc, hab]
    exact BitVec.and_zero
  · rintro ⟨ha, hb⟩
    rw [BitVec.and_or_distrib_left, ha, hb]
    exact BitVec.or_zero

/-- Each row of the table: the OP byte of its mnemonic under bits 63:56, and its must-be-zero fields below them. -/
theorem opRows_fields : ∀ r ∈ opRows,
    r.word = fieldWord 56 r.op.byte ∧ r.mask = fieldMask 56 8 ||| fieldsMask r.op.zeroRanges ∧
      fieldMask 56 8 &&& fieldsMask r.op.zeroRanges = 0 ∧ r.word &&& fieldMask 56 8 = r.word ∧
      ∀ f ∈ r.op.zeroRanges, f.1 + f.2 ≤ 64 := by
  decide

/-- A word matches a row exactly when it has the row's OP byte and its must-be-zero fields are 0. -/
theorem OpRow.masked_iff {r : OpRow} (hr : r ∈ opRows) (w : Cmd) :
    w &&& r.mask = r.word ↔ fieldOp w = r.op.byte ∧ r.op.zeroFields w = true := by
  obtain ⟨hword, hmask, hdisj, hunder, hfit⟩ := opRows_fields r hr
  rw [hmask, masked_or_iff hdisj hunder, hword, masked_field_iff w (by decide), masked_fields_iff w hfit, Op.zeroFields_iff]
  rfl

/-- Every mnemonic has a row. -/
theorem Op.exists_row (o : Op) : ∃ r ∈ opRows, r.op = o := by
  cases o <;> decide

/-- The rows are disjoint: the OP byte of a word that matches a row is the row's, and it names the row. -/
theorem opRows_disjoint {r q : OpRow} (hr : r ∈ opRows) (hq : q ∈ opRows) {w : Cmd} (hrw : w &&& r.mask = r.word)
    (hqw : w &&& q.mask = q.word) : r = q := by
  obtain ⟨hrb, -⟩ := (OpRow.masked_iff hr w).mp hrw
  obtain ⟨hqb, -⟩ := (OpRow.masked_iff hq w).mp hqw
  exact opRows_byte_inj r hr q hq (hrb.symm.trans hqb)

end Sys2Proof
end

section
/-! SUPPORT. The decoder (30_encoding.md R147, R160 to R162): which words are a command, and which command; which
words are illegal. -/

namespace Sys2Proof

/-- A word that decodes to a command matches a row of the table, and the command has the row's mnemonic and the word's operands. -/
theorem exists_row_of_decode {w : Cmd} {i : Instr} (h : decode w = .command i) :
    ∃ r ∈ opRows, w &&& r.mask = r.word ∧ r.op.operands w = i := by
  rcases find_opRow w with hnone | ⟨r, hr, hfind, hw⟩
  · exact absurd h (decode_of_no_row hnone i)
  · refine ⟨r, hr, hw, ?_⟩
    unfold decode at h
    rw [hfind] at h
    exact Decoded.command.inj h

/-- The search finds the row that a word matches: there is no other one. -/
theorem find_opRow_of_masked {r : OpRow} (hr : r ∈ opRows) {w : Cmd} (hw : w &&& r.mask = r.word) :
    (opRows.find? fun r => r.matches w) = some r := by
  rcases find_opRow w with hnone | ⟨q, hq, hfind, hqw⟩
  · have := List.find?_eq_none.mp hnone r hr
    simp [OpRow.matches, hw] at this
  · rw [hfind, opRows_disjoint hq hr hqw hw]

theorem decode_of_masked {r : OpRow} (hr : r ∈ opRows) {w : Cmd} (hw : w &&& r.mask = r.word) :
    decode w = .command (r.op.operands w) := by
  unfold decode
  rw [find_opRow_of_masked hr hw]

@[simp] theorem Op.op_operands (o : Op) (w : Cmd) : (o.operands w).op = o := by
  cases o <;> rfl

/-- A word decodes to a command exactly when it has the OP byte of the command, its zero fields and its operands. -/
theorem decode_eq_command_iff (w : Cmd) (i : Instr) :
    decode w = .command i ↔ fieldOp w = i.op.byte ∧ i.op.zeroFields w = true ∧ i.op.operands w = i := by
  constructor
  · intro h
    obtain ⟨r, hr, hw, rfl⟩ := exists_row_of_decode h
    obtain ⟨hop, hzero⟩ := (OpRow.masked_iff hr w).mp hw
    rw [Op.op_operands]
    exact ⟨hop, hzero, rfl⟩
  · rintro ⟨hop, hzero, hi⟩
    obtain ⟨r, hr, hri⟩ := i.op.exists_row
    rw [decode_of_masked hr ((OpRow.masked_iff hr w).mpr (hri ▸ ⟨hop, hzero⟩)), hri, hi]

/-- The decoder and the encoder are inverse: both say that the word has the fields of the command. -/
theorem decode_eq_command_iff_encode_eq (w : Cmd) (i : Instr) : decode w = .command i ↔ encode i = w := by
  rw [decode_eq_command_iff, encode_eq_iff]

/-- Settles O3: the word of a command has the fields of the command. -/
theorem decodeOfEncode : Obligations.DecodeOfEncode :=
  fun i => (decode_eq_command_iff_encode_eq (encode i) i).mpr rfl

/-- Settles O4: a word with the fields of a command is the word of the command. -/
theorem encodeOfDecode : Obligations.EncodeOfDecode :=
  fun w i => (decode_eq_command_iff_encode_eq w i).mp

/-- Settles O6, from the decomposition of each mask into the fields that it covers. -/
theorem matchTableAgreesWithOpcodeMap : Obligations.MatchTableAgreesWithOpcodeMap :=
  fun _ hr w => OpRow.masked_iff hr w

/-- A word decodes through a row of the table exactly when it matches the row. -/
theorem decode_row_iff {r : OpRow} (hr : r ∈ opRows) (w : Cmd) :
    decode w = .command (r.op.operands w) ↔ w &&& r.mask = r.word := by
  rw [decode_eq_command_iff, OpRow.masked_iff hr, Op.op_operands, eq_self, and_true]

/-- The OP bytes of the rows' match words differ. -/
theorem opRows_word_byte_inj {r q : OpRow} (hr : r ∈ opRows) (hq : q ∈ opRows)
    (h : fieldOp r.word = fieldOp q.word) : r = q := by
  rw [opRows_byte r hr, opRows_byte q hq] at h
  exact opRows_byte_inj r hr q hq h

/-- Settles O5: the table and its masks by evaluation, the other parts from the fields of a row. -/
theorem decodeIsMatchAndMask : Obligations.DecodeIsMatchAndMask :=
  ⟨by decide, fun _ hr w => decode_row_iff hr w, fun _ hr _ hq _ => opRows_disjoint hr hq,
    fun _ hr _ hq => opRows_word_byte_inj hr hq, by decide⟩

/-- No mnemonic has a reserved OP byte (R161). -/
theorem Op.byte_assigned (o : Op) :
    ¬ ((7 ≤ o.byte.toNat ∧ o.byte.toNat ≤ 0x0F) ∨ 0x17 ≤ o.byte.toNat) := by
  cases o <;> decide

/-- A word whose OP byte is no mnemonic's is illegal for its opcode. -/
theorem decode_reserved {w : Cmd} (h : ∀ o : Op, fieldOp w ≠ o.byte) : decode w = .illegal (.reservedOpcode (fieldOp w)) := by
  have hmatch : (opRows.find? fun r => r.matches w) = none := by
    rcases find_opRow w with hnone | ⟨r, hr, -, hw⟩
    · exact hnone
    · exact absurd ((OpRow.masked_iff hr w).mp hw).1 (h r.op)
  have hop : rowOfOp w = none := by
    refine List.find?_eq_none.mpr fun r hr => ?_
    rw [opRows_byte r hr, decide_eq_true_eq]
    exact (h r.op).symm
  unfold decode
  rw [hmatch, hop]

/-- Settles O7: no row has a reserved OP byte, and the zero word is the encoding of NOP. -/
theorem reservedOpcodesAreIllegal : Obligations.ReservedOpcodesAreIllegal := by
  refine ⟨fun w hw => decode_reserved fun o ho => o.byte_assigned (ho ▸ hw), fun w => ?_⟩
  rw [decode_eq_command_iff_encode_eq, eq_comm]
  exact Iff.rfl

namespace Machine

/-- Settles O8: each text assembles to the encoding of its command, which decodes to it. -/
theorem encodingExamples : Obligations.EncodingExamples :=
  ⟨⟨by decide, decodeOfEncode (.wmem 0x10 0x41)⟩, ⟨by decide, decodeOfEncode (.wreg 3 0x20)⟩,
    ⟨by decide, decodeOfEncode (.rreg 0x10)⟩, ⟨by decide, decodeOfEncode .tick⟩,
    ⟨by decide, decodeOfEncode (.lwrite 0x1000 10)⟩, ⟨by decide, decodeOfEncode (.boundary 50)⟩,
    ⟨by decide, decodeOfEncode (.redraw 1 0 255 16 16)⟩⟩

end Machine

end Sys2Proof
end

section
/-! SUPPORT. Illegal words (30_encoding.md R160) and the step that refuses them. -/

namespace Sys2Proof

/-- The two refusals by value (R160 (b) and (c)) are what makes a decoded command not legal. -/
theorem Op.legal_operands_eq_false_iff (o : Op) {w : Cmd} (hop : fieldOp w = o.byte) (c : Config) :
    (o.operands w).legal c = false ↔
      ((fieldOp w = 0x10 ∨ fieldOp w = 0x11 ∨ fieldOp w = 0x12) ∧ c.nt ≤ (fieldT w).toNat) ∨
        (fieldOp w = 0x10 ∧ (c.tm (fieldT w)).nTiles ≤ (fieldAddr w).toNat) := by
  rw [hop]
  cases o <;> simp [Op.operands, Op.byte, Instr.legal, or_iff_not_imp_left]

namespace Machine

/-- A word is illegal exactly when it decodes to no legal command. -/
theorem illegalWord_iff (c : Config) (w : Cmd) :
    illegalWord c w ↔ ∀ i, decode w = .command i → i.legal c = false := by
  by_cases hrow : ∃ r ∈ opRows, w &&& r.mask = r.word
  · obtain ⟨r, hr, hw⟩ := hrow
    obtain ⟨hop, -⟩ := (OpRow.masked_iff hr w).mp hw
    have hno : ¬ ∀ q ∈ opRows, w &&& q.mask ≠ q.word := fun h => h r hr hw
    rw [decode_of_masked hr hw]
    simp only [illegalWord, hno, false_or, Decoded.command.injEq, forall_eq', r.op.legal_operands_eq_false_iff hop]
  · have hno : ∀ r ∈ opRows, w &&& r.mask ≠ r.word := fun r hr hw => hrow ⟨r, hr, hw⟩
    refine iff_of_true (.inl hno) fun i h => ?_
    obtain ⟨r, hr, hw, -⟩ := exists_row_of_decode h
    exact absurd hw (hno r hr)

theorem step_of_illegal {s : State} {w : Cmd} {rest : List Cmd} {e : DecodeError} (hs : s.stream = w :: rest)
    (hd : decode w = .illegal e) : step s = .next ({ s with stream := rest } : State).refuse := by
  unfold step
  rw [hs]
  dsimp only
  rw [hd]

theorem step_of_command {s : State} {w : Cmd} {rest : List Cmd} {i : Instr} (hs : s.stream = w :: rest)
    (hd : decode w = .command i) : step s = exec i { s with stream := rest } := by
  unfold step
  rw [hs]
  dsimp only
  rw [hd]

theorem exec_illegal {i : Instr} {s : State} (hl : i.legal s.cfg = false) : exec i s = .next s.refuse := by
  rw [exec_eq, command_illegal hl]

/-- A legal command leaves the mark of a refusal as it is. -/
theorem exec_legal_refused {i : Instr} {s t : State} (hl : i.legal s.cfg = true) (h : exec i s = .next t) :
    t.refused = s.refused := by
  rcases exec_eq_next h with ⟨hill, -⟩ | ⟨-, -, rfl⟩ | ⟨-, -, he⟩
  · rw [hl] at hill
    cases hill
  · rfl
  · obtain ⟨-, -, hr, -⟩ := effect_frame he
    exact hr

/-- Settles O2: a word is illegal when the decoder refuses it or the command it decodes to is refused by value. -/
theorem exactlyIllegalWordsAreRefused : Obligations.ExactlyIllegalWordsAreRefused := by
  intro s w rest hs
  rw [illegalWord_iff]
  cases hd : decode w with
  | illegal e => exact ⟨fun _ => step_of_illegal hs hd, fun h => absurd (fun _ hi => nomatch hi) h⟩
  | command i =>
    simp only [Decoded.command.injEq, forall_eq', exists_eq_left', Bool.not_eq_false]
    rw [step_of_command hs hd]
    exact ⟨exec_illegal (s := { s with stream := rest }),
      fun hl => ⟨hl, fun _ => exec_legal_refused (s := { s with stream := rest }) hl⟩⟩

end Machine

end Sys2Proof
end

section
/-! SUPPORT. The palette (40_palette.md): a decoded channel, the raw bytes of an entry, the entry that a WMEM decodes again, the
pens of the displayed bank. -/

namespace Sys2Proof.Machine

/-! The decode of an entry (R202). -/

/-- A value clamped to a byte's range lies in it. -/
theorem clampInt_byte_range (v : Int) : 0 ≤ clampInt v 0 255 ∧ clampInt v 0 255 ≤ 255 := by
  unfold clampInt
  omega

/-- A selected bit contributes its weight, as one or zero times it. -/
theorem toNat_chan (table : List ChWeight) (b : List Byte) :
    ((chan table b).toNat : Int) =
      min (max (table.map fun w => w.weight * (if (b.getD w.k 0).getLsbD w.bit then 1 else 0)).sum 0) 255 := by
  simp only [mul_ite, mul_one, mul_zero]
  obtain ⟨hlo, hhi⟩ :=
    clampInt_byte_range (table.map fun w => if (b.getD w.k 0).getLsbD w.bit then w.weight else 0).sum
  rw [chan, BitVec.toNat_ofInt, Int.emod_eq_of_lt hlo (by omega), Int.toNat_of_nonneg hlo, clampInt]

/-- Settles O23: the three channels of an entry are one sum over three tables. -/
theorem channelIsTheClampedWeightedSum : Obligations.ChannelIsTheClampedWeightedSum :=
  fun p b => ⟨toNat_chan p.chR b, toNat_chan p.chG b, toNat_chan p.chB b⟩

/-! Pens (R206). -/

/-- What a well-formed configuration says of its palette banks (00_scope.md R11). -/
theorem Config.palBanks {c : Config} (hw : c.wf = true) :
    1 ≤ c.pal.numBanks ∧ 1 ≤ c.pal.bankSize ∧ c.pal.numBanks * c.pal.bankSize ≤ 65536 := by
  have hpos := c.wf_holds hw .palBanksPositive
  have hle := c.wf_holds hw .palEntriesRange
  simp only [ConfigCheck.holds, Bool.and_eq_true, decide_eq_true_eq] at hpos hle
  exact ⟨hpos.1, hpos.2, hle⟩

/-- The displayed bank begins at a multiple of the bank size and ends within the palette. -/
theorem bankBase_add_bankSize_le {c : Config} (hw : c.wf = true) (g : Regs) :
    bankBase c g + c.pal.bankSize ≤ c.pal.numBanks * c.pal.bankSize := by
  obtain ⟨hbanks, -, -⟩ := Config.palBanks hw
  have hbank : g.paletteBank.toNat % c.pal.numBanks < c.pal.numBanks := Nat.mod_lt _ hbanks
  calc bankBase c g + c.pal.bankSize
      = (g.paletteBank.toNat % c.pal.numBanks + 1) * c.pal.bankSize := (Nat.succ_mul _ _).symm
    _ ≤ c.pal.numBanks * c.pal.bankSize := Nat.mul_le_mul_right _ hbank

/-- Settles O24: the offset in the bank is below the bank size and the palette has at most 65536 entries, so that a pen fits in
its 16 bits. -/
theorem pensStayInTheDisplayedBank : Obligations.PensStayInTheDisplayedBank := by
  intro c g base color bpp v hw
  obtain ⟨-, hsize, hentries⟩ := Config.palBanks hw
  have hoff : (base + color * 2 ^ bpp + v) % c.pal.bankSize < c.pal.bankSize := Nat.mod_lt _ hsize
  have hend := bankBase_add_bankSize_le hw g
  have hpen : (penOf c g base color bpp v).toNat =
      bankBase c g + (base + color * 2 ^ bpp + v) % c.pal.bankSize := by
    rw [penOf, BitVec.toNat_ofNat, Nat.mod_eq_of_lt (by omega)]
  exact ⟨hpen, by omega⟩

/-! The raw bytes of an entry (R200). -/

@[simp] theorem length_rawBytes (c : Config) (m : Memory) (i : Nat) : (rawBytes c m i).length = c.pal.bytes := by
  simp [rawBytes]

theorem getElem?_rawBytes (c : Config) (m : Memory) (i : Nat) {k : Nat} (hk : k < c.pal.bytes) :
    (rawBytes c m i)[k]? = some (rawByte c m i k) := by
  simp [rawBytes, hk]

theorem rawByte_dynamicRam {c : Config} (hkind : c.pal.kind = .dynamicRam) (m : Memory) (i k : Nat) :
    rawByte c m i k = m.read (c.pal.ramAddr i k) := by
  rw [rawByte, hkind]

/-- A raw byte of a static palette is the PROM's byte at its offset, which a PROM that is long enough has. -/
theorem rawByte_staticProm {c : Config} (hw : c.wf = true) (hkind : c.pal.kind = .staticProm) {rom : List Byte}
    (hrom : c.region c.pal.promRegion = some rom) (hlen : c.pal.promLenMin ≤ rom.length) (m : Memory) {i k : Nat}
    (hi : i < c.pal.entries) (hk : k < c.pal.bytes) :
    some (rawByte c m i k) = rom[(c.pal.off i k).toNat]? ∧ 0 ≤ c.pal.off i k ∧ (c.pal.off i k).toNat < rom.length := by
  obtain ⟨hlo, hhi⟩ := PalCfg.off_inside hw hkind hi hk
  have hlt : (c.pal.off i k).toNat < rom.length := by omega
  have hprom : c.prom = rom := by rw [Config.prom, hrom, Option.getD_some]
  refine ⟨?_, hlo, hlt⟩
  rw [rawByte, hkind, hprom, List.getElem?_eq_getElem hlt]
  exact congrArg some (List.getD_eq_getElem _ _ hlt)

/-! The palette write path (R204). -/

/-- An address that is no byte of palette RAM belongs to no entry. -/
theorem PalCfg.entryAt_eq_none {p : PalCfg} {a : Nat}
    (h : ∀ i k, p.kind = .dynamicRam → i < p.entries → k < p.bytes → (a : Int) ≠ p.ramPos i k) : p.entryAt a = none := by
  unfold PalCfg.entryAt
  split
  · rfl
  · next hkind =>
    refine List.find?_eq_none.mpr fun i hi => ?_
    simp only [List.any_eq_true, List.mem_range, decide_eq_true_eq, not_exists, not_and]
    exact fun k hk => h i k hkind (List.mem_range.mp hi) hk

/-- A write to no byte of palette RAM leaves the palette as it is, inside VideoMemoryRegion or not. -/
theorem State.writeMemory_pal_of_no_entry {s : State} {a : Nat} (d : Byte) (h : s.cfg.pal.entryAt a = none) :
    (s.writeMemory a d).pal = s.pal := by
  by_cases ha : a < s.cfg.memSize
  · rw [State.writeMemory_eq d ha]
    simp only [paletteAfterWrite, h]
  · rw [State.writeMemory_outside d ha]

/-- An entry after a write to memory: decoded from the bytes after the store if it holds the address, else as before. -/
theorem State.rgb_writeMemory {s : State} {a : Nat} (d : Byte) (ha : a < s.cfg.memSize) (j : Nat) :
    (s.writeMemory a d).rgb j =
      if s.cfg.pal.entryAt a = some j then entryRgb s.cfg.pal (rawBytes s.cfg (s.writeMemory a d).mem j) else s.rgb j := by
  rw [State.writeMemory_eq d ha]
  exact getD_paletteAfterWrite _ _ _ _ _

/-- The byte read back after a write inside VideoMemoryRegion. -/
theorem State.read_writeMemory_same {s : State} {a : Nat} (d : Byte) (ha : a < s.cfg.memSize) :
    (s.writeMemory a d).mem.read a = d := by
  rw [State.writeMemory_eq d ha, Memory.read_write, if_pos rfl]

/-- Settles O15: the bytes of distinct entries have distinct addresses inside VideoMemoryRegion, so that the entry which the
write path finds is the one that holds the address. -/
theorem wmemUpdatesThePaletteEntry : Obligations.WmemUpdatesThePaletteEntry := by
  intro s a d hw hh p off
  refine ⟨fun m i => ⟨length_rawBytes _ m i, fun k hk => ?_⟩, fun i k hkind hi hk ha => ?_, fun hno => ?_⟩
  · rw [getElem?_rawBytes _ m i hk]
    exact ⟨fun hkind => congrArg some (rawByte_dynamicRam hkind m i k),
      fun rom hkind hrom hlen hi => rawByte_staticProm hw hkind hrom hlen m hi hk⟩
  · have hentry : s.cfg.pal.entryAt a.toNat = some i := PalCfg.entryAt_eq hkind hi hk (PalCfg.off_inj hw) ha
    have hmem : a.toNat < s.cfg.memSize := by
      obtain ⟨-, hlt⟩ := PalCfg.ramPos_inside hw hkind hi hk
      exact Int.ofNat_lt.mp (ha.trans_lt hlt)
    refine ⟨_, exec_wmem_live a d hh, State.read_writeMemory_same d hmem, ?_, fun j hj => ?_⟩
    · rw [State.rgb_writeMemory d hmem, if_pos hentry]
    · rw [State.rgb_writeMemory d hmem, hentry, if_neg fun h => hj (Option.some.inj h).symm]
  · exact ⟨_, exec_wmem_live a d hh, State.writeMemory_pal_of_no_entry d (PalCfg.entryAt_eq_none hno)⟩

/-! The invariant of the palette (R205). -/

/-- Settles O25: the words of the stream and the mark of a refusal take no part in the invariant, and the effect of every command
keeps it. -/
theorem paletteStaysTheDecodeOfItsBytes : Obligations.PaletteStaysTheDecodeOfItsBytes := by
  intro s t hb hp h
  have htake : ∀ rest, State.PalCoherent { s with stream := rest } :=
    fun rest => State.palCoherent_congr (s := s) rfl rfl rfl hp
  rcases step_cases h with rfl | ⟨rest, rfl | rfl | ⟨i, -, -, he⟩⟩
  · exact hp
  · exact htake rest
  · exact State.palCoherent_congr (s := { s with stream := rest }) rfl rfl rfl (htake rest)
  · exact State.PalCoherent.effect (s := { s with stream := rest }) hb (htake rest) he

end Sys2Proof.Machine
end

section
/-! SUPPORT. The tilemap engine (41_tilemap.md): the marks of MARKD and MARKA, what a REDRAW draws and cleans, the wrap of the
scroll, the global flips, and the coherence of the tile cache over a step. -/

namespace Sys2Proof.Machine

/-! Coherence over a step (R245). -/

/-- Settles O51: the stream and the mark of a refusal take no part in a decode, and the effect of every legal command keeps the
tile cache coherent. -/
theorem coherenceIsKept : Obligations.CoherenceIsKept := by
  intro s t hb hs h
  have htake : ∀ rest, State.Coherent { s with stream := rest } :=
    fun rest => State.coherent_congr (s := s) rfl rfl rfl rfl hs
  obtain ⟨hw, -⟩ := (buildable_iff _).mp hb
  rcases step_cases h with rfl | ⟨rest, rfl | rfl | ⟨i, hl, -, he⟩⟩
  · exact hs
  · exact htake rest
  · exact State.coherent_congr (s := { s with stream := rest }) rfl rfl rfl rfl (htake rest)
  · exact State.Coherent.effect (s := { s with stream := rest }) hw hl (htake rest) he

/-! The marks (R230, R231). -/

/-- A change of one tilemap leaves every other tilemap and every other field as it is. -/
theorem State.setTm_frame (s : State) (t : TileId) (m : Tilemap) :
    (∀ v, v ≠ t → (s.setTm t m).tm v = s.tm v) ∧ s.setTm t m = { s with tilemaps := (s.setTm t m).tilemaps } := by
  refine ⟨fun v hv => ?_, rfl⟩
  rw [State.tm_setTm, if_neg hv.symm]

theorem State.tm_setTm_same (s : State) (t : TileId) (m : Tilemap) : (s.setTm t m).tm t = m := by
  rw [State.tm_setTm, if_pos rfl]

/-- Settles O34. -/
theorem markdMarksOneTile : Obligations.MarkdMarksOneTile := by
  intro s t i hh ht hi
  have hl : (Instr.markd t i).legal s.cfg = true := by simp [Instr.legal, ht, hi]
  obtain ⟨hother, hrest⟩ := s.setTm_frame t ((s.tm t).markDirty i.toNat)
  refine ⟨_, exec_live hl hh, ?_, fun j hj => ?_, ?_, hother, hrest⟩
  · simp
  · simp [Ne.symm hj]
  · rw [State.tm_setTm_same]
    rfl

/-- Settles O35. -/
theorem markaMarksEveryTile : Obligations.MarkaMarksEveryTile := by
  intro s t hh ht
  have hl : (Instr.marka t).legal s.cfg = true := by simp [Instr.legal, ht]
  obtain ⟨hother, hrest⟩ := s.setTm_frame t (s.tm t).markAll
  exact ⟨_, exec_live hl hh, State.tm_setTm_same s t _, hother, hrest⟩

/-! REDRAW (R238). -/

/-- REDRAW of one of the machine's tilemaps on a live machine is the redraw with the applied values. -/
theorem exec_redraw_live {s : State} {t : TileId} (x0 x1 y0 y1 : Bound) (hh : s.halted = false) (ht : t.toNat < s.cfg.nt) :
    exec (.redraw t x0 x1 y0 y1) s = s.redraw t (Clip.ofBounds x0 x1 y0 y1) (s.redrawArgs t) :=
  exec_live (by simp [Instr.legal, ht]) hh

/-- The tilemap after a redraw with the applied values. -/
def State.redrawn (s : State) (t : TileId) (k : Clip) : Tilemap :=
  blit s.cfg t k (s.redrawArgs t) (s.decodeVisible t k (s.redrawArgs t))

/-- A pixel of the layer after a redraw of a coherent tilemap: in the clip the fresh pixel of its source position, elsewhere as
before. -/
theorem State.redrawn_layer {s : State} {t : TileId} (hg : (s.cfg.tm t).Good) (hc : s.CoherentAt t) (k : Clip) (y x : Nat) :
    Sparse.getD CachePixel.zero (s.redrawn t k).layer (y, x) =
      if k.contains s.cfg (y, x) = true then s.freshAt t (s.sourceAt t y x) else s.layerAt t (y, x) := by
  unfold State.redrawn
  rw [getD_blit_layer]
  split
  · next hk =>
    rw [Sparse.getD, State.find_decodeVisible hg ((s.coherentAt_iff t).mp hc) hk, State.srcPos_redrawArgs hg]
    rfl
  · rw [State.decodeVisible_layer hg]
    rfl

/-- Settles O36: a redraw of a coherent tilemap completes, and blits the fresh pixels of its clip. -/
theorem redrawDrawsFreshPixels : Obligations.RedrawDrawsFreshPixels := by
  intro s t x0 x1 y0 y1 hw hh ht hc g inClip j sx sy
  have hg := s.cfg.good hw ht
  have hrun : exec (.redraw t x0 x1 y0 y1) s = .next (s.setTm t (s.redrawn t (Clip.ofBounds x0 x1 y0 y1))) := by
    rw [exec_redraw_live x0 x1 y0 y1 hh ht]
    exact State.redraw_completes hg _ _ ((s.coherentAt_iff t).mp hc)
  have hlayer : ∀ y x, (s.setTm t (s.redrawn t (Clip.ofBounds x0 x1 y0 y1))).layerAt t (y, x) =
      if inClip y x then s.freshAt t (s.sourceAt t y x) else s.layerAt t (y, x) := by
    intro y x
    rw [State.layerAt, State.tm_setTm_same, State.redrawn_layer hg hc]
    simp only [Clip.contains_ofBounds, inClip]
  obtain ⟨hother, hrest⟩ := s.setTm_frame t (s.redrawn t (Clip.ofBounds x0 x1 y0 y1))
  refine ⟨_, hrun, fun y x hin => ?_, fun y x hout => ?_, hother, hrest⟩
  · rw [hlayer, if_pos hin]
    rfl
  · rw [hlayer, if_neg hout]

/-- Settles O37: the decodes start from the expanded bits and clear those of the tiles that the clip sees. -/
theorem redrawCleansItsVisibleCells : Obligations.RedrawCleansItsVisibleCells := by
  intro s u t x0 x1 y0 y1 hw hh ht h seen
  have hg := s.cfg.good hw ht
  rw [exec_redraw_live x0 x1 y0 y1 hh ht] at h
  have hu : u.tm t = s.redrawn t (Clip.ofBounds x0 x1 y0 y1) := by
    rw [State.redraw_eq_next h, State.tm_setTm_same]
    rfl
  have hseen : ∀ i, seen i ↔ ∃ y x, (Clip.ofBounds x0 x1 y0 y1).contains s.cfg (y, x) = true ∧ s.tileSeen t y x = i := by
    simp only [seen, Clip.contains_ofBounds, and_assoc, implies_true]
  have hdirty : ∀ i, i < (s.cfg.tm t).nTiles →
      ((u.tm t).isDirty i = true ↔ ((s.tm t).isDirty i = true ∨ (s.tm t).allDirty = true) ∧ ¬ seen i) := by
    intro i hi
    rw [hu, hseen]
    exact State.isDirty_redrawn hg _ hi
  refine ⟨?_, hdirty, fun hall i hi => ?_⟩
  · rw [hu]
    exact State.decodeVisible_allDirty hg _ _
  · rw [Bool.eq_false_iff, Ne, hdirty i hi]
    exact fun hd => hd.2 (hall i hi)

/-! The wrap of the scroll (R247). -/

/-- Where every entry of a scroll array is one period further, so is the entry of every row. -/
theorem scrollEntry_add {a b : List U16} {n period : Nat} (hn : 1 ≤ n) (hlen : a.length = n)
    (hab : ∀ j, j < a.length → (b.getD j 0).toNat = (a.getD j 0).toNat + period) (group : Nat) (rs : Bool) (y : Nat) :
    scrollEntry b n group rs y = scrollEntry a n group rs y + period :=
  hab _ ((Nat.mod_lt _ hn).trans_eq hlen.symm)

/-- Settles O38: the source positions are taken modulo the tilemap size, and a redraw depends on the scroll through them only. -/
theorem scrollWrapsAtTheTilemapSize : Obligations.ScrollWrapsAtTheTilemapSize := by
  intro s t k a b hw ht hsx hsy hfx hfy hrs
  have hg := s.cfg.good hw ht
  refine ⟨fun hy hx => State.redraw_congr hfx hfy fun p => ?_, fun hx hy => State.redraw_congr hfx hfy fun p => ?_⟩
  · simp only [srcPos, hrs, hy, scrollEntry_add hg.scrollNX.1 hsx hx, ← Nat.add_assoc, Nat.add_mod_right]
  · simp only [srcPos, hrs, hx, scrollEntry_add hg.scrollNY.1 hsy hy, ← Nat.add_assoc, Nat.add_mod_right]

/-! The global flips (R243). -/

/-- A tile flipped by its own bit and by the global one is the tile flipped by its own bit, read at the mirrored pixel. -/
theorem mirror_xor (f h : Bool) {n v : Nat} (hv : v < n) : mirror (xor f h) n v = mirror f n (mirror h n v) := by
  cases f
  · simp [mirror]
  · cases h
    · simp [mirror]
    · simp [mirror]
      omega

/-- The cell and the pixel within it of a mirrored coordinate: the mirrored cell, and the mirrored pixel. -/
theorem mirror_split (f : Bool) {cells size v : Nat} (hs : 0 < size) (hv : v < cells * size) :
    mirror f (cells * size) v / size = mirror f cells (v / size) ∧
      mirror f (cells * size) v % size = mirror f size (v % size) := by
  cases f
  · exact ⟨rfl, rfl⟩
  · exact mirror_div_mod hs hv

/-- The pixel that a decode under given flips writes at a cache position (Y, X) (R237). -/
def State.decodedAt (s : State) (t : TileId) (fx fy : Bool) (q : Nat × Nat) : CachePixel :=
  s.decoded t fx fy (cellOf (s.cfg.tm t) fx fy q) (q.2 % (s.cfg.tm t).tileW) (q.1 % (s.cfg.tm t).tileH)

/-- Under the global flips a tile's pixel is its unflipped pixel at the mirrored place of the cell. -/
theorem State.cellPixel_flip (s : State) (t : TileId) (fx fy : Bool) (e : TileEntry) {px py : Nat}
    (hpx : px < (s.cfg.tm t).tileW) (hpy : py < (s.cfg.tm t).tileH) :
    s.cellPixel t fx fy e px py =
      s.cellPixel t false false e (mirror fx (s.cfg.tm t).tileW px) (mirror fy (s.cfg.tm t).tileH py) := by
  simp only [State.cellPixel, mirror_xor _ _ hpx, mirror_xor _ _ hpy, Bool.xor_false]

/-- The bytes from which the provider makes a tile, plane by plane (R235). -/
theorem State.map_read_backingAddrs (s : State) (g : TilemapCfg) (i : Nat) :
    (g.backingAddrs i).map s.mem.read =
      g.backing.flatMap fun p => (List.range p.nbytes).map fun k => s.mem.read (p.base + i * p.nbytes + k) := by
  simp only [TilemapCfg.backingAddrs, List.map_flatMap, List.map_map, Function.comp_def]

/-- The pixel of a tile under no global flip, by its own flips (R237). -/
theorem State.cellPixel_unflipped (s : State) (t : TileId) (e : TileEntry) (px py : Nat) :
    s.cellPixel t false false e px py =
      let g := s.cfg.tm t
      let v := s.tilePix t e (mirror e.flipX g.tileW px) (mirror e.flipY g.tileH py)
      ⟨penOf s.cfg s.active g.penBase e.colorIndex.toNat g.bpp v, decide (g.tpen ≠ some v), e.priority⟩ := by
  simp only [State.cellPixel, Bool.xor_false]

/-- A global flip mirrors the whole tilemap (R243). -/
theorem State.decodedAt_flip {s : State} {t : TileId} (hg : (s.cfg.tm t).Good) (fx fy : Bool) {y x : Nat}
    (hx : x < (s.cfg.tm t).tmW) (hy : y < (s.cfg.tm t).tmH) :
    s.decodedAt t fx fy (y, x) =
      s.decodedAt t false false (mirror fy (s.cfg.tm t).tmH y, mirror fx (s.cfg.tm t).tmW x) := by
  obtain ⟨hcol, hpx⟩ := mirror_split fx hg.tileW hx
  obtain ⟨hrow, hpy⟩ := mirror_split fy hg.tileH hy
  have hcell : cellOf (s.cfg.tm t) fx fy (y, x) =
      cellOf (s.cfg.tm t) false false (mirror fy (s.cfg.tm t).tmH y, mirror fx (s.cfg.tm t).tmW x) :=
    Prod.ext hcol.symm hrow.symm
  rw [State.decodedAt, State.decodedAt, ← hcell, State.decoded,
    State.cellPixel_flip s t fx fy _ (Nat.mod_lt _ hg.tileW) (Nat.mod_lt _ hg.tileH)]
  exact (congrArg₂ (s.decoded t false false (cellOf (s.cfg.tm t) fx fy (y, x))) hpx hpy).symm

/-- Settles O39: the flips act through the mirrored position only, and the unflipped pixel there is R237's. -/
theorem globalFlipMirrorsTheTilemap : Obligations.GlobalFlipMirrorsTheTilemap := by
  intro s t fx fy x y hw ht g hx hy decoded X Y i bytes e px py gfx v pen
  have hflip : decoded fx fy (y, x) = decoded false false (Y, X) := State.decodedAt_flip (s.cfg.good hw ht) fx fy hx hy
  have htile : s.tileInfo t i = e :=
    congrArg (g.tileInfo.eval i · s.active.gfxBank) (s.map_read_backingAddrs g i)
  have hunflipped : decoded false false (Y, X) = ⟨BitVec.ofNat 16 pen, decide (g.tpen ≠ some v), e.priority⟩ :=
    calc decoded false false (Y, X)
        = s.cellPixel t false false (s.tileInfo t i) (X % g.tileW) (Y % g.tileH) := rfl
      _ = s.cellPixel t false false e (X % g.tileW) (Y % g.tileH) := by rw [htile]
      _ = _ := State.cellPixel_unflipped s t e _ _
  have hopaq : (g.tpen = none ∨ g.tpen ≠ some v) ↔ g.tpen ≠ some v := by
    refine or_iff_right_of_imp fun hnone => ?_
    rw [hnone]
    exact (Option.some_ne_none v).symm
  refine ⟨hflip, ?_, rfl⟩
  rw [hflip, hunflipped, decide_eq_decide.mpr hopaq]

end Sys2Proof.Machine
end

section
/-! SUPPORT. The sprite compositor (42_sprites.md), from the pixel to the layer: what `plot` stores, the copies of one sprite, the
records that are drawn and their order, the sprite layer after SPRITES. -/

namespace Sys2Proof

/-- A signed value is the value or its negation. -/
theorem Sign.toInt_mul (σ : Sign) (v : Int) : σ.toInt * v = if σ = .plus then v else -v := by
  cases σ <;> simp [Sign.toInt]

/-- The mask pen of a well-formed configuration is not the transparent pen (00_scope.md R12). -/
theorem Config.maskPen_ne_tpen {c : Config} (hw : c.wf = true) : c.spr.maskPen ≠ some c.spr.tpen := by
  simpa only [ConfigCheck.holds, decide_eq_true_eq] using c.wf_holds hw .maskPenDistinct

namespace Machine

/-! `plot` (R290). -/

@[simp] theorem plotValue_none (c : Config) (g : Regs) (r : SpriteRecord) : plotValue c g r none = none := rfl

@[simp] theorem plotValue_tpen (c : Config) (g : Regs) (r : SpriteRecord) : plotValue c g r (some c.spr.tpen) = none :=
  if_pos rfl

theorem plotValue_of_ne_tpen {c : Config} {v : Nat} (hv : v ≠ c.spr.tpen) (g : Regs) (r : SpriteRecord) :
    plotValue c g r (some v) =
      if c.spr.maskPen = some v then some (.mask (BitVec.ofNat 16 r.priority))
      else some (.pix (penOf c g c.spr.penBase r.color c.spr.bpp v) (BitVec.ofNat 16 r.priority)) :=
  if_neg hv

/-- Settles O43: the mask pen is stored as a Mask because it is never the transparent pen, which is tested first. -/
theorem plotStoresMaskOrPen : Obligations.PlotStoresMaskOrPen := by
  intro c g r p hw
  refine ⟨plotValue_none c g r, plotValue_tpen c g r, fun hmask => ?_, fun htpen hmask => ?_⟩
  · have htpen : p ≠ c.spr.tpen := by
      rintro rfl
      exact Config.maskPen_ne_tpen hw hmask
    rw [plotValue_of_ne_tpen htpen, if_pos hmask]
  · rw [plotValue_of_ne_tpen htpen, if_neg hmask]

/-! The copies of a sprite (R286 to R289). -/

/-- The record's flip and the screen's flip cancel. -/
theorem flipIndex_xor (a b : Bool) (n i : Nat) : flipIndex (xor a b) n i = if a = b then i else n - 1 - i := by
  cases a <;> cases b <;> rfl

/-- Settles O42: a sprite's pixels are those of the list of its copies, which is in strict order and is cut at the copy. -/
theorem spriteCopiesWrapAndFlip : Obligations.SpriteCopiesWrapAndFlip := by
  intro c g k fx fy r p w h sx0 sy0 sx sy pixel shift copy
  have hshift : ∀ wrap d, d ∈ wrapShifts wrap ↔ shift wrap d := mem_wrapShifts
  have hcopies : ∀ P : Int × Int → Prop, (∃ q ∈ copyShifts c, P q) ↔
      ∃ ky kx, shift p.wrapY ky ∧ shift p.wrapX kx ∧ P (ky, kx) := by
    intro P
    simp only [Prod.exists, mem_copyShifts, hshift, and_assoc]
    rfl
  have hsx : (position c r fx fy).1 = sx := by simp only [position, Sign.toInt_mul]; rfl
  have hsy : (position c r fx fy).2 = sy := by simp only [position, Sign.toInt_mul]; rfl
  have hcopy : ∀ ky kx e, e ∈ shiftedWrites c g k fx fy r (ky, kx) ↔ copy ky kx e := by
    intro ky kx e
    rw [shiftedWrites, mem_copyWrites, hsx, hsy]
    simp only [flipIndex_xor]
    rfl
  refine ⟨fun e => ?_, fun ky kx hky hkx => ?_⟩
  · rw [drawOne_eq, List.mem_flatMap, hcopies]
    simp only [hcopy]
  · have hmem : (ky, kx) ∈ copyShifts c := (mem_copyShifts c _).mpr ⟨(hshift _ _).mpr hky, (hshift _ _).mpr hkx⟩
    obtain ⟨before, later, hcut, hbefore, hlater⟩ := drawOne_cut c g k fx fy r hmem
    refine ⟨before, _, later, hcut, fun e => ?_, hcopy ky kx, fun e => ?_⟩
    · rw [hbefore, hcopies]
      simp only [hcopy, copyLt, eq_comm (a := ky)]
    · rw [hlater, hcopies]
      simp only [hcopy, copyLt]

/-! The records and their order (R282 to R285). -/

@[simp] theorem length_decodeRecords (c : Config) (m : Memory) : (decodeRecords c m).length = c.spr.num := by
  simp [decodeRecords]

theorem getElem?_decodeRecords (c : Config) (m : Memory) {j : Nat} (hj : j < c.spr.num) :
    (decodeRecords c m)[j]? = some (decodeRecord c m j) := by
  simp [decodeRecords, hj]

theorem drawable_iff (c : Config) (r : SpriteRecord) :
    drawable c r = true ↔ r.enable = true ∧ r.bank < c.spr.numBanks ∧ r.size < c.spr.sizes.length := by
  simp only [drawable, Bool.and_eq_true, decide_eq_true_eq, and_assoc]

theorem spriteOrder_ascending {c : Config} (h : c.spr.seq = .ascending) (recs : List SpriteRecord) :
    spriteOrder c recs = List.range recs.length := by
  rw [spriteOrder, h]

theorem spriteOrder_descending {c : Config} (h : c.spr.seq = .descending) (recs : List SpriteRecord) :
    spriteOrder c recs = (List.range recs.length).reverse := by
  rw [spriteOrder, h]

/-- What one index of the draw order writes (R284): the sprite of its record, if it has one and that is drawable. -/
def recordWrites (c : Config) (g : Regs) (k : Clip) (fx fy : Bool) (recs : List SpriteRecord) (j : Nat) :
    List ((Nat × Nat) × SprPixel) :=
  match recs[j]? with
  | none => []
  | some r => if drawable c r then drawOne c g k fx fy r else []

/-- The draw operation writes what the indices of its order write, one after the other (R280). -/
theorem spriteWrites_eq (c : Config) (g : Regs) (m : Memory) (k : Clip) (fx fy : Bool) :
    spriteWrites c g m k fx fy =
      (spriteOrder c (decodeRecords c m)).flatMap (recordWrites c g k fx fy (decodeRecords c m)) := rfl

theorem mem_recordWrites {c : Config} {g : Regs} {k : Clip} {fx fy : Bool} {recs : List SpriteRecord} {j : Nat}
    {e : (Nat × Nat) × SprPixel} :
    e ∈ recordWrites c g k fx fy recs j ↔ ∃ r, recs[j]? = some r ∧ drawable c r = true ∧ e ∈ drawOne c g k fx fy r := by
  unfold recordWrites
  cases recs[j]? with
  | none => simp
  | some r => by_cases hd : drawable c r = true <;> simp [hd]

/-- Settles O41: the writes are those of the order's indices, so a cut of the order cuts them. -/
theorem onlyDrawableRecordsAreDrawn : Obligations.OnlyDrawableRecordsAreDrawn := by
  intro c g m k fx fy field f recs drawnBy
  have hdrawn : ∀ order e, e ∈ order.flatMap (recordWrites c g k fx fy recs) ↔ drawnBy order e := by
    intro order e
    simp only [List.mem_flatMap, mem_recordWrites, drawable_iff, and_assoc]
    rfl
  refine ⟨fun j absent => ⟨rfl, rfl, fun segs b hi lo => spriteField_append c m j absent segs ⟨b, hi, lo⟩⟩,
    length_decodeRecords c m, fun j hj => getElem?_decodeRecords c m hj, fun hseq => ?_, fun hseq => ?_,
    fun before later hcut => ?_⟩
  · rw [spriteOrder_ascending hseq, length_decodeRecords]
  · rw [spriteOrder_descending hseq, length_decodeRecords]
  · refine ⟨_, _, ?_, hdrawn before, hdrawn later⟩
    rw [spriteWrites_eq, hcut, List.flatMap_append]

/-! The sprite layer after SPRITES (R280). -/

theorem State.sprAt_drawSprites (s : State) (k : Clip) (fx fy : Bool) (p : Nat × Nat) :
    (s.drawSprites k fx fy).sprAt p =
      if k.contains s.cfg p = true then
        (Sparse.find (spriteWrites s.cfg s.active s.mem k fx fy).reverse p).getD .blank
      else s.sprAt p :=
  s.getD_drawnSprites k fx fy p

theorem exec_sprites_live {s : State} (x0 x1 y0 y1 : Bound) (hh : s.halted = false) :
    exec (.sprites x0 x1 y0 y1) s =
      .next (s.drawSprites (Clip.ofBounds x0 x1 y0 y1) s.active.flipX s.active.flipY) :=
  exec_live rfl hh

/-- Settles O40: a clip pixel is the last write found to it, or None where the search finds none. -/
theorem spritesDrawsItsClip : Obligations.SpritesDrawsItsClip := by
  intro s x0 x1 y0 y1 hh
  refine ⟨_, exec_sprites_live x0 x1 y0 y1 hh, fun p hp => ⟨fun hnone => ?_, fun before v later hw hlast => ?_⟩,
    fun p hp => ?_, rfl⟩
  · have hfind := Sparse.find_eq_none.mpr fun e he => hnone e (List.mem_reverse.mp he)
    rw [State.sprAt_drawSprites, if_pos hp, hfind, Option.getD_none]
  · rw [State.sprAt_drawSprites, if_pos hp, Sparse.find_reverse_split hw hlast, Option.getD_some]
  · rw [State.sprAt_drawSprites, if_neg (Bool.eq_false_iff.mp hp)]

end Machine

end Sys2Proof
end

section
/-! SUPPORT. The register latch (43_latch.md): the writes that it buffers or ignores, what an accepted boundary makes of them, and
a run of writes up to the boundary that applies them. -/

namespace Sys2Proof

/-- The three read-only ids (10_state.md R35) lie between the fixed writable ids and the scroll ids, on every configuration. -/
theorem Config.writable_eq_false_of_readOnly (c : Config) {r : RegId}
    (hr : r = Machine.idScanline ∨ r = Machine.idLightpenX ∨ r = Machine.idLightpenY) : c.writable r = false := by
  rcases hr with rfl | rfl | rfl <;> rfl

namespace Machine

/-! LWRITE (R321, R322). -/

theorem exec_lwrite_live {s : State} (r : RegId) (d : U16) (hh : s.halted = false) :
    exec (.lwrite r d) s = .next (s.latchWrite r d) :=
  exec_live rfl hh

/-- Settles O27. -/
theorem latchWriteBuffersItsValue : Obligations.LatchWriteBuffersItsValue := by
  intro s r d hh hw
  refine ⟨_, exec_lwrite_live r d hh, ?_, fun q hq => ?_, State.latchWrite_frame s r d⟩
  · rw [State.pendingAt_latchWrite r d hw, if_pos rfl]
  · rw [State.pendingAt_latchWrite q d hw, if_neg (Ne.symm hq)]

/-- Settles O28: a read-only id is not writable either, and a halted machine takes no command. -/
theorem latchWriteToReadOnlyOrUnassignedIsIgnored : Obligations.LatchWriteToReadOnlyOrUnassignedIsIgnored := by
  intro s r d hr
  have hw : s.cfg.writable r = false := by
    rcases hr with h | h | h | h
    · exact s.cfg.writable_eq_false_of_readOnly (.inl h)
    · exact s.cfg.writable_eq_false_of_readOnly (.inr (.inl h))
    · exact s.cfg.writable_eq_false_of_readOnly (.inr (.inr h))
    · exact h
  cases hh : s.halted
  · rw [exec_lwrite_live r d hh, State.latchWrite_ignored d hw]
  · rw [exec_eq, command_halted rfl hh]

/-! An accepted boundary (R323, R326 to R328). -/

theorem exec_boundary_inOrder {s : State} {n : U16} (hh : s.halted = false) (ho : s.InOrder n) :
    exec (.boundary n) s = .next (s.passBoundary n) := by
  rw [exec_live rfl hh]
  exact congrArg Host.Outcome.next (State.afterBoundary_inOrder ((s.boundaryInOrder_iff n).mpr ho))

@[simp] theorem State.passBoundary_active (s : State) (n : U16) : (s.passBoundary n).active = s.activeAfter n := by
  rw [State.passBoundary_eq]

@[simp] theorem State.passBoundary_latchIrq (s : State) (n : U16) : (s.passBoundary n).latchIrq = s.firesAfter n := by
  rw [State.passBoundary_eq]

@[simp] theorem State.passBoundary_irqArmed (s : State) (n : U16) :
    (s.passBoundary n).irqArmed = (s.armedAfter n && !s.firesAfter n) := by
  rw [State.passBoundary_eq]

@[simp] theorem State.passBoundary_pending (s : State) (n : U16) :
    (s.passBoundary n).pending = if s.appliesAt n then [] else s.pending := by
  rw [State.passBoundary_eq]

@[simp] theorem State.passBoundary_tm (s : State) (n : U16) (u : TileId) :
    (s.passBoundary n).tm u = (s.tilemapsAfter n).get u := by
  rw [State.passBoundary_eq]
  rfl

theorem State.activeAfter_applies {s : State} {n : U16} (ha : s.Applies n) :
    s.activeAfter n = s.active.apply s.pending :=
  if_pos ((s.appliesAt_iff n).mpr ha)

theorem State.activeAfter_not_applies {s : State} {n : U16} (ha : ¬ s.Applies n) : s.activeAfter n = s.active :=
  if_neg (mt (s.appliesAt_iff n).mp ha)

/-- Each register after a boundary that applies the pending writes. -/
theorem State.get_activeAfter {s : State} {n : U16} (ha : s.Applies n) (r : RegId) :
    (s.activeAfter n).get r = (s.pendingAt r).getD (s.active.get r) := by
  rw [State.activeAfter_applies ha, Regs.get_apply]
  rfl

/-- Settles O29. -/
theorem boundaryAppliesPendingWrites : Obligations.BoundaryAppliesPendingWrites := by
  intro s n hh ho
  refine ⟨_, exec_boundary_inOrder hh ho, ?_, fun ha => ⟨fun r => ?_, fun r => ?_⟩, fun ha => ⟨?_, ?_⟩, fun u => ?_, ?_⟩
  · rw [State.passBoundary_eq]
  · rw [State.passBoundary_active, State.get_activeAfter ha]
  · rw [State.pendingAt, State.passBoundary_pending, if_pos ((s.appliesAt_iff n).mpr ha), Sparse.find_nil]
  · rw [State.passBoundary_active, State.activeAfter_not_applies ha]
  · rw [State.passBoundary_pending, if_neg (mt (s.appliesAt_iff n).mp ha)]
  · rw [State.passBoundary_tm, State.tilemapsAfter_get]
    split
    · rfl
    · split <;> rfl
  · rw [State.passBoundary_eq]

/-- The three global registers, by their ids (R327). -/
theorem Regs.globals_eq_iff (g h : Regs) :
    g.globals = h.globals ↔ g.get idGfxBank = h.get idGfxBank ∧ g.get idPaletteBank = h.get idPaletteBank ∧
      g.get idModeFlags = h.get idModeFlags := by
  simp only [Regs.globals, Prod.mk.injEq, Regs.get_gfxBank, Regs.get_paletteBank, Regs.get_modeFlags]

/-- Settles O30: the boundary compares the three stored values as one triple. -/
theorem boundaryForcesDirtyOnGlobalChange : Obligations.BoundaryForcesDirtyOnGlobalChange := by
  intro s n hh ho
  refine ⟨_, exec_boundary_inOrder hh ho, fun u hu => ?_⟩
  rw [State.passBoundary_active, State.passBoundary_tm, State.tilemapsAfter_get]
  refine ⟨fun hchanged => ?_, fun hsame => ?_⟩
  · have hglobals : (s.activeAfter n).globals ≠ s.active.globals := by
      rw [Ne, Regs.globals_eq_iff]
      tauto
    rw [if_neg hglobals, if_pos hu]
    exact ⟨rfl, rfl⟩
  · rw [if_pos ((Regs.globals_eq_iff _ _).mpr hsame)]

/-- The raster interrupt is armed at a boundary when it was armed before, or by a write that this boundary applies (R328). -/
theorem State.armedAfter_iff (s : State) (n : U16) :
    s.armedAfter n = true ↔ s.irqArmed = true ∨ (s.Applies n ∧ s.pendingAt idIrqLine ≠ none) := by
  rw [State.armedAfter, Bool.or_eq_true, Bool.and_eq_true, State.appliesAt_iff, Option.isSome_iff_ne_none]

theorem State.firesAfter_iff (s : State) (n : U16) :
    s.firesAfter n = true ↔ s.armedAfter n = true ∧ n = (s.activeAfter n).get idIrqLine := by
  rw [State.firesAfter, Bool.and_eq_true, decide_eq_true_eq, Regs.get_irqLine]

/-- Settles O31: the interrupt fires where it is armed and the line is its own, and stays armed where it does not fire. -/
theorem boundaryArmsAndFires : Obligations.BoundaryArmsAndFires := by
  intro s n hh ho
  refine ⟨_, exec_boundary_inOrder hh ho, ?_, ?_⟩
  · rw [State.passBoundary_latchIrq, State.passBoundary_active, State.firesAfter_iff, State.armedAfter_iff]
  · have hstays : (s.armedAfter n && !s.firesAfter n) = true ↔
        s.armedAfter n = true ∧ n ≠ (s.activeAfter n).get idIrqLine := by
      rw [Bool.and_eq_true, Bool.not_eq_true', ← Bool.not_eq_true, State.firesAfter_iff]
      tauto
    rw [State.passBoundary_irqArmed, State.passBoundary_active, hstays, State.armedAfter_iff]

/-! A run of latch writes (R331). -/

/-- A run of LWRITEs on a live machine changes `pending` only, where the last value written to a register stands. -/
theorem runAll_lwrite (ws : List (RegId × U16)) {s : State} (hh : s.halted = false) :
    ∃ p, runAll (ws.map fun e => .lwrite e.1 e.2) s = .next { s with pending := p } ∧
      ∀ r, s.cfg.writable r = true → Sparse.find p r = (Sparse.find ws.reverse r).or (s.pendingAt r) := by
  induction ws generalizing s with
  | nil => exact ⟨s.pending, rfl, fun _ _ => rfl⟩
  | cons e ws ih =>
    have hframe := State.latchWrite_frame s e.1 e.2
    obtain ⟨p, hrun, hp⟩ := ih (s := s.latchWrite e.1 e.2) (by rw [hframe]; exact hh)
    refine ⟨p, ?_, fun r hr => ?_⟩
    · rw [List.map_cons, runAll, exec_lwrite_live e.1 e.2 hh, andThen_next, hrun, hframe]
    · rw [hp r (by rw [hframe]; exact hr), List.reverse_cons, Sparse.find_append, Option.or_assoc]
      congr 1
      rw [Sparse.find_cons, Sparse.find_nil]
      by_cases her : e.1 = r
      · subst her
        rw [State.pendingAt_latchWrite _ _ hr, if_pos rfl, if_pos rfl, Option.some_or]
      · rw [if_neg her, Option.none_or]
        cases hw : s.cfg.writable e.1
        · rw [State.latchWrite_ignored _ hw]
        · rw [State.pendingAt_latchWrite _ _ hw, if_neg her]

/-- Settles O33: the writes reach `pending` only, so that the boundary finds the latch of the start and the last value of each
register. -/
theorem lastWriteWinsAtTheBoundary : Obligations.LastWriteWinsAtTheBoundary := by
  intro s ws n hh ho ha
  obtain ⟨p, hrun, hp⟩ := runAll_lwrite ws hh
  refine ⟨_, _, hrun, rfl, exec_boundary_inOrder hh ho, fun r hr => ?_⟩
  rw [State.passBoundary_active, State.get_activeAfter (s := { s with pending := p }) ha]
  exact congrArg (Option.getD · (s.active.get r)) (hp r hr)

end Machine

end Sys2Proof
end

section
/-! SUPPORT. Which fields each command leaves alone (43_latch.md R320, 46_interface.md R400 to R416). -/

namespace Sys2Proof.Machine

/-- The fields that a command leaves alone from `s` to `t`, beside those of `effect_frame`: each group may be written by the
commands that its premises exclude, and by no other. -/
structure CommandFrame (i : Instr) (s t : State) : Prop where
  latch : (∀ n, i ≠ .boundary n) → i ≠ .tick → i ≠ .reset →
    t.active = s.active ∧ t.irqArmed = s.irqArmed ∧ t.latchIrq = s.latchIrq ∧ t.lastBoundary = s.lastBoundary ∧
      t.halted = s.halted ∧ t.fatalCode = s.fatalCode
  scan : i ≠ .tick → i ≠ .reset → t.counter = s.counter ∧ t.frameCount = s.frameCount ∧ t.completed = s.completed
  frameBuffer : (∀ x0 x1 y0 y1, i ≠ .compose x0 x1 y0 y1) → i ≠ .tick → i ≠ .reset → t.fb = s.fb
  spriteLayer : (∀ x0 x1 y0 y1, i ≠ .sprites x0 x1 y0 y1) → i ≠ .tick → i ≠ .reset → t.spr = s.spr
  palette : (∀ a d, i ≠ .wmem a d) → i ≠ .reset → t.pal = s.pal

/-- Most commands write the buffered writes, the tilemaps, the marks and the host's side only, which none of the groups holds. -/
theorem CommandFrame.of_eq {i : Instr} {s t : State}
    (h : t = { s with
      pending := t.pending, tilemaps := t.tilemaps, refused := t.refused, trace := t.trace, hostDraws := t.hostDraws,
      draws := t.draws }) : CommandFrame i s t := by
  rw [h]
  exact {
    latch := fun _ _ _ => ⟨rfl, rfl, rfl, rfl, rfl, rfl⟩
    scan := fun _ _ => ⟨rfl, rfl, rfl⟩
    frameBuffer := fun _ _ _ => rfl
    spriteLayer := fun _ _ _ => rfl
    palette := fun _ _ => rfl }

/-- The effect of every command leaves alone what `CommandFrame` says. -/
theorem CommandFrame.effect {i : Instr} {s t : State} (h : effect i s = .next t) : CommandFrame i s t := by
  cases i with
  | nop => cases h; exact .of_eq rfl
  | wreg a d =>
    rcases effect_wreg_eq_next h with ⟨-, rfl⟩ | ⟨r, -, rfl⟩
    · exact .of_eq rfl
    · rw [State.latchWrite_frame]; exact .of_eq rfl
  | rreg a => cases h; rw [State.afterRead_frame]; exact .of_eq rfl
  | getfb => cases h; exact .of_eq rfl
  | markd u k => cases h; exact .of_eq rfl
  | marka u => cases h; exact .of_eq rfl
  | redraw u x0 x1 y0 y1 => rw [State.redraw_eq_next h]; exact .of_eq rfl
  | lwrite r d => cases h; rw [State.latchWrite_frame]; exact .of_eq rfl
  | wmem a d =>
    cases h
    rw [State.writeMemory_frame]
    exact ⟨fun _ _ _ => ⟨rfl, rfl, rfl, rfl, rfl, rfl⟩, fun _ _ => ⟨rfl, rfl, rfl⟩, fun _ _ _ => rfl, fun _ _ _ => rfl,
      fun hi => absurd rfl (hi a d)⟩
  | sprites x0 x1 y0 y1 =>
    cases h
    exact ⟨fun _ _ _ => ⟨rfl, rfl, rfl, rfl, rfl, rfl⟩, fun _ _ => ⟨rfl, rfl, rfl⟩, fun _ _ _ => rfl,
      fun hi => absurd rfl (hi x0 x1 y0 y1), fun _ _ => rfl⟩
  | compose x0 x1 y0 y1 =>
    cases h
    exact ⟨fun _ _ _ => ⟨rfl, rfl, rfl, rfl, rfl, rfl⟩, fun _ _ => ⟨rfl, rfl, rfl⟩, fun hi => absurd rfl (hi x0 x1 y0 y1),
      fun _ _ _ => rfl, fun _ _ => rfl⟩
  | boundary n =>
    cases h
    rw [State.afterBoundary_frame]
    exact ⟨fun hi => absurd rfl (hi n), fun _ _ => ⟨rfl, rfl, rfl⟩, fun _ _ _ => rfl, fun _ _ _ => rfl, fun _ _ => rfl⟩
  | tick =>
    obtain ⟨-, -, hpal, -⟩ := State.tick_frame h
    exact ⟨fun _ hi => absurd rfl hi, fun hi => absurd rfl hi, fun _ hi => absurd rfl hi, fun _ hi => absurd rfl hi,
      fun _ _ => hpal⟩
  | reset =>
    exact ⟨fun _ _ hi => absurd rfl hi, fun _ hi => absurd rfl hi, fun _ _ hi => absurd rfl hi,
      fun _ _ hi => absurd rfl hi, fun _ hi => absurd rfl hi⟩

/-- Settles O58: a refusal sets its mark only, a halted machine takes no command, and the effect of a command stays in its frame. -/
theorem whichCommandsWriteWhat : Obligations.WhichCommandsWriteWhat := by
  intro i s t h
  have hframe : CommandFrame i s t ∧ t.cfg = s.cfg ∧ t.stream = s.stream := by
    rcases exec_eq_next h with ⟨-, rfl⟩ | ⟨-, -, rfl⟩ | ⟨-, -, he⟩
    · exact ⟨.of_eq rfl, rfl, rfl⟩
    · exact ⟨.of_eq rfl, rfl, rfl⟩
    · obtain ⟨hcfg, hstream, -⟩ := effect_frame he
      exact ⟨.effect he, hcfg, hstream⟩
  obtain ⟨hcmd, hcfg, hstream⟩ := hframe
  exact ⟨hcmd.latch, hcmd.scan, hcmd.frameBuffer, hcmd.spriteLayer, hcmd.palette, hcfg, hstream⟩

end Sys2Proof.Machine
end

section
/-! SUPPORT. The scanline scheduler (44_scheduler.md): the counter that every tick steps, the line that a tick in step completes and
what it renders there, and the lines of a frame of ticks. -/

namespace Sys2Proof.Machine

/-! The counter (R351). -/

theorem exec_tick_live {s : State} (hh : s.halted = false) : exec .tick s = s.tick :=
  exec_live rfl hh

/-- Settles O46: the counter and the frame count are stepped before the boundary, the fatal one too. -/
theorem tickStepsTheCounter : Obligations.TickStepsTheCounter := by
  intro s t hh h
  rw [exec_tick_live hh] at h
  obtain ⟨-, -, -, -, -, hcounter, hframes, -⟩ := State.tick_frame h
  rw [hframes, hcounter]
  exact ⟨rfl, rfl⟩

/-! A tick in step (R350, R413). -/

/-- The boundary of a tick in step is in order: the counter and the last boundary have one successor (R323, R351). -/
theorem State.InStep.inOrder {s : State} (h : s.InStep) : s.advance.boundaryInOrder s.nextLine = true := by
  rw [State.boundaryInOrder_iff]
  intro l hl
  have hlast : s.lastBoundary = some l := hl
  rcases h with hnone | hcounter
  · rw [hnone] at hlast
    cases hlast
  · rw [hcounter] at hlast
    cases hlast
    rfl

/-- The state after a tick in step, where its line has left the given tilemaps, sprite layer and FrameBuffer. -/
def State.lineDone (s : State) (q : Quad Tilemap) (p : PixMap SprPixel) (f : Frame) : State :=
  { s with
    counter := s.nextLine
    frameCount := if s.nextLine = 0 then s.frameCount + 1 else s.frameCount
    lastBoundary := some s.nextLine
    active := s.activeAfter s.nextLine
    pending := if s.appliesAt s.nextLine then [] else s.pending
    irqArmed := s.armedAfter s.nextLine && !s.firesAfter s.nextLine
    latchIrq := s.firesAfter s.nextLine
    tilemaps := q
    spr := p
    fb := f
    completed := if s.nextLine = (s.activeAfter s.nextLine).visBottom then some f else s.completed
    trace := s.trace ++
      ((if s.firesAfter s.nextLine then [.interrupt .raster s.cfg.vecRaster] else []) ++ [.partialRedraw s.nextLine] ++
        (if s.nextLine = (s.activeAfter s.nextLine).visBottom then [.interrupt .vblank s.cfg.vecVblank] else [])) }

/-- The end of the line (R355) that the boundary and the render step have left is the end of the tick. -/
theorem State.endLine_atRender (s : State) (q : Quad Tilemap) (p : PixMap SprPixel) (f : Frame) :
    State.endLine s.nextLine { s.atRender with tilemaps := q, spr := p, fb := f } = s.lineDone q p f := by
  rw [State.endLine_eq, State.atRender_eq]
  simp only [State.lineDone, List.append_assoc]

/-- Beside its buffers, the state after a tick in step is the one in which it rendered, but for what the end of the line writes. -/
theorem State.lineDone_eq (s : State) (q : Quad Tilemap) (p : PixMap SprPixel) (f : Frame) :
    s.lineDone q p f =
      { s.atRender with
        tilemaps := q, spr := p, fb := f, completed := (s.lineDone q p f).completed, trace := (s.lineDone q p f).trace } := by
  rw [State.atRender_eq]
  rfl

/-- A tick in step of a coherent machine completes its line. -/
theorem State.tick_inStep {s : State} (hw : s.cfg.wf = true) (hc : s.Coherent) (hin : s.InStep) :
    ∃ q p f, s.atRender.renderLine s.nextLine = .next { s.atRender with tilemaps := q, spr := p, fb := f } ∧
      s.tick = .next (s.lineDone q p f) := by
  obtain ⟨r, hr, -, hframe⟩ :=
    State.renderLine_completes (s.atRender_cfg.symm ▸ hw) (State.coherent_atRender hc) s.nextLine
  have htick := State.tick_inOrder hin.inOrder hr
  rw [hframe] at hr htick
  exact ⟨_, _, _, hr, htick.trans (congrArg _ (s.endLine_atRender _ _ _))⟩

/-- The interrupt stays armed where it is armed and the line is not its own (R328). -/
theorem State.staysArmed_iff (s : State) (n : U16) :
    (s.armedAfter n && !s.firesAfter n) = true ↔ s.armedAfter n = true ∧ n ≠ (s.activeAfter n).get idIrqLine := by
  rw [Bool.and_eq_true, Bool.not_eq_true', ← Bool.not_eq_true, State.firesAfter_iff]
  tauto

/-- Settles O47: the boundary is accepted, and the render step changes the three pixel buffers only. -/
theorem tickCompletesItsLine : Obligations.TickCompletesItsLine := by
  intro s hw hc hh hin
  obtain ⟨q, p, f, -, htick⟩ := State.tick_inStep hw hc hin
  refine ⟨s.lineDone q p f, (exec_tick_live hh).trans htick, hh, rfl, fun ha => ⟨fun r => ?_, fun r => ?_⟩,
    fun ha => ⟨?_, ?_⟩, ?_, ?_, rfl, rfl, rfl⟩
  · exact State.get_activeAfter ha r
  · have hpending : (s.lineDone q p f).pending = [] := if_pos ((s.appliesAt_iff _).mpr ha)
    rw [State.pendingAt, hpending, Sparse.find_nil]
  · exact State.activeAfter_not_applies ha
  · exact if_neg (mt (s.appliesAt_iff _).mp ha)
  · exact (s.firesAfter_iff _).trans (and_congr_left' (s.armedAfter_iff _))
  · exact (s.staysArmed_iff _).trans (and_congr_left' (s.armedAfter_iff _))

/-! The frame of ticks (R356). -/

@[simp] theorem redrawnLines_append (l m : List Event) : redrawnLines (l ++ m) = redrawnLines l ++ redrawnLines m :=
  List.filterMap_append

/-- A tick in step redraws its line and no other: the interrupts are no redraws (R353). -/
theorem State.redrawnLines_lineDone (s : State) (q : Quad Tilemap) (p : PixMap SprPixel) (f : Frame) :
    redrawnLines (s.lineDone q p f).trace = redrawnLines s.trace ++ [s.nextLine] := by
  have hirq : ∀ (b : Prop) [Decidable b] (l : IrqLine) (v : U16),
      redrawnLines (if b then [.interrupt l v] else []) = [] := by
    intro b _ l v
    split <;> rfl
  simp only [State.lineDone, redrawnLines_append, hirq]
  rfl

/-- What a tick of a frame needs, and keeps for the next one: a live machine in step, coherent, whose applied VTOTAL is `v` and has
no pending write. -/
structure State.FrameReady (s : State) (v : U16) : Prop where
  wf : s.cfg.wf = true
  coherent : s.Coherent
  live : s.halted = false
  inStep : s.InStep
  noPending : s.pendingAt idVtotal = none
  vtotal : s.active.get idVtotal = v

/-- A boundary keeps a register that has no pending write (R326). -/
theorem State.get_activeAfter_of_not_pending {s : State} {r : RegId} (h : s.pendingAt r = none) (n : U16) :
    (s.activeAfter n).get r = s.active.get r := by
  by_cases ha : s.Applies n
  · rw [State.get_activeAfter ha, h, Option.getD_none]
  · rw [State.activeAfter_not_applies ha]

theorem State.FrameReady.tick {s : State} {v : U16} (h : s.FrameReady v) :
    ∃ t, exec .tick s = .next t ∧ t.FrameReady v ∧ t.counter = succLine (max 1 v.toNat) s.counter ∧
      redrawnLines t.trace = redrawnLines s.trace ++ [t.counter] := by
  obtain ⟨q, p, f, -, htick⟩ := State.tick_inStep h.wf h.coherent h.inStep
  refine ⟨_, (exec_tick_live h.live).trans htick, ?_, ?_, s.redrawnLines_lineDone q p f⟩
  · exact {
      wf := h.wf
      coherent := State.coherent_tick h.wf h.coherent htick
      live := h.live
      inStep := .inr rfl
      noPending := by
        simp only [State.pendingAt, State.lineDone]
        split
        · rfl
        · exact h.noPending
      vtotal := (State.get_activeAfter_of_not_pending h.noPending _).trans h.vtotal }
  · rw [← h.vtotal]
    rfl

/-- Ticks that start within a frame and do not end it redraw the next lines, one each. -/
theorem State.FrameReady.ticks (n : Nat) {s : State} {v : U16} (h : s.FrameReady v)
    (hn : s.counter.toNat + n < max 1 v.toNat) :
    ∃ t, Machine.ticks n s = .next t ∧ t.FrameReady v ∧ t.counter.toNat = s.counter.toNat + n ∧
      redrawnLines t.trace =
        redrawnLines s.trace ++ (List.range' (s.counter.toNat + 1) n).map (BitVec.ofNat 16) := by
  induction n generalizing s with
  | zero => exact ⟨s, rfl, h, rfl, by simp⟩
  | succ n ih =>
    obtain ⟨u, hu, hready, hcounter, hlines⟩ := h.tick
    have hv := v.isLt
    have hnext : u.counter = BitVec.ofNat 16 (s.counter.toNat + 1) := by
      rw [hcounter, succLine, if_neg (by omega)]
      bv_omega
    have hline : u.counter.toNat = s.counter.toNat + 1 := by
      rw [hnext, BitVec.toNat_ofNat, Nat.mod_eq_of_lt (by omega)]
    obtain ⟨t, ht, hlast, htcounter, htlines⟩ := ih hready (by omega)
    refine ⟨t, by rw [Machine.ticks, hu, andThen_next, ht], hlast, by omega, ?_⟩
    rw [htlines, hlines, hline, List.range'_succ, List.map_cons, hnext, List.append_assoc, List.singleton_append]

/-- Settles O50: the first tick wraps the counter to line 0, and the others of the frame step it up to VT - 1. -/
theorem frameRedrawsEveryLineOnce : Obligations.FrameRedrawsEveryLineOnce := by
  intro s hw hc hh hin hp vt hvt
  have hstart : s.FrameReady (s.active.get idVtotal) := ⟨hw, hc, hh, hin, hp, rfl⟩
  obtain ⟨u, hu, hready, hwrap, hlines⟩ := hstart.tick
  have hzero : u.counter = 0 := hwrap.trans (if_pos hvt)
  obtain ⟨k, hk⟩ : ∃ k, vt = k + 1 := ⟨vt - 1, by omega⟩
  have hfirst : u.counter.toNat = 0 := by rw [hzero]; rfl
  obtain ⟨t, ht, hlast, hcounter, htlines⟩ := hready.ticks k (by omega)
  refine ⟨t, ?_, ?_, hlast.vtotal, by omega⟩
  · rw [hk, ticks, hu, andThen_next, ht]
  · rw [htlines, hlines, hzero, hk, List.range_eq_range', List.range'_succ, List.map_cons, List.append_assoc,
      List.singleton_append]
    rfl

/-! The composition of a pixel (45_compositor.md R383). -/

/-- The FrameBuffer after a composition: in the clip the composed colour, where there is one. -/
theorem State.fbAt_compose (s : State) (k : Clip) (p : Nat × Nat) :
    (s.compose k).fbAt p = if k.contains s.cfg p = true then (s.composed p).getD (s.fbAt p) else s.fbAt p :=
  s.getD_composedFrame k p

/-- A mask in the highest slot that contributes leaves the pixel. -/
theorem State.composed_of_mask {s : State} {p : Nat × Nat} {lower upper : List Slot} {slot : Slot}
    (hs : s.cfg.slots = lower ++ slot :: upper) (hupper : ∀ u ∈ upper, s.contrib p u = none)
    (hslot : s.contrib p slot = some .mask) : s.composed p = none := by
  rw [State.composed, s.best_append p lower upper slot .mask hs hslot hupper]

/-- A pen in the highest slot that contributes shows its palette entry. -/
theorem State.composed_of_pen {s : State} {p : Nat × Nat} {lower upper : List Slot} {slot : Slot} {q : Nat}
    (hs : s.cfg.slots = lower ++ slot :: upper) (hupper : ∀ u ∈ upper, s.contrib p u = none)
    (hslot : s.contrib p slot = some (.pen q)) : s.composed p = some (s.rgb q) := by
  rw [State.composed, s.best_append p lower upper slot (.pen q) hs hslot hupper]

/-- Where no slot contributes the background pen shows. -/
theorem State.composed_of_no_contrib {s : State} {p : Nat × Nat} (h : ∀ u ∈ s.cfg.slots, s.contrib p u = none) :
    s.composed p =
      some (s.rgb ((s.active.get idPaletteBank).toNat % s.cfg.pal.numBanks * s.cfg.pal.bankSize + s.cfg.bgPen)) := by
  rw [State.composed, s.best_none p h]
  rfl

/-! The render step (R350 step 3, R352), buffer by buffer. -/

/-- The render step redraws every tilemap of the machine over the line's clip. -/
theorem State.renderLine_tm {s r : State} {n : U16} (h : s.renderLine n = .next r) (u : TileId) :
    r.tm u = if u.toNat < s.cfg.nt then s.redrawn u (s.lineClip n) else s.tm u := by
  obtain ⟨d, hd, hr, -⟩ := State.renderLine_eq_next h
  have htm : r.tm u = d.tm u := by
    rw [hr]
    rfl
  rw [htm]
  split
  · next hu => exact redrawEach_tm s.cfg.tileIds_nodup hd u ((s.cfg.mem_tileIds u).mpr hu)
  · next hu => exact (redrawEach_eq_next hd).2 u (mt (s.cfg.mem_tileIds u).mp hu)

/-- The dirty bits of every tilemap: the expanded ones, but for the tiles that the clip sees (R232, R239). -/
theorem State.renderLine_cleans {s r : State} {n : U16} (hw : s.cfg.wf = true) (h : s.renderLine n = .next r) {u : TileId}
    (hu : u.toNat < s.cfg.nt) :
    (r.tm u).allDirty = false ∧
      ∀ i, i < (s.cfg.tm u).nTiles →
        ((r.tm u).isDirty i = true ↔
          ((s.tm u).isDirty i = true ∨ (s.tm u).allDirty = true) ∧
            ¬ ∃ y x, (s.lineClip n).contains s.cfg (y, x) = true ∧ s.tileSeen u y x = i) := by
  rw [State.renderLine_tm h, if_pos hu]
  exact ⟨State.decodeVisible_allDirty (s.cfg.good hw hu) _ _, fun i hi => State.isDirty_redrawn (s.cfg.good hw hu) _ hi⟩

/-- The layers of a coherent machine: in the clip the fresh pixels of their source positions. -/
theorem State.renderLine_layerAt {s r : State} {n : U16} (hw : s.cfg.wf = true) (hc : s.Coherent)
    (h : s.renderLine n = .next r) (u : TileId) (y x : Nat) :
    r.layerAt u (y, x) =
      if u.toNat < s.cfg.nt ∧ (s.lineClip n).contains s.cfg (y, x) = true then s.freshAt u (s.sourceAt u y x)
      else s.layerAt u (y, x) := by
  rw [State.layerAt, State.renderLine_tm h]
  by_cases hu : u.toNat < s.cfg.nt
  · rw [if_pos hu, State.redrawn_layer (s.cfg.good hw hu) (hc u ((s.cfg.mem_tileIds u).mpr hu))]
    simp only [hu, true_and]
  · rw [if_neg hu, if_neg fun hclip => hu hclip.1]
    rfl

/-- The sprite layer: in the clip the last sprite pixel written. -/
theorem State.renderLine_sprAt {s r : State} {n : U16} (h : s.renderLine n = .next r) (p : Nat × Nat) :
    r.sprAt p =
      if (s.lineClip n).contains s.cfg p = true then
        (Sparse.find (spriteWrites s.cfg s.active s.mem (s.lineClip n) s.active.flipX s.active.flipY).reverse p).getD .blank
      else s.sprAt p := by
  obtain ⟨d, hd, hr, -⟩ := State.renderLine_eq_next h
  obtain ⟨hframe, -⟩ := redrawEach_eq_next hd
  have hspr : r.sprAt p = (d.drawSprites (s.lineClip n) s.active.flipX s.active.flipY).sprAt p := by
    rw [hr]
    rfl
  rw [hspr, State.sprAt_drawSprites, hframe]
  rfl

/-- The FrameBuffer: in the clip the composition of the layers as the step leaves them. -/
theorem State.renderLine_fbAt {s r : State} {n : U16} (h : s.renderLine n = .next r) (p : Nat × Nat) :
    r.fbAt p = if (s.lineClip n).contains s.cfg p = true then (r.composed p).getD (s.fbAt p) else s.fbAt p := by
  obtain ⟨d, hd, hr, -⟩ := State.renderLine_eq_next h
  obtain ⟨hframe, -⟩ := redrawEach_eq_next hd
  have hcomposed : r.composed p = (d.drawSprites (s.lineClip n) s.active.flipX s.active.flipY).composed p := by
    rw [hr]
    exact State.composed_congr p rfl rfl rfl rfl rfl rfl
  rw [hcomposed, hr, State.fbAt_compose, hframe]
  rfl

/-- The render step keeps the configuration. -/
theorem State.renderLine_cfg {s r : State} {n : U16} (h : s.renderLine n = .next r) : r.cfg = s.cfg := by
  obtain ⟨d, -, -, hframe⟩ := State.renderLine_eq_next h
  rw [hframe]

/-- A clip pixel shows the contributor of the highest slot: a mask leaves it, a pen writes its palette entry (R383). -/
theorem State.renderLine_shows_slot {s r : State} {n : U16} (h : s.renderLine n = .next r) {p : Nat × Nat}
    (hp : (s.lineClip n).contains s.cfg p = true) {lower upper : List Slot} {slot : Slot}
    (hs : s.cfg.slots = lower ++ slot :: upper) (hupper : ∀ u ∈ upper, r.contrib p u = none) :
    (r.contrib p slot = some .mask → r.fbAt p = s.fbAt p) ∧
      ∀ q, r.contrib p slot = some (.pen q) → r.fbAt p = r.rgb q := by
  rw [State.renderLine_fbAt h, if_pos hp]
  rw [← State.renderLine_cfg h] at hs
  refine ⟨fun hmask => ?_, fun q hpen => ?_⟩
  · rw [State.composed_of_mask hs hupper hmask, Option.getD_none]
  · rw [State.composed_of_pen hs hupper hpen, Option.getD_some]

/-- A clip pixel to which no slot contributes shows the background pen (R383). -/
theorem State.renderLine_shows_background {s r : State} {n : U16} (h : s.renderLine n = .next r) {p : Nat × Nat}
    (hp : (s.lineClip n).contains s.cfg p = true) (hnone : ∀ u ∈ s.cfg.slots, r.contrib p u = none) :
    r.fbAt p =
      r.rgb ((r.active.get idPaletteBank).toNat % s.cfg.pal.numBanks * s.cfg.pal.bankSize + s.cfg.bgPen) := by
  rw [← State.renderLine_cfg h] at hnone ⊢
  rw [State.renderLine_fbAt h, if_pos hp, State.composed_of_no_contrib hnone, Option.getD_some]

/-! What the tick hands to the render step: the state after its boundary. -/

@[simp] theorem State.atRender_counter (s : State) : s.atRender.counter = s.nextLine := by rw [State.atRender_eq]

@[simp] theorem State.atRender_active (s : State) : s.atRender.active = s.activeAfter s.nextLine := by
  rw [State.atRender_eq]

@[simp] theorem State.atRender_sprAt (s : State) (p : Nat × Nat) : s.atRender.sprAt p = s.sprAt p := by
  rw [State.atRender_eq]
  rfl

@[simp] theorem State.atRender_fbAt (s : State) (p : Nat × Nat) : s.atRender.fbAt p = s.fbAt p := by
  rw [State.atRender_eq]
  rfl

/-- The boundary of a tick can set the all-dirty flag of a tilemap, and nothing else of it (R327). -/
theorem State.atRender_tm (s : State) (u : TileId) :
    s.atRender.tm u =
      { s.tm u with
        allDirty := (s.tm u).allDirty ||
          decide (s.atRender.active.globals ≠ s.active.globals ∧ u.toNat < s.cfg.nt) } := by
  have htm : s.atRender.tm u = (s.tilemapsAfter s.nextLine).get u := by
    rw [State.atRender_eq]
    rfl
  rw [htm, State.tilemapsAfter_get, State.atRender_active]
  by_cases hglobals : (s.activeAfter s.nextLine).globals = s.active.globals
  · simp [hglobals]
  · by_cases hu : u.toNat < s.cfg.nt
    · simp [hglobals, hu, Tilemap.markAll]
    · simp [hglobals, hu]

@[simp] theorem State.atRender_layerAt (s : State) (u : TileId) (p : Nat × Nat) :
    s.atRender.layerAt u p = s.layerAt u p := by
  rw [State.layerAt, State.atRender_tm]
  rfl

@[simp] theorem State.atRender_isDirty (s : State) (u : TileId) (i : Nat) :
    (s.atRender.tm u).isDirty i = (s.tm u).isDirty i := by
  rw [State.atRender_tm]
  rfl

/-- A tilemap is all dirty at the render step when it was so before, or a global register has changed (R327). -/
theorem State.atRender_allDirty_iff {s : State} {u : TileId} (hu : u.toNat < s.cfg.nt) :
    (s.atRender.tm u).allDirty = true ↔
      (s.tm u).allDirty = true ∨ s.atRender.active.get idGfxBank ≠ s.active.get idGfxBank ∨
        s.atRender.active.get idPaletteBank ≠ s.active.get idPaletteBank ∨
        s.atRender.active.get idModeFlags ≠ s.active.get idModeFlags := by
  have hglobals := Regs.globals_eq_iff s.atRender.active s.active
  rw [State.atRender_tm, Bool.or_eq_true, decide_eq_true_eq]
  tauto

/-- The clip of a line that has a visible pixel (R352). -/
theorem State.lineClip_of_contains {s : State} {n : U16} {p : Nat × Nat}
    (h : (s.lineClip n).contains s.cfg p = true) :
    s.lineClip n = ⟨s.active.visLeft.toNat, min s.active.visRight.toNat (s.cfg.fbW - 1), n.toNat, n.toNat⟩ := by
  unfold State.lineClip at h ⊢
  split
  · rfl
  · next hrow =>
    rw [if_neg hrow, Clip.emptyClip_contains] at h
    cases h

/-- Settles O49: the render step, over the clip of the line, from the state that the boundary has left. -/
theorem tickRendersItsLine : Obligations.TickRendersItsLine := by
  intro s t hw hc hh hin h n left right visible clip
  rw [exec_tick_live hh] at h
  obtain ⟨q, p, f, hr, htick⟩ := State.tick_inStep hw hc hin
  obtain ⟨c, tr, ht⟩ : ∃ c tr,
      t = { s.atRender with tilemaps := q, spr := p, fb := f, completed := c, trace := tr } := by
    cases h.symm.trans htick
    exact ⟨_, _, s.lineDone_eq q p f⟩
  subst ht
  have hcfg := s.atRender_cfg
  rw [← s.atRender_counter] at hr
  have hclip : ∀ y x, (s.atRender.lineClip n).contains s.atRender.cfg (y, x) = true ↔ visible y x := by
    intro y x
    rw [State.lineClip_contains, hcfg]
    rfl
  have hlayer := State.renderLine_layerAt (hcfg.symm ▸ hw) (State.coherent_atRender hc) hr
  have hspr := State.renderLine_sprAt hr
  have hfb := State.renderLine_fbAt hr
  refine ⟨fun y x hv => ?_, fun y x hv => ?_, fun u hu => ?_⟩
  · have hpx := (hclip y x).mpr hv
    refine ⟨fun u hu => ?_, ?_, fun lower slot upper hslots hupper => ?_, fun hnone => ?_⟩
    · exact (hlayer u y x).trans (if_pos ⟨hcfg.symm ▸ hu, hpx⟩)
    · have hk : s.atRender.lineClip n = clip := by
        rw [State.lineClip_of_contains hpx, hcfg]
        rfl
      have hwrite := (hspr (y, x)).trans (if_pos hpx)
      rw [hk] at hwrite
      exact hwrite
    · rw [← hcfg] at hslots
      have hshown := State.renderLine_shows_slot hr hpx hslots hupper
      rw [State.atRender_fbAt] at hshown
      exact hshown
    · rw [← hcfg] at hnone ⊢
      exact State.renderLine_shows_background hr hpx hnone
  · have hout := mt (hclip y x).mp hv
    refine ⟨fun u => ?_, ?_, ?_⟩
    · exact ((hlayer u y x).trans (if_neg fun hpx => hout hpx.2)).trans (s.atRender_layerAt u (y, x))
    · exact ((hspr (y, x)).trans (if_neg hout)).trans (s.atRender_sprAt (y, x))
    · exact ((hfb (y, x)).trans (if_neg hout)).trans (s.atRender_fbAt (y, x))
  · obtain ⟨hflag, hbits⟩ := State.renderLine_cleans (hcfg.symm ▸ hw) hr (hcfg.symm ▸ hu)
    refine ⟨hflag, fun i hi => (hbits i (hcfg.symm ▸ hi)).trans ?_⟩
    rw [State.atRender_isDirty, State.atRender_allDirty_iff hu]
    exact and_congr_right' (not_congr (exists₂_congr fun y x => and_congr_left' (hclip y x)))

end Sys2Proof.Machine
end

section
/-! SUPPORT. The frame compositor (45_compositor.md): what each kind of slot contributes to a pixel, and the FrameBuffer after
COMPOSE. -/

namespace Sys2Proof.Machine

/-! What a slot contributes (R381, R382). -/

theorem inSet_iff (set : PrioSet) (prio : U16) :
    inSet set prio = true ↔ set = .any ∨ ∃ l, set = .only l ∧ prio.toNat ∈ l := by
  cases set with
  | any => simp [inSet]
  | only values => simp [inSet]

/-- A tile slot contributes the pen of an opaque pixel whose priority bit its selector asks for (R382). -/
theorem tileContrib_eq_some_iff (sel : TileSel) (p : CachePixel) (k : Contrib) :
    tileContrib sel p = some k ↔
      p.opaq = true ∧ (sel = .any ∨ (sel = .back ∧ p.prio = false) ∨ (sel = .front ∧ p.prio = true)) ∧
        k = .pen p.pen.toNat := by
  cases sel with
  | any => simp [tileContrib, eq_comm (a := k)]
  | back => simp [tileContrib, eq_comm (a := k), and_assoc]
  | front => simp [tileContrib, eq_comm (a := k), and_assoc]

/-- A sprite slot contributes a pixel or a mask whose priority is in its set (R381). -/
theorem spriteContrib_eq_some_iff (set : PrioSet) (p : SprPixel) (k : Contrib) :
    spriteContrib set p = some k ↔
      (∃ q prio, p = .pix q prio ∧ inSet set prio = true ∧ k = .pen q.toNat) ∨
        ∃ prio, p = .mask prio ∧ inSet set prio = true ∧ k = .mask := by
  cases p with
  | blank => simp [spriteContrib]
  | pix q prio => simp [spriteContrib, eq_comm (a := k)]
  | mask prio => simp [spriteContrib, eq_comm (a := k)]

/-- An enabled overlay contributes its pen, cut to the displayed bank (R382). -/
theorem State.overlayContrib_eq_some_iff (s : State) (p : Nat × Nat) (k : Contrib) :
    s.overlayContrib p = some k ↔
      s.cfg.overlayEn = true ∧ ∃ o, overlayAt s.cfg s.frameCount p.1 p.2 = some o ∧
        k = .pen (bankBase s.cfg s.active + o % s.cfg.pal.bankSize) := by
  cases hen : s.cfg.overlayEn with
  | false => simp [State.overlayContrib, hen]
  | true => simp [State.overlayContrib, hen, eq_comm (a := k)]

/-- Settles O45: a slot reads the layer, the sprite layer or the overlay at its pixel, and each kind has its own rule. -/
theorem slotsContributeByPriority : Obligations.SlotsContributeByPriority := by
  refine fun s p k => ⟨fun t sel => ?_, fun set => ?_, ?_⟩
  · exact tileContrib_eq_some_iff sel (s.layerAt t p) k
  · simp only [← inSet_iff]
    exact spriteContrib_eq_some_iff set (s.sprAt p) k
  · exact s.overlayContrib_eq_some_iff p k

/-! The FrameBuffer after COMPOSE (R383). -/

theorem exec_compose_live {s : State} (x0 x1 y0 y1 : Bound) (hh : s.halted = false) :
    exec (.compose x0 x1 y0 y1) s = .next (s.compose (Clip.ofBounds x0 x1 y0 y1)) :=
  exec_live rfl hh

/-- Settles O44: a clip pixel takes the composed colour, which the highest contributor decides, and a mask composes none. -/
theorem composeShowsTheHighestContributor : Obligations.ComposeShowsTheHighestContributor := by
  intro s x0 x1 y0 y1 hh
  refine ⟨_, exec_compose_live x0 x1 y0 y1 hh,
    fun p hp => ⟨fun lower slot upper hs hupper => ⟨fun hmask => ?_, fun q hpen => ?_⟩, fun hnone => ?_⟩,
    fun p hp => ?_, rfl⟩
  · rw [State.fbAt_compose, if_pos hp, State.composed_of_mask hs hupper hmask, Option.getD_none]
  · rw [State.fbAt_compose, if_pos hp, State.composed_of_pen hs hupper hpen, Option.getD_some]
  · rw [State.fbAt_compose, if_pos hp, State.composed_of_no_contrib hnone, Option.getD_some]
  · rw [State.fbAt_compose, if_neg (Bool.eq_false_iff.mp hp)]

end Sys2Proof.Machine
end

section
/-! SUPPORT. The bus interface (46_interface.md): the step that runs a decoded command, the halt (R432), and the effect of each bus
command on a live machine. -/

namespace Sys2Proof

/-! The word of NOP (R400). -/

/-- The row of a word is found by its OP byte: no other row has it. -/
theorem rowOfOp_eq_some {r : OpRow} (hr : r ∈ opRows) {w : Cmd} (hop : fieldOp w = r.op.byte) : rowOfOp w = some r := by
  unfold rowOfOp
  cases hfind : opRows.find? fun r => decide (fieldOp r.word = fieldOp w) with
  | none =>
    have := List.find?_eq_none.mp hfind r hr
    simp [opRows_byte r hr, hop] at this
  | some q =>
    have hqop : fieldOp q.word = fieldOp w := by simpa using List.find?_some hfind
    rw [opRows_word_byte_inj (List.mem_of_find?_eq_some hfind) hr (hqop.trans (hop.trans (opRows_byte r hr).symm))]

/-- A word with the OP byte of a mnemonic and a must-be-zero field that is not 0 is illegal for that mnemonic (R160 (a)). -/
theorem decode_mustBeZero {o : Op} {w : Cmd} (hop : fieldOp w = o.byte) (hzero : o.zeroFields w = false) :
    decode w = .illegal (.mustBeZero o) := by
  obtain ⟨r, hr, rfl⟩ := o.exists_row
  have hmatch : (opRows.find? fun r => r.matches w) = none := by
    rcases find_opRow w with hnone | ⟨q, hq, -, hw⟩
    · exact hnone
    · obtain ⟨hqop, hqzero⟩ := (OpRow.masked_iff hq w).mp hw
      rw [opRows_byte_inj q hq r hr (hqop.symm.trans hop), hzero] at hqzero
      cases hqzero
  unfold decode
  rw [hmatch, rowOfOp_eq_some hr hop]

theorem encode_nop : encode .nop = 0 := by decide

/-- The only word with the zero fields and the OP byte of NOP is 0. -/
theorem zeroFields_nop_of_ne_zero {w : Cmd} (hop : fieldOp w = Op.nop.byte) (hw : w ≠ 0) : Op.nop.zeroFields w = false := by
  rw [← Bool.not_eq_true]
  intro hzero
  exact hw (((encode_eq_iff .nop w).mpr ⟨hop, hzero, rfl⟩).symm.trans encode_nop)

namespace Machine

/-! RESET (R407). -/

theorem exec_reset_live {s : State} (hh : s.halted = false) : exec .reset s = .next (s.initialise [] true) :=
  exec_live rfl hh

/-- Initialising gives every field of 70_reset_and_hazards.md R483 its reset value, also where it ends in a fatal error. -/
theorem State.resetValues_initialise (launch : Memory) (keepMem : Bool) (s : State) :
    ResetValues (s.initialise launch keepMem) := by
  have htm (u : TileId) : (s.initialise launch keepMem).tm u = Tilemap.atReset := by
    rw [State.initialise_frame]
    exact Quad.get_all Tilemap.atReset u
  rw [State.initialise_frame] at htm ⊢
  exact
    { paletteBank := rfl, gfxBank := rfl, modeFlags := rfl, irqLine := rfl, vtotal := rfl, htotal := rfl, visTop := rfl
      visBottom := rfl, visLeft := rfl, visRight := rfl
      scroll := Regs.get_atReset s.cfg
      pending := fun _ => rfl
      irqArmed := rfl, latchIrq := rfl, lastBoundary := rfl, counter := rfl, frameCount := rfl
      dirty := fun u _ i => by rw [htm]; rfl
      allDirty := fun u _ => by rw [htm]; rfl
      cache := fun u _ p => by rw [htm]; rfl
      layer := fun u _ p => by rw [State.layerAt, htm]; rfl
      spr := fun _ => rfl
      fb := fun _ => rfl
      completed := rfl }

/-- Settles O20: on a buildable configuration initialising ends in no fatal error, and with `keepMem` it keeps memory and what the
host sees of the machine. -/
theorem resetReinitialises : Obligations.ResetReinitialises := by
  intro s hb hh
  refine ⟨_, exec_reset_live hh, State.resetValues_initialise [] true s, State.palCoherent_initialise [] true hb, ?_⟩
  rw [State.initialise_buildable hb]
  exact ⟨rfl, rfl, hh, rfl, rfl, rfl, rfl, rfl, rfl⟩

/-! The step (R430) and the halt (R432). -/

theorem step_of_empty {s : State} (hs : s.stream = []) : step s = .next s := by
  unfold step
  rw [hs]

/-- Settles O1. -/
theorem stepRunsTheDecodedCommand : Obligations.StepRunsTheDecodedCommand :=
  ⟨fun _ _ _ _ hs hd => step_of_command hs hd, fun _ hs => step_of_empty hs⟩

theorem exec_halted {i : Instr} {s : State} (hl : i.legal s.cfg = true) (hh : s.halted = true) : exec i s = .next s := by
  rw [exec_eq, command_halted hl hh]

/-- Settles O9: the halt is tested before the effect, in the one dispatch that every command shares. -/
theorem haltedMachineIgnoresLegalCommands : Obligations.HaltedMachineIgnoresLegalCommands :=
  fun _ _ hh hl => exec_halted hl hh

/-! NOP (R400). -/

theorem exec_nop (s : State) : exec .nop s = .next s := by
  cases hh : s.halted
  · exact exec_live rfl hh
  · exact exec_halted rfl hh

/-- Settles O11: a word with OP = 0x00 that is not 0 has a bit set in the zero field of NOP. -/
theorem nopDoesNothing : Obligations.NopDoesNothing :=
  ⟨exec_nop, encode_nop, fun _ hop hw => decode_mustBeZero hop (zeroFields_nop_of_ne_zero hop hw)⟩

/-! WMEM (R401). -/

theorem State.read_writeMemory {s : State} {a : Nat} (d : Byte) (ha : a < s.cfg.memSize) (b : Nat) :
    (s.writeMemory a d).mem.read b = if a = b then d else s.mem.read b := by
  rw [State.writeMemory_eq d ha]
  exact Memory.read_write _ _ _ _

/-- A memory write marks tiles; it decodes and draws none. -/
theorem State.writeMemory_pixels {s : State} {a : Nat} (d : Byte) (ha : a < s.cfg.memSize) (u : TileId) :
    ((s.writeMemory a d).tm u).cache = (s.tm u).cache ∧ ((s.writeMemory a d).tm u).layer = (s.tm u).layer := by
  rw [State.writeMemory_tm d ha]
  split
  · exact ⟨rfl, rfl⟩
  · exact ⟨Tilemap.markWrite_cache _ _ _, Tilemap.markWrite_layer _ _ _⟩

/-- Settles O12, from the reads after one memory write and its frame. -/
theorem wmemStoresOneByte : Obligations.WmemStoresOneByte := by
  intro s a d hh ha
  refine ⟨_, exec_wmem_live a d hh, ?_, fun b hb => ?_, State.writeMemory_frame s _ d, State.writeMemory_pixels d ha⟩
  · rw [State.read_writeMemory d ha, if_pos rfl]
  · rw [State.read_writeMemory d ha, if_neg hb.symm]

/-! WREG (R402). -/

theorem exec_wreg_unmapped {s : State} {a : Addr} (d : U16) (hh : s.halted = false) (hr : s.cfg.regDecodeAt a = none) :
    exec (.wreg a d) s = .next s := by
  rw [exec_live rfl hh]
  simp only [effect, hr]

theorem exec_wreg_mapped {s : State} {a : Addr} {r : RegId} (d : U16) (hh : s.halted = false)
    (hr : s.cfg.regDecodeAt a = some r) : exec (.wreg a d) s = .next (s.latchWrite r d) := by
  rw [exec_live rfl hh]
  simp only [effect, hr]

/-- At an address of register `r`, WREG is LWRITE of `r`: both reach the same latch. -/
theorem exec_wreg_eq_lwrite {s : State} {a : Addr} {r : RegId} (d : U16) (hh : s.halted = false)
    (hr : s.cfg.regDecodeAt a = some r) : exec (.wreg a d) s = exec (.lwrite r d) s := by
  rw [exec_wreg_mapped d hh hr, exec_lwrite_live r d hh]

/-- Settles O16: a decoded WREG is an LWRITE, which buffers a writable id's value and ignores every other id. -/
theorem wregWritesTheDecodedRegister : Obligations.WregWritesTheDecodedRegister := by
  intro s a d hh
  refine ⟨exec_wreg_unmapped d hh, fun r hr hw => ?_, fun r hr hw => ?_⟩
  · rw [exec_wreg_mapped d hh hr, State.latchWrite_ignored d hw]
  · rw [exec_wreg_eq_lwrite d hh hr]
    exact latchWriteBuffersItsValue s r d hh hw

/-! RREG (R403, R404). -/

/-- RREG of SCANLINE finds the counter and draws nothing. -/
theorem exec_rreg_scanline {s : State} {a : Addr} (hh : s.halted = false) (hr : s.cfg.regDecodeAt a = some idScanline) :
    exec (.rreg a) s = .next (s.emit (.readData s.counter)) := by
  rw [exec_live rfl hh]
  simp only [effect, hr, State.afterRead, State.readValue, if_pos]

/-- RREG of any other address is one draw. -/
theorem exec_rreg_draw {s : State} {a : Addr} (hh : s.halted = false) (hr : s.cfg.regDecodeAt a ≠ some idScanline) :
    exec (.rreg a) s = .next (s.afterDraw.emit (.readData s.drawValue)) := by
  rw [exec_live rfl hh]
  simp only [effect, State.afterRead, State.readValue, if_neg hr]

/-- Settles O17. -/
theorem rregScanlineEmitsTheCounter : Obligations.RregScanlineEmitsTheCounter :=
  fun _ _ hh hr => exec_rreg_scanline hh hr

/-- A draw takes the host's next value where the host has one ready. -/
theorem State.draw_host {s : State} {v : U16} {rest : List U16} (hd : s.hostDraws = v :: rest) :
    s.drawValue = v ∧ s.afterDraw = { s with hostDraws := rest } := by
  simp only [State.drawValue, State.afterDraw, hd, and_self]

/-- A draw takes a free value where the host has none ready. -/
theorem State.draw_free {s : State} (hd : s.hostDraws = []) :
    s.drawValue = Config.freeDraw s.draws ∧ s.afterDraw = { s with draws := s.draws + 1 } := by
  simp only [State.drawValue, State.afterDraw, hd, and_self]

/-- Settles O18: what the draw finds depends on the host's values alone. -/
theorem rregOfOtherIdsEmitsADraw : Obligations.RregOfOtherIdsEmitsADraw := by
  intro s a hh hr
  refine ⟨fun v rest hd => ?_, fun hd => ⟨Config.freeDraw s.draws, ?_⟩⟩
  · obtain ⟨hvalue, hafter⟩ := State.draw_host hd
    rw [exec_rreg_draw hh hr, hvalue, hafter]
    rfl
  · obtain ⟨hvalue, hafter⟩ := State.draw_free hd
    rw [exec_rreg_draw hh hr, hvalue, hafter]
    rfl

/-! GETFB (R405). -/

/-- Settles O19. -/
theorem getfbEmitsTheCompletedFrame : Obligations.GetfbEmitsTheCompletedFrame :=
  fun s hh => exec_live (s := s) (i := .getfb) rfl hh

end Machine

end Sys2Proof
end

section
/-! SUPPORT. Exceptions (60_exceptions.md): the two commands whose boundary comes out of order, the permanent halt, the fatal errors
of building a machine, and the steps that raise none. -/

namespace Sys2Proof.Machine

/-! A boundary out of order (R441, R443). -/

theorem State.boundaryInOrder_eq_false_iff (s : State) (n : U16) : s.boundaryInOrder n = false ↔ ¬ s.InOrder n := by
  rw [← s.boundaryInOrder_iff, Bool.not_eq_true]

/-- Settles O32: the ordering check comes before the application. -/
theorem boundaryOutOfOrderHalts : Obligations.BoundaryOutOfOrderHalts := by
  intro s n hh ho
  rw [exec_live rfl hh]
  exact congrArg Host.Outcome.next (State.afterBoundary_outOfOrder ((s.boundaryInOrder_eq_false_iff n).mpr ho))

/-- Settles O48: the fatal boundary of a tick is checked after the counter and the frame count are stepped, and its order is that of
the state before the tick, whose last boundary and vertical total they leave alone. -/
theorem tickOutOfOrderHalts : Obligations.TickOutOfOrderHalts := by
  intro s hh n ho
  have hadvance : s.advance.boundaryInOrder s.nextLine = false := (s.advance.boundaryInOrder_eq_false_iff n).mpr ho
  rw [exec_tick_live hh, State.tick_outOfOrder hadvance]
  rfl

/-! The halt (R432, R442). -/

/-- What `n` steps can make of a halted machine: the words they take from the stream, and the mark of an illegal one. -/
structure State.HaltedFor (n : Nat) (s t : State) : Prop where
  frame : t = { s with stream := s.stream.drop n, refused := t.refused }
  refused : s.refused = true → t.refused = true

theorem State.HaltedFor.zero (s : State) : s.HaltedFor 0 s := ⟨rfl, id⟩

theorem State.HaltedFor.halted {n : Nat} {s t : State} (h : s.HaltedFor n t) : t.halted = s.halted := by
  rw [h.frame]

theorem State.HaltedFor.trans {m n : Nat} {s t u : State} (h : s.HaltedFor m t) (h' : t.HaltedFor n u) :
    s.HaltedFor (m + n) u := by
  refine ⟨?_, fun hs => h'.refused (h.refused hs)⟩
  have hstream : t.stream.drop n = s.stream.drop (m + n) := by
    rw [h.frame]
    exact List.drop_drop
  rw [h'.frame, hstream, h.frame]

/-- One step of a halted machine: no word left, an illegal word, or a command that is refused or ignored. -/
theorem step_halted {s : State} (hh : s.halted = true) : ∃ t, step s = .next t ∧ s.HaltedFor 1 t := by
  obtain ⟨t, ht⟩ := step_completes (s := s) fun hlive => by rw [hh] at hlive; cases hlive
  refine ⟨t, ht, ?_⟩
  rcases step_eq_next ht with ⟨hs, rfl⟩ | ⟨w, rest, hs, ⟨e, -, rfl⟩ | ⟨i, -, hx⟩⟩
  · exact ⟨by rw [hs, List.drop_nil, ← hs], id⟩
  · exact ⟨by rw [hs]; rfl, fun _ => rfl⟩
  · rcases exec_eq_next hx with ⟨-, rfl⟩ | ⟨-, -, rfl⟩ | ⟨-, hlive, -⟩
    · exact ⟨by rw [hs]; rfl, fun _ => rfl⟩
    · exact ⟨by rw [hs]; rfl, id⟩
    · exact absurd hh (Bool.eq_false_iff.mp hlive)

theorem steps_halted (n : Nat) {s : State} (hh : s.halted = true) : ∃ t, steps n s = .next t ∧ s.HaltedFor n t := by
  induction n generalizing s with
  | zero => exact ⟨s, rfl, .zero s⟩
  | succ n ih =>
    obtain ⟨u, hu, hsu⟩ := step_halted hh
    obtain ⟨t, ht, hut⟩ := ih (hsu.halted.trans hh)
    refine ⟨t, ?_, Nat.add_comm 1 n ▸ hsu.trans hut⟩
    rw [steps, hu, andThen_next, ht]

/-- Settles O10, by induction on the number of steps: each one leaves the machine halted. -/
theorem haltIsPermanent : Obligations.HaltIsPermanent := by
  intro n s hh
  obtain ⟨t, ht, h⟩ := steps_halted n hh
  exact ⟨t, ht, h.frame, h.refused⟩

/-! Building a machine (R446; 70_reset_and_hazards.md R480, R481). -/

theorem State.build_rejected {c : Config} {launch : Memory} (h : ¬ (c.wf = true ∧ launchOk c launch = true)) :
    State.build c launch = .refused .configRejected :=
  if_neg (mt Bool.and_eq_true_iff.mp h)

/-- A configuration and launch memory that pass step 1 are initialised, with every field written. -/
theorem State.build_accepted {c : Config} {launch : Memory} (h : c.wf = true ∧ launchOk c launch = true) :
    ∃ s : State, s.cfg = c ∧ State.build c launch = .next (s.initialise launch false) :=
  ⟨{ State.reset with cfg := c }, rfl, if_pos (Bool.and_eq_true_iff.mpr h)⟩

theorem State.initialise_missingRegion {s : State} (launch : Memory) (keepMem : Bool) (h : ¬ regionsPresent s.cfg = true) :
    s.initialise launch keepMem = (s.initFields launch keepMem).raiseFatal .missingGraphicsRegion :=
  if_neg h

theorem State.initialise_shortProm {s : State} (launch : Memory) (keepMem : Bool) (hr : regionsPresent s.cfg = true)
    (hk : s.cfg.pal.kind = .staticProm) (hp : s.cfg.prom.length < s.cfg.pal.promLenMin) :
    s.initialise launch keepMem = (s.initFields launch keepMem).raiseFatal .invalidPromSize := by
  have hc : (s.initFields launch keepMem).cfg = s.cfg := rfl
  rw [State.initialise, if_pos hr, State.initPalette, hc, hk]
  dsimp only
  rw [State.decodeStatic, hc, if_pos hp]

/-- A fatal error while initialising halts with its code, before any palette entry is written. -/
theorem State.fatal_initFields (e : FatalError) (launch : Memory) (keepMem : Bool) (s : State) :
    ((s.initFields launch keepMem).raiseFatal e).halted = true ∧
      ((s.initFields launch keepMem).raiseFatal e).fatalCode = some e.code ∧
      ∀ i, ((s.initFields launch keepMem).raiseFatal e).rgb i = Rgb.black :=
  ⟨State.raiseFatal_halted e _, State.raiseFatal_fatalCode e _, fun _ => rfl⟩

/-- With every region present and no PROM that is too short, a configuration passes every check. -/
theorem buildable_of_prom {c : Config} (hw : c.wf = true) (hr : regionsPresent c = true)
    (hp : ¬ (c.pal.kind = .staticProm ∧ c.prom.length < c.pal.promLenMin)) : buildable c = true := by
  refine (buildable_iff c).mpr ⟨hw, hr, ?_⟩
  cases hk : c.pal.kind with
  | dynamicRam => exact .inl rfl
  | staticProm => exact .inr (Nat.le_of_not_lt fun hlt => hp ⟨hk, hlt⟩)

/-- Settles O21: one case per outcome of the checks, in their order. -/
theorem buildChecksInOrder : Obligations.BuildChecksInOrder := by
  intro c launch
  refine ⟨State.build_rejected, fun hok => ?_⟩
  obtain ⟨s, rfl, hbuild⟩ := State.build_accepted hok
  refine ⟨_, hbuild, ?_, fun hregions => ?_⟩
  · rintro ⟨g, hg, hnone⟩
    rw [State.initialise_missingRegion launch false fun hr => (regionsPresent_iff _).mp hr g hg hnone]
    exact State.fatal_initFields _ launch false s
  · have hr : regionsPresent s.cfg = true := (regionsPresent_iff _).mpr hregions
    refine ⟨fun ⟨hk, hp⟩ => ?_, fun hp => ?_⟩
    · rw [State.initialise_shortProm launch false hr hk hp]
      exact State.fatal_initFields _ launch false s
    · rw [State.initialise_buildable (buildable_of_prom hok.1 hr hp)]
      exact ⟨rfl, rfl⟩

/-! The normal stream (R445; 70_reset_and_hazards.md R494). -/

/-- A live machine whose boundaries are in step with its counter. -/
structure State.LiveInStep (s : State) : Prop where
  live : s.halted = false
  inStep : s.InStep

/-- It depends on the halt, the last boundary and the counter only. -/
theorem State.LiveInStep.congr {s t : State} (h : s.LiveInStep) (hh : t.halted = s.halted)
    (hl : t.lastBoundary = s.lastBoundary) (hc : t.counter = s.counter) : t.LiveInStep :=
  ⟨hh.trans h.live, by rw [State.InStep, hl, hc]; exact h.inStep⟩

/-- TICK passes the boundary of the line it starts, RESET forgets the last boundary, and no other command but BOUNDARY writes the
halt, the last boundary or the counter. -/
theorem State.LiveInStep.effect {i : Instr} {s t : State} (h : s.LiveInStep) (hb : buildable s.cfg = true)
    (hc : s.Coherent) (hi : ∀ n, i ≠ .boundary n) (he : effect i s = .next t) : t.LiveInStep := by
  by_cases htick : i = .tick
  · subst htick
    obtain ⟨q, p, f, -, hdone⟩ := State.tick_inStep ((buildable_iff _).mp hb).1 hc h.inStep
    cases hdone.symm.trans he
    exact ⟨h.live, .inr rfl⟩
  · by_cases hreset : i = .reset
    · subst hreset
      cases he
      rw [State.initialise_buildable hb]
      exact ⟨h.live, .inl rfl⟩
    · obtain ⟨-, -, -, hlast, hhalted, -⟩ := (CommandFrame.effect he).latch hi htick hreset
      obtain ⟨hcounter, -⟩ := (CommandFrame.effect he).scan htick hreset
      exact h.congr hhalted hlast hcounter

/-- Settles O53: a coherent machine completes its step, and the effect of every command but BOUNDARY keeps it live and in step. -/
theorem normalStreamNeverHalts : Obligations.NormalStreamNeverHalts := by
  intro s hb hc hh hin hnext
  have hfed (rest : List Cmd) : State.Coherent { s with stream := rest } :=
    State.coherent_congr (s := s) rfl rfl rfl rfl hc
  have hlive : s.LiveInStep := ⟨hh, hin⟩
  have hliveFed (rest : List Cmd) : State.LiveInStep { s with stream := rest } := hlive.congr rfl rfl rfl
  obtain ⟨t, ht⟩ := step_completes (s := s) fun _ i rest hl => effect_completes ((buildable_iff _).mp hb).1 hl (hfed rest)
  suffices h : t.LiveInStep from ⟨t, ht, h.live, h.inStep⟩
  rcases step_eq_next ht with ⟨-, rfl⟩ | ⟨w, rest, hs, ⟨e, -, rfl⟩ | ⟨i, hd, hx⟩⟩
  · exact hlive
  · exact hlive.congr rfl rfl rfl
  · rcases exec_eq_next hx with ⟨-, rfl⟩ | ⟨-, -, rfl⟩ | ⟨-, -, he⟩
    · exact hlive.congr rfl rfl rfl
    · exact hlive.congr rfl rfl rfl
    · have hi (n : U16) : i ≠ .boundary n := fun h => hnext w rest n hs (h ▸ hd)
      exact (hliveFed rest).effect hb (hfed rest) hi he

end Sys2Proof.Machine
end

section
/-! SUPPORT. Reset (70_reset_and_hazards.md): the values and the invariants of a machine that was just built or RESET (R480, R482,
R483), and the one machine that `State.reset` is. -/

namespace Sys2Proof.Machine

/-! The values of R483. -/

/-- Building writes every field of the reset table, and leaves no mark and no event. -/
theorem State.build_values {c : Config} {launch : Memory} {t : State} (h : State.build c launch = .next t) :
    ResetValues t ∧ t.cfg = c ∧ t.mem = launch ∧ t.refused = false ∧ t.trace = [] := by
  obtain ⟨-, -, rfl⟩ := State.build_eq_next h
  refine ⟨State.resetValues_initialise launch false _, ?_⟩
  rw [State.initialise_frame]
  exact ⟨rfl, rfl, rfl, rfl⟩

/-- Building on a buildable configuration raises no fatal error. -/
theorem State.build_live {c : Config} {launch : Memory} {t : State} (hb : buildable c = true)
    (h : State.build c launch = .next t) : t.halted = false ∧ t.fatalCode = none := by
  obtain ⟨-, -, rfl⟩ := State.build_eq_next h
  rw [State.initialise_buildable hb]
  exact ⟨rfl, rfl⟩

/-- Settles O22: building and RESET are one initialisation, which writes the marks, the trace and memory for the first only;
the values of RESET are those of O20. -/
theorem resetValuesAtAGlance : Obligations.ResetValuesAtAGlance := by
  constructor
  · intro c launch t h
    obtain ⟨hvalues, hcfg, hmem, hrefused, htrace⟩ := State.build_values h
    refine ⟨hvalues, hcfg, hmem, hrefused, htrace, fun hb => ?_⟩
    obtain ⟨hlive, hcode⟩ := State.build_live hb h
    obtain ⟨-, -, hpal⟩ := State.LiveSound.of_build h hlive
    exact ⟨hlive, hcode, hpal⟩
  · intro s t hb hh he
    obtain ⟨u, hu, hvalues, hpal, -, hmem, hlive, hcode, hrefused, htrace, -⟩ := resetReinitialises s hb hh
    cases hu.symm.trans he
    exact ⟨hvalues, hmem, hlive, hcode.trans, hpal, hrefused, htrace⟩

/-! The invariants of a machine that was built (R205, R245, R480). -/

/-- The launch memory that R481 accepts is in canonical form and inside memory, and the maps that initialising writes are empty,
but for the decoded palette. -/
theorem State.canonical_of_build {c : Config} {launch : Memory} {t : State} (h : State.build c launch = .next t) :
    t.canonical = true := by
  obtain ⟨-, hlaunch, rfl⟩ := State.build_eq_next h
  obtain ⟨hwf, hwithin⟩ := Bool.and_eq_true_iff.mp hlaunch
  exact (State.canonical_iff _).mpr (CanonicalParts.initialise launch false hwf hwithin)

/-- Settles O54: a machine that was built live is sound, its maps are canonical, and no boundary has come yet. -/
theorem invariantsHoldWhenBuilt : Obligations.InvariantsHoldWhenBuilt := by
  intro c launch t h hlive
  obtain ⟨hbuildable, hcoherent, hpal⟩ := State.LiveSound.of_build h hlive
  obtain ⟨hvalues, -⟩ := State.build_values h
  exact ⟨hbuildable, State.canonical_of_build h, hcoherent, hpal, .inl hvalues.lastBoundary⟩

/-! The machine of `State.reset`. -/

/-- The machine that is built where every check of R480 and R481 passes: the reset fields, and the palette decoded from the launch
memory. -/
theorem State.build_buildable {c : Config} {launch : Memory} (hb : buildable c = true) (hl : launchOk c launch = true) :
    State.build c launch =
      .next { ({ State.reset with cfg := c } : State).initFields launch false with pal := decodePalette c launch } := by
  obtain ⟨hw, -⟩ := (buildable_iff c).mp hb
  rw [State.build, hw, hl]
  exact congrArg Host.Outcome.next (State.initialise_buildable hb)

theorem buildable_tc : buildable tc = true := by decide

/-- On TC a zero byte decodes to black, so that zeros leave no palette entry listed. -/
theorem decodePalette_tc_zeros : decodePalette tc [] = [] := by decide

theorem State.build_tc_eq_reset : State.build tc [] = .next State.reset := by
  rw [State.build_buildable buildable_tc rfl, decodePalette_tc_zeros]
  rfl

/-- Settles O55: `State.reset` is one of the machines of O54. -/
theorem resetStateIsBuiltAndInvariant : Obligations.ResetStateIsBuiltAndInvariant := by
  obtain ⟨-, hinvariants⟩ := invariantsHoldWhenBuilt tc [] State.reset State.build_tc_eq_reset rfl
  exact ⟨State.build_tc_eq_reset, hinvariants⟩

end Sys2Proof.Machine
end
